-- ==== Sys2Proof/Word.lean ====
section
/-! DEFINITION. The word types of the HTB block (spec/00_scope.md R7, R8) and the fixed-size table
that holds the block's indexed spaces (spec/20_memory.md R60). -/

namespace Sys2Proof

/-- A symbol, a stream byte, an 8-bit operand field or a code length (R7, R81). -/
abbrev Byte := BitVec 8

/-- A frequency counter (`CW` = 32), a status register, the `DATA` field (R7, R24, R36, R81). -/
abbrev Word := BitVec 32

/-- A command word or a response word (`CMDW` = 64, R7, R80, R84). -/
abbrev CmdWord := BitVec 64

/-- A node id (`IDW` = 9, R7, R26). -/
abbrev NodeId := BitVec 9

/-- A node weight (`WW` = 40, R7, R138). -/
abbrev Weight := BitVec 40

/-- A code pattern (`PATW` = 256, R7, R28). -/
abbrev Pattern := BitVec 256

/-- A fixed number of like cells: the counter file, the node memory, the code table (R60).  The
length travels with the cells, so no index of the stated range can miss (R67). -/
structure Table (α : Type) (n : Nat) where
  cells : List α
  size : cells.length = n
  deriving DecidableEq, Repr

/-- `n` cells that all hold `a`. -/
def Table.fill {α : Type} (n : Nat) (a : α) : Table α n :=
  ⟨List.replicate n a, List.length_replicate⟩

end Sys2Proof
end

