-- ==== Sys2Proof/Config.lean ====
section
/-! DEFINITION. What one HTB block fixes: the named parameters of spec/00_scope.md R7, the
identification constant of spec/10_state.md R38, and the two parameters the spec leaves OPEN. -/

namespace Sys2Proof.Config

/-- `ID`, the ASCII bytes `H`,`T`,`B`,`1` (R2, R38). -/
abbrev idConstant : Word := 0x48544231#32

/-- `NIL`, the node id that means "no node" (R7, R26). -/
abbrev nil : NodeId := 511#9

/-- `INT0`, the id of the first internal node a BUILD creates; the ids below it are the leaves
(R7, R26). -/
abbrev firstInternal : Nat := 256

/-- `CMAX` = 2^32 − 1, the largest counter value (R7, R123). -/
abbrev cmax : Word := 0xFFFFFFFF#32

/-- `NBMAX`, the largest `n` of WBITS and RBITS (R7, R83). -/
abbrev nbmax : Nat := 32

/-- `LOCKED`, the response status of a command turned away by the lock (R180, R185). -/
abbrev lockedStatus : Byte := 0xFF#8

/-- `SRC_DEPTH` is OPEN (R7): it only delays a push, so no definition reads it (log entry 5). -/
opaque srcDepth : Nat

/-- `SNK_DEPTH` is OPEN (R7): it only delays a completion, so no definition reads it (log entry
5). -/
opaque snkDepth : Nat

end Sys2Proof.Config
end

