-- ==== Sys2Proof/Syntax.lean ====
section
/-! DEFINITION. The eighteen commands of spec/30_encoding.md R86, one constructor per row of
spec/opcode_table.json, and the usage formats of R82. -/

namespace Sys2Proof

/-- A command with its operands as they stand in the fields of the command word (R81, R83, R86).
A term whose operand is out of range is ill-formed (`Instr.wellFormed`, WellFormed.lean). -/
inductive Instr where
  /-- NOP (R172) -/
  | nop
  /-- SRST (R173) -/
  | srst
  /-- RDREG idx (R174) -/
  | rdreg (idx : Byte)
  /-- FCLR (R120) -/
  | fclr
  /-- FADD sym (R122) -/
  | fadd (sym : Byte)
  /-- LDCNT sym, count (R124) -/
  | ldcnt (sym : Byte) (count : Word)
  /-- RDCNT sym (R125) -/
  | rdcnt (sym : Byte)
  /-- BUILD (R131) -/
  | build
  /-- RDLEN sym (R154) -/
  | rdlen (sym : Byte)
  /-- RDCODE sym, w (R155) -/
  | rdcode (sym : Byte) (w : Byte)
  /-- RDNODE sel, id (R141) -/
  | rdnode (sel : Byte) (id : NodeId)
  /-- WBITS n, value (R102) -/
  | wbits (n : Byte) (value : Word)
  /-- FLUSH (R103) -/
  | flush
  /-- ENC sym (R161) -/
  | enc (sym : Byte)
  /-- RBIT (R113) -/
  | rbit
  /-- RBITS n (R114) -/
  | rbits (n : Byte)
  /-- UALIGN (R115) -/
  | ualign
  /-- DEC (R164) -/
  | dec
  deriving DecidableEq, Repr

/-- The usage formats of R82.  RDNODE's AD format also asks for `DATA[31:9] = 0` (R82, R90), so it
stands apart from the AD format of LDCNT and WBITS. -/
inductive Format where
  | z
  | a
  | ab
  | ad
  | adNode
  deriving DecidableEq, Repr

end Sys2Proof
end

