-- ==== Sys2Proof/WellFormed.lean ====
section
/-! DEFINITION. When a command's operands are within the legal values of spec/30_encoding.md R83. -/

namespace Sys2Proof

/-- Every operand of the command is within its legal values (R83, R89).  A symbol and a count have
no illegal value; a node id is 0 to 510. -/
def Instr.wellFormed : Instr → Bool
  | .nop => true
  | .srst => true
  | .rdreg idx => decide (idx.toNat ≤ 11)
  | .fclr => true
  | .fadd _ => true
  | .ldcnt _ _ => true
  | .rdcnt _ => true
  | .build => true
  | .rdlen _ => true
  | .rdcode _ w => decide (w.toNat ≤ 7)
  | .rdnode sel id => decide (sel.toNat ≤ 2) && decide (id ≠ Config.nil)
  | .wbits n _ => decide (n.toNat ≤ Config.nbmax)
  | .flush => true
  | .enc _ => true
  | .rbit => true
  | .rbits n => decide (n.toNat ≤ Config.nbmax)
  | .ualign => true
  | .dec => true

end Sys2Proof
end

