-- ==== Sys2Proof/Decode.lean ====
section
/-! DEFINITION. Decoding a 64-bit command word (spec/30_encoding.md R80 to R90), total and rejecting
by name, and the encoder after it. -/

namespace Sys2Proof

/-- Why a command word is no command (R88, R89). -/
inductive Reject where
  /-- `OPC` is not one of the 18 opcodes: ILLEGAL_OPCODE (R88). -/
  | illegalOpcode
  /-- A must-be-zero field is not zero or an operand is out of range: ILLEGAL_OPERAND (R89). -/
  | illegalOperand
  deriving DecidableEq, Repr

/-- `OPC`, bits 63:56 (R81). -/
def opcField (c : CmdWord) : Byte := c.extractLsb' 56 8

/-- `A`, bits 55:48 (R81). -/
def aField (c : CmdWord) : Byte := c.extractLsb' 48 8

/-- `B`, bits 47:40 (R81). -/
def bField (c : CmdWord) : Byte := c.extractLsb' 40 8

/-- `DATA`, bits 31:0 (R81). -/
def dataField (c : CmdWord) : Word := c.extractLsb' 0 32

/-- `DATA[8:0]`, the node id of RDNODE (R83). -/
def nodeField (c : CmdWord) : NodeId := c.extractLsb' 0 9

/-- The mask of a format: a 1 in the opcode and in every bit that must be zero (R90). -/
def Format.mask : Format → CmdWord
  | .z => 0xFFFFFFFFFFFFFFFF#64
  | .a => 0xFF00FFFFFFFFFFFF#64
  | .ab => 0xFF0000FFFFFFFFFF#64
  | .ad => 0xFF00FFFF00000000#64
  | .adNode => 0xFF00FFFFFFFFFE00#64

/-- The opcode map (R86): the format of the word's opcode, and the command with its operands taken
from their fields as they stand (R83).  None for the 238 illegal opcodes (R88). -/
def opcodeMap (c : CmdWord) : Option (Format × Instr) :=
  match opcField c with
  | 0x00#8 => some (.z, .nop)
  | 0x01#8 => some (.z, .srst)
  | 0x02#8 => some (.a, .rdreg (aField c))
  | 0x10#8 => some (.z, .fclr)
  | 0x11#8 => some (.a, .fadd (aField c))
  | 0x12#8 => some (.ad, .ldcnt (aField c) (dataField c))
  | 0x13#8 => some (.a, .rdcnt (aField c))
  | 0x20#8 => some (.z, .build)
  | 0x21#8 => some (.a, .rdlen (aField c))
  | 0x22#8 => some (.ab, .rdcode (aField c) (bField c))
  | 0x23#8 => some (.adNode, .rdnode (aField c) (nodeField c))
  | 0x30#8 => some (.ad, .wbits (aField c) (dataField c))
  | 0x31#8 => some (.z, .flush)
  | 0x32#8 => some (.a, .enc (aField c))
  | 0x40#8 => some (.z, .rbit)
  | 0x41#8 => some (.a, .rbits (aField c))
  | 0x42#8 => some (.z, .ualign)
  | 0x43#8 => some (.z, .dec)
  | _ => none

/-- R90: `c & mask = match`, where `match` is the opcode in bits 63:56 and zeros below. -/
def shapeOk (f : Format) (c : CmdWord) : Bool := (c &&& f.mask) == (opcField c ++ 0#56)

/-- Steps 2 and 3 of R87: the opcode first, then the must-be-zero fields and operand ranges. -/
def decode (c : CmdWord) : Except Reject Instr :=
  match opcodeMap c with
  | none => .error .illegalOpcode
  | some (f, i) => if shapeOk f c && i.wellFormed then .ok i else .error .illegalOperand

/-- The command word `{OPC, A, B, RSV = 0, DATA}` (R81). -/
def commandWord (opc a b : Byte) (data : Word) : CmdWord := opc ++ a ++ b ++ 0#8 ++ data

/-- The opcode of a command (R86). -/
def Instr.opcode : Instr → Byte
  | .nop => 0x00#8
  | .srst => 0x01#8
  | .rdreg _ => 0x02#8
  | .fclr => 0x10#8
  | .fadd _ => 0x11#8
  | .ldcnt _ _ => 0x12#8
  | .rdcnt _ => 0x13#8
  | .build => 0x20#8
  | .rdlen _ => 0x21#8
  | .rdcode _ _ => 0x22#8
  | .rdnode _ _ => 0x23#8
  | .wbits _ _ => 0x30#8
  | .flush => 0x31#8
  | .enc _ => 0x32#8
  | .rbit => 0x40#8
  | .rbits _ => 0x41#8
  | .ualign => 0x42#8
  | .dec => 0x43#8

/-- The format of a command (R82, R86). -/
def Instr.format : Instr → Format
  | .nop | .srst | .fclr | .build | .flush | .rbit | .ualign | .dec => .z
  | .rdreg _ | .fadd _ | .rdcnt _ | .rdlen _ | .enc _ | .rbits _ => .a
  | .rdcode _ _ => .ab
  | .ldcnt _ _ | .wbits _ _ => .ad
  | .rdnode _ _ => .adNode

/-- The command word of a command, its operands placed by R82 and R83 (R94). -/
def encode (i : Instr) : CmdWord :=
  match i with
  | .nop | .srst | .fclr | .build | .flush | .rbit | .ualign | .dec => commandWord i.opcode 0 0 0
  | .rdreg idx => commandWord i.opcode idx 0 0
  | .fadd sym | .rdcnt sym | .rdlen sym | .enc sym => commandWord i.opcode sym 0 0
  | .rbits n => commandWord i.opcode n 0 0
  | .rdcode sym w => commandWord i.opcode sym w 0
  | .ldcnt sym count => commandWord i.opcode sym 0 count
  | .wbits n value => commandWord i.opcode n 0 value
  | .rdnode sel id => commandWord i.opcode sel 0 (id.setWidth 32)

/-- The command word whose bits the host's table numbers as `w` (a command is one 64-bit word, R80,
so the table's bit 0 is bit 0 of R81); bits at and above `nbits` are 0. -/
def tableWord (nbits w : Nat) : CmdWord := BitVec.ofNat 64 (w % 2 ^ nbits)

/-- The command the decoder reads from that word; none where it rejects. -/
def decodeTableWord (nbits w : Nat) : Option Instr :=
  match decode (tableWord nbits w) with
  | .ok i => some i
  | .error _ => none

end Sys2Proof
end

