-- ==== Sys2Proof/Machine/State.lean ====
section
/-! DEFINITION. The whole state of the block (spec/10_state.md R22) with its ports (R45), as plain
data, and its value after hardware reset (R22, spec/70_reset_and_hazards.md R210). -/

namespace Sys2Proof.Machine

/-- One record of the node memory: `W[i]`, `LEFT[i]`, `RIGHT[i]` (R26). -/
structure Node where
  weight : Weight
  left : NodeId
  right : NodeId
  deriving DecidableEq, Repr

/-- One entry of the code table: `LEN[s]`, `PAT[s]` (R28). -/
structure Code where
  len : Byte
  pat : Pattern
  deriving DecidableEq, Repr

/-- What the agents outside the block do at its ports (R20, R46, R48, R51). -/
inductive PortEvent where
  /-- The host presents a command word on port CMD: `Issue(cmd)` (R20, R46). -/
  | issue (c : CmdWord)
  /-- The source offers a byte on port SRC: `SrcPush(b)` (R48). -/
  | srcPush (b : Byte)
  /-- The source declares the end of its stream: `SrcEnd` (R48). -/
  | srcEnd
  /-- Pin `rst_n` is pulled low and released: hardware reset (R51, R210). -/
  | hwReset
  deriving DecidableEq, Repr

/-- The state of the block.  The first sixteen fields are R22's elements, under R22's names; the
last four are its ports CMD and RSP and what the outside world is about to do. -/
structure State where
  /-- `CNT[0..255]` (R24) -/
  cnt : Table Word 256
  /-- `TREE_VALID` (R25) -/
  treeValid : Bool
  /-- `DEGEN` (R27) -/
  degen : Bool
  /-- `ROOT` (R27) -/
  root : NodeId
  /-- `NINT` (R27) -/
  nint : NodeId
  /-- `W`, `LEFT`, `RIGHT` of ids 256 to 510 (R26); cell `k` is node `256 + k` -/
  nodes : Table Node 255
  /-- `LEN`, `PAT` (R28) -/
  code : Table Code 256
  /-- `PACC` (R29) -/
  pacc : Byte
  /-- `PCNT` (R29) -/
  pcnt : BitVec 3
  /-- `UACC` (R30) -/
  uacc : Byte
  /-- `UREM` (R30) -/
  urem : BitVec 3
  /-- `SRCQ`, oldest first (R31) -/
  srcq : List Byte
  /-- `SRC_EOS` (R31) -/
  srcEos : Bool
  /-- `SNK`, the log of emitted bytes, oldest first (R32) -/
  snk : List Byte
  /-- `ERR` (R33) -/
  err : Byte
  /-- `ERRCMD` (R33) -/
  errcmd : CmdWord
  /-- Port CMD: the words presented and not yet answered; the first is the head of the port
  (R46). -/
  cmdq : List CmdWord
  /-- The head of port CMD is held: it waits for the source (R11, R112). -/
  held : Bool
  /-- Port RSP: the log of response words, oldest first (R47, R228). -/
  rsp : List CmdWord
  /-- What the host, the source and the reset pin do next, in order (R20, R21, R228): an input of
  the step, not state of the block (log entry 1). -/
  agenda : List PortEvent
  deriving DecidableEq, Repr

/-- Why the machine would stop.  There is no constructor: every command word in every state has
exactly one outcome, a next state (R181); the block's own nine faults are recorded in the state
(`Cause`, Ops.lean), and a hold is a state too (R201).  An empty type is safe: no step can use it
to stop. -/
inductive Fault where
  deriving DecidableEq, Repr

/-- Why a command has no meaning. -/
inductive Refusal where
  /-- Raised only by an arm of `exec` whose command has no meaning yet; no arm does.  Safe: the
  machine stops. -/
  | notModelled (mnemonic : String)
  deriving DecidableEq, Repr

/-- What a meaning answers. -/
abbrev Result := Host.Outcome State Fault Refusal

/-- The block right after hardware reset (R22, R210).  Node memory and code table are "unspecified,
unreadable" there (R22, R212): the zeros they hold are the model's choice (DESIGN CHOICE, log entry
4), as are the empty port logs (log entries 1 and 3). -/
def State.reset : State where
  cnt := Table.fill 256 0#32
  treeValid := false
  degen := false
  root := Config.nil
  nint := 0#9
  nodes := Table.fill 255 ⟨0#40, 0#9, 0#9⟩
  code := Table.fill 256 ⟨0#8, 0#256⟩
  pacc := 0#8
  pcnt := 0#3
  uacc := 0#8
  urem := 0#3
  srcq := []
  srcEos := false
  snk := []
  err := 0#8
  errcmd := 0#64
  cmdq := []
  held := false
  rsp := []
  agenda := []

end Sys2Proof.Machine
end

