-- ==== Sys2Proof/Machine/Ops.lean ====
section
/-! DEFINITION. The shared operations: reading and writing the indexed spaces, the response
(spec/30_encoding.md R84), taking a fault (spec/60_exceptions.md R183) and the return from it
(spec/46_system.md R173), the lock (R185), the hold (spec/41_bit_unpacker.md R112), and what the
agents at the ports do (spec/10_state.md R48, R51). -/

namespace Sys2Proof.Machine

/-! ### The indexed spaces (R60) -/

/-- Cell `i` of a table. -/
def readCell {α : Type} {n : Nat} (t : Table α n) (i : Nat) (h : i < n) : α :=
  t.cells[i]'(t.size.symm ▸ h)

/-- The table with cell `i` replaced. -/
def writeCell {α : Type} {n : Nat} (t : Table α n) (i : Nat) (a : α) : Table α n :=
  ⟨t.cells.set i a, (List.length_set ..).trans t.size⟩

/-- `CNT[sym]` (R24). -/
def readCount (cnt : Table Word 256) (sym : Byte) : Word := readCell cnt sym.toNat sym.isLt

/-- `CNT[sym] <- v` (R24). -/
def writeCount (cnt : Table Word 256) (sym : Byte) (v : Word) : Table Word 256 :=
  writeCell cnt sym.toNat v

/-- `LEN[sym]` and `PAT[sym]` (R28). -/
def readCode (code : Table Code 256) (sym : Byte) : Code := readCell code sym.toNat sym.isLt

/-- The stored record of internal node `id`, 256 to 510 (R26).  An id without storage (a leaf, whose
children are both `NIL`, or `NIL` itself) answers no children; no command takes a weight from that
answer. -/
def nodeRecord (nodes : Table Node 255) (id : NodeId) : Node :=
  if h : 256 ≤ id.toNat ∧ id.toNat < 511 then
    readCell nodes (id.toNat - 256) (by omega)
  else ⟨0#40, Config.nil, Config.nil⟩

/-- The child a bit leads to: 0 = left, 1 = right (R135, R164). -/
def childOf (nodes : Table Node 255) (id : NodeId) (bit : Bool) : NodeId :=
  if bit then (nodeRecord nodes id).right else (nodeRecord nodes id).left

/-! ### Responses (R84) -/

/-- The response word `{st, aux, 0x0000, data}` (R11, R84). -/
def responseWord (st aux : Byte) (data : Word) : CmdWord := st ++ aux ++ 0#16 ++ data

/-- The command word being executed: the head of port CMD (R46, R183). -/
def State.headWord (s : State) : CmdWord := s.cmdq.headD 0#64

/-- `respond(st, aux, data)`: one response word, and the command leaves the head of port CMD (R11,
R46, R47). -/
def respond (st aux : Byte) (data : Word) (s : State) : State :=
  { s with cmdq := s.cmdq.tail, held := false, rsp := s.rsp ++ [responseWord st aux data] }

/-- A command that completes: `respond(OK, aux, data)` (R11). -/
def complete (aux : Byte) (data : Word) (s : State) : Result := .next (respond 0#8 aux data s)

/-! ### Taking a fault (R180 to R185) -/

/-- The nine faults (R180). -/
inductive Cause where
  | illegalOpcode
  | illegalOperand
  | countOverflow
  | tableFrozen
  | emptyTable
  | noTree
  | symbolNotCoded
  | badPath
  | truncated
  deriving DecidableEq, Repr

/-- The code of a fault: the value of `ST` and of `ERR` (R180). -/
def causeCode : Cause → Byte
  | .illegalOpcode => 0x01#8
  | .illegalOperand => 0x02#8
  | .countOverflow => 0x03#8
  | .tableFrozen => 0x04#8
  | .emptyTable => 0x05#8
  | .noTree => 0x06#8
  | .symbolNotCoded => 0x07#8
  | .badPath => 0x08#8
  | .truncated => 0x09#8

/-- The fault of a word the decoder rejects (R88, R89). -/
def rejectCause : Reject → Cause
  | .illegalOpcode => .illegalOpcode
  | .illegalOperand => .illegalOperand

/-- The fault record: the first fault is kept (R183, R184). -/
def recordFault (f : Cause) (s : State) : State :=
  if s.err = 0#8 then { s with err := causeCode f, errcmd := s.headWord } else s

/-- `raise F`: record, respond with the code, write nothing else (R183). -/
def raise (f : Cause) (s : State) : State := respond (causeCode f) 0#8 0#32 (recordFault f s)

/-- A command that faults (R181, R183). -/
def trap (f : Cause) (s : State) : Result := .next (raise f s)

/-- The opcodes the block executes while it is locked: NOP, SRST, RDREG (R87 step 1, R170). -/
def systemOpcode (opc : Byte) : Bool := opc == 0x00#8 || opc == 0x01#8 || opc == 0x02#8

/-- Step 1 of R87: the lock turns the word away (R185). -/
def lockRefuses (c : CmdWord) (s : State) : Bool := s.err != 0#8 && !systemOpcode (opcField c)

/-- What becomes of a command word before its own rule is looked at (R87). -/
inductive Verdict where
  | locked
  | rejected (r : Reject)
  | execute (i : Instr)
  deriving DecidableEq, Repr

/-- The decode order of R87: the lock, then the opcode, then the word's shape. -/
def judge (c : CmdWord) (s : State) : Verdict :=
  if lockRefuses c s then .locked
  else
    match decode c with
    | .error r => .rejected r
    | .ok i => .execute i

/-- The answer `LOCKED`; nothing is recorded (R87, R185). -/
def respondLocked (s : State) : State := respond Config.lockedStatus 0#8 0#32 s

/-- The word the block executes next: the head of port CMD, unless it is held (R46, R112). -/
def nextCommand (s : State) : Option CmdWord := if s.held then none else s.cmdq.head?

/-- The return from a fault and the common part of the two resets: every element of R22 but `SNK`
takes its reset value (R173, R210, R211).  Node memory and code table are "not cleared by anything"
(R212); `TREE_VALID = 0` makes them unreadable. -/
def resetElements (s : State) : State :=
  { s with
    cnt := Table.fill 256 0#32, treeValid := false, degen := false, root := Config.nil,
    nint := 0#9, pacc := 0#8, pcnt := 0#3, uacc := 0#8, urem := 0#3, srcq := [],
    srcEos := false, err := 0#8, errcmd := 0#64 }

/-! ### The hold (R11, R112) -/

/-- `hold`: nothing changes, no response; the command stays at the head of port CMD. -/
def hold (s : State) : State := { s with held := true }

/-- What an underrun does: `TRUNCATED` after the end of the source, else hold (R112). -/
def underrun (s : State) : State := if s.srcEos then raise .truncated s else hold s

/-! ### The unpacker's private copy (R111) -/

/-- The part of the state that reading bits touches: `UACC`, `UREM`, `SRCQ` (R110, R111). -/
structure BitSource where
  acc : Byte
  rem : BitVec 3
  queue : List Byte
  deriving DecidableEq, Repr

/-- The private copy a reading command is evaluated on (R111). -/
def State.bitSource (s : State) : BitSource := ⟨s.uacc, s.urem, s.srcq⟩

/-- The copy becomes the state (R111). -/
def State.withBitSource (s : State) (u : BitSource) : State :=
  { s with uacc := u.acc, urem := u.rem, srcq := u.queue }

/-! ### The agents at the ports (R20, R46, R48, R51) -/

/-- `SrcPush(b)`: enabled only while `SRC_EOS = 0`; a byte offered after the end is never taken
(R48).  A held command is looked at again (R112). -/
def pushSource (b : Byte) (s : State) : State :=
  if s.srcEos then s else { s with srcq := s.srcq ++ [b], held := false }

/-- `SrcEnd` (R48).  A held command is looked at again (R112). -/
def endSource (s : State) : State := { s with srcEos := true, held := false }

/-- `Issue(cmd)`: the word waits on port CMD behind those not yet answered (R20, R46). -/
def issueCommand (c : CmdWord) (s : State) : State := { s with cmdq := s.cmdq ++ [c] }

/-- Hardware reset (R210): the reset values, an empty `SNK`, and a command in progress or held is
abandoned without a response.  Clearing the words behind it and the response log is the model's
choice (DESIGN CHOICE, log entry 3). -/
def hardReset (s : State) : State :=
  { resetElements s with snk := [], cmdq := [], held := false, rsp := [] }

/-- What one act of an agent does. -/
def arrive : PortEvent → State → State
  | .issue c, s => issueCommand c s
  | .srcPush b, s => pushSource b s
  | .srcEnd, s => endSource s
  | .hwReset, s => hardReset s

/-- The next act of an agent happens; with none left the block is idle, or held for ever (R112,
R200). -/
def deliver (s : State) : State :=
  match s.agenda with
  | [] => s
  | e :: rest => arrive e { s with agenda := rest }

end Sys2Proof.Machine
end

