-- ==== Sys2Proof/Machine/Operands.lean ====
section
/-! DEFINITION. Operand assembly (spec/30_encoding.md R83): which value each operand field stands
for, and the bits of a multi-bit value in stream order (spec/20_memory.md R64). -/

namespace Sys2Proof.Machine

/-- The twelve status registers (R36). -/
inductive StatusReg where
  | id
  | status
  | err
  | errcmdLo
  | errcmdHi
  | totalLo
  | totalHi
  | ndist
  | root
  | nint
  | pack
  | unpk
  deriving DecidableEq, Repr

/-- The register of operand `idx`; 12 to 255 are not registers (R36, R62). -/
def statusRegOf (idx : Byte) : Option StatusReg :=
  match idx with
  | 0#8 => some .id
  | 1#8 => some .status
  | 2#8 => some .err
  | 3#8 => some .errcmdLo
  | 4#8 => some .errcmdHi
  | 5#8 => some .totalLo
  | 6#8 => some .totalHi
  | 7#8 => some .ndist
  | 8#8 => some .root
  | 9#8 => some .nint
  | 10#8 => some .pack
  | 11#8 => some .unpk
  | _ => none

/-- The three views of a node (R141). -/
inductive NodeView where
  | links
  | weightLow
  | weightHigh
  deriving DecidableEq, Repr

/-- The view of operand `sel`, 0 to 2 (R83, R141). -/
def nodeViewOf (sel : Byte) : Option NodeView :=
  match sel with
  | 0#8 => some .links
  | 1#8 => some .weightLow
  | 2#8 => some .weightHigh
  | _ => none

/-- The count `n` of WBITS and RBITS, 0 to 32 (R83). -/
def bitCountOf (n : Byte) : Option Nat := if n.toNat ≤ Config.nbmax then some n.toNat else none

/-- The pattern word index `w` of RDCODE, 0 to 7 (R83). -/
def patternWordOf (w : Byte) : Option Nat := if w.toNat ≤ 7 then some w.toNat else none

/-- Bits 0 to `n`−1 of a value, in the order they travel: bit 0 first (R63, R64). -/
def lowBits {k : Nat} (v : BitVec k) (n : Nat) : List Bool := (List.range n).map v.getLsbD

/-- The value whose bit `i` is the `i`-th bit of the list: the first bit read lands in bit 0 (R64,
R114). -/
def ofBits (k : Nat) : List Bool → BitVec k
  | [] => 0#k
  | b :: bs => (ofBits k bs <<< 1) ||| (BitVec.ofBool b).setWidth k

end Sys2Proof.Machine
end

