-- ==== Sys2Proof/Machine/CodeTable.lean ====
section
/-! DEFINITION. Reading the code table: RDLEN, RDCODE (spec/44_code_table.md). -/

namespace Sys2Proof.Machine

/-- RDLEN sym (R154): a symbol with no code reads 0. -/
def execRdlen (sym : Byte) (s : State) : Result :=
  if s.treeValid then complete 0#8 ((readCode s.code sym).len.setWidth 32) s else trap .noTree s

/-- Word `w` of a pattern: bits `32w+31` to `32w` (R66). -/
def patternWord (p : Pattern) (w : Nat) : Word := p.extractLsb' (32 * w) 32

/-- RDCODE sym, w (R155).  `w` above 7 is ILLEGAL_OPERAND (R62, R89). -/
def execRdcode (sym w : Byte) (s : State) : Result :=
  match patternWordOf w with
  | none => trap .illegalOperand s
  | some k =>
    if s.treeValid then
      complete (readCode s.code sym).len (patternWord (readCode s.code sym).pat k) s
    else trap .noTree s

end Sys2Proof.Machine
end

