-- ==== Sys2Proof/Machine/Packer.lean ====
section
/-! DEFINITION. The bit packer: PackBit, Emit, WBITS, FLUSH (spec/40_bit_packer.md). -/

namespace Sys2Proof.Machine

/-- `Emit(byte)` (R101). -/
def emit (b : Byte) (s : State) : State := { s with snk := s.snk ++ [b] }

/-- `PackBit(b)` (R100): the bit lands at position `PCNT`; the eighth bit emits the byte. -/
def packBit (b : Bool) (s : State) : State :=
  let acc := s.pacc ||| ((BitVec.ofBool b).setWidth 8 <<< s.pcnt.toNat)
  if s.pcnt = 7#3 then { emit acc s with pacc := 0#8, pcnt := 0#3 }
  else { s with pacc := acc, pcnt := s.pcnt + 1#3 }

/-- PackBit for each bit, the first bit first (R102, R161). -/
def packBits (bits : List Bool) (s : State) : State := bits.foldl (fun t b => packBit b t) s

/-- WBITS n, value (R102): the low `n` bits, bit 0 first; the bits above are ignored (R83).  `n`
above 32 is ILLEGAL_OPERAND (R89). -/
def execWbits (n : Byte) (value : Word) (s : State) : Result :=
  match bitCountOf n with
  | none => trap .illegalOperand s
  | some k => complete 0#8 0#32 (packBits (lowBits value k) s)

/-- The zero bits FLUSH adds: `(8 − PCNT) mod 8` (R103). -/
def padBits (pcnt : BitVec 3) : Nat := (8 - pcnt.toNat) % 8

/-- FLUSH (R103): with nothing pending, nothing is emitted. -/
def execFlush (s : State) : Result :=
  if s.pcnt = 0#3 then complete 0#8 0#32 s
  else
    complete (BitVec.ofNat 8 (padBits s.pcnt)) 0#32 { emit s.pacc s with pacc := 0#8, pcnt := 0#3 }

end Sys2Proof.Machine
end

