-- ==== Sys2Proof/Machine/Unpacker.lean ====
section
/-! DEFINITION. The bit unpacker: UnpackBit, RBIT, RBITS, UALIGN (spec/41_bit_unpacker.md). -/

namespace Sys2Proof.Machine

/-- `UnpackBit()` on the private copy (R110, R111): bit 0 first, a byte pulled only when a bit of it
is needed.  None on underrun. -/
def unpackBit (u : BitSource) : Option (Bool × BitSource) :=
  if u.rem = 0#3 then
    match u.queue with
    | [] => none
    | b :: rest => some (b.getLsbD 0, ⟨b >>> 1, 7#3, rest⟩)
  else some (u.acc.getLsbD 0, ⟨u.acc >>> 1, u.rem - 1#3, u.queue⟩)

/-- `UnpackBit()` `n` times: the bits in the order read, or none if some call underruns (R111,
R114). -/
def unpackBits : Nat → BitSource → Option (List Bool × BitSource)
  | 0, u => some ([], u)
  | n + 1, u =>
    match unpackBit u with
    | none => none
    | some (b, u') =>
      match unpackBits n u' with
      | none => none
      | some (bs, v) => some (b :: bs, v)

/-- RBIT (R113). -/
def execRbit (s : State) : Result :=
  match unpackBit s.bitSource with
  | none => .next (underrun s)
  | some (b, u) => complete 0#8 ((BitVec.ofBool b).setWidth 32) (s.withBitSource u)

/-- RBITS n (R114).  `n` above 32 is ILLEGAL_OPERAND (R89). -/
def execRbits (n : Byte) (s : State) : Result :=
  match bitCountOf n with
  | none => trap .illegalOperand s
  | some k =>
    match unpackBits k s.bitSource with
    | none => .next (underrun s)
    | some (bs, u) => complete 0#8 (ofBits 32 bs) (s.withBitSource u)

/-- UALIGN (R115): discards the rest of the current byte and answers it; `SRCQ` is not touched. -/
def execUalign (s : State) : Result :=
  complete (s.urem.setWidth 8) (s.uacc.setWidth 32) { s with uacc := 0#8, urem := 0#3 }

end Sys2Proof.Machine
end

