-- ==== Sys2Proof/Machine/Datapath.lean ====
section
/-! DEFINITION. Encoding and decoding one symbol: ENC, DEC (spec/45_codec_datapath.md). -/

namespace Sys2Proof.Machine

/-- ENC sym (R161): the bits of the pattern, the root's step first.  No tree, then no code (R162),
are faults. -/
def execEnc (sym : Byte) (s : State) : Result :=
  if s.treeValid then
    let c := readCode s.code sym
    if c.len = 0#8 then trap .symbolNotCoded s
    else complete c.len 0#32 (packBits (lowBits c.pat c.len.toNat) s)
  else trap .noTree s

/-- How a tree walk ends (R164). -/
inductive Walk where
  | leaf (sym : Byte) (depth : Nat) (rest : BitSource)
  | badPath
  | underrun
  deriving DecidableEq, Repr

/-- The bits a read can find: `UREM + 8 × len(SRCQ)` (R111). -/
def availableBits (u : BitSource) : Nat := u.rem.toNat + 8 * u.queue.length

/-- The walk of DEC (R164, R165) from node `i` at depth `d`.  Each step reads one bit, so `fuel` =
the number of available bits is exact: with no fuel left there is no bit left. -/
def walkTree (nodes : Table Node 255) : (fuel : Nat) → NodeId → Nat → BitSource → Walk
  | 0, _, _, _ => .underrun
  | fuel + 1, i, d, u =>
    match unpackBit u with
    | none => .underrun
    | some (b, u') =>
      let j := childOf nodes i b
      if j = Config.nil then .badPath
      else if j.toNat < Config.firstInternal then .leaf (j.setWidth 8) (d + 1) u'
      else walkTree nodes fuel j (d + 1) u'

/-- DEC (R164): the walk starts at the root; nothing is consumed unless it completes (R111). -/
def execDec (s : State) : Result :=
  if s.treeValid then
    match walkTree s.nodes (availableBits s.bitSource) s.root 0 s.bitSource with
    | .underrun => .next (underrun s)
    | .badPath => trap .badPath s
    | .leaf sym d u => complete (BitVec.ofNat 8 d) (sym.setWidth 32) (s.withBitSource u)
  else trap .noTree s

end Sys2Proof.Machine
end

