-- ==== Sys2Proof/Machine/Frequency.lean ====
section
/-! DEFINITION. The frequency table commands FCLR, FADD, LDCNT, RDCNT
(spec/42_frequency_table.md). -/

namespace Sys2Proof.Machine

/-- FCLR (R120): clears the counters and discards the tree; node memory and code table keep their
cells, which nothing can read while `TREE_VALID = 0`. -/
def execFclr (s : State) : Result :=
  complete 0#8 0#32
    { s with cnt := Table.fill 256 0#32, treeValid := false, degen := false, root := Config.nil,
             nint := 0#9 }

/-- FADD sym (R122): the freeze (R121) is tested before the overflow (R123). -/
def execFadd (sym : Byte) (s : State) : Result :=
  if s.treeValid then trap .tableFrozen s
  else if readCount s.cnt sym = Config.cmax then trap .countOverflow s
  else complete 0#8 0#32 { s with cnt := writeCount s.cnt sym (readCount s.cnt sym + 1#32) }

/-- LDCNT sym, count (R124), frozen while a tree is valid (R121). -/
def execLdcnt (sym : Byte) (count : Word) (s : State) : Result :=
  if s.treeValid then trap .tableFrozen s
  else complete 0#8 0#32 { s with cnt := writeCount s.cnt sym count }

/-- RDCNT sym (R125): legal whether or not a tree is valid. -/
def execRdcnt (sym : Byte) (s : State) : Result := complete 0#8 (readCount s.cnt sym) s

end Sys2Proof.Machine
end

