-- ==== Sys2Proof/Machine/Flags.lean ====
section
/-! DEFINITION. The seven status flags (spec/10_state.md R35), the `fault` line (R50) and the twelve
read-only status registers (R36 to R44). -/

namespace Sys2Proof.Machine

/-- `FAULT`, and the level of the `fault` line (R35, R50, R190). -/
def faultLine (s : State) : Bool := s.err != 0#8

/-- `PK_PENDING` (R35). -/
def pkPending (s : State) : Bool := s.pcnt != 0#3

/-- `UP_PENDING` (R35). -/
def upPending (s : State) : Bool := s.urem != 0#3

/-- `SRC_EMPTY` (R35). -/
def srcEmpty (s : State) : Bool := s.srcq.isEmpty

/-- `STATUS`: seven flags in bits 6:0, zeros above (R39). -/
def statusWord (s : State) : Word :=
  0#25 ++ BitVec.ofBool s.srcEos ++ BitVec.ofBool (srcEmpty s) ++ BitVec.ofBool (upPending s)
    ++ BitVec.ofBool (pkPending s) ++ BitVec.ofBool s.degen ++ BitVec.ofBool (faultLine s)
    ++ BitVec.ofBool s.treeValid

/-- The exact sum of all counters (R42). -/
def countSum (cnt : Table Word 256) : Nat := (cnt.cells.map BitVec.toNat).sum

/-- `TOTAL`, 40 bits; the sum never overflows them (R42). -/
def total (s : State) : Weight := BitVec.ofNat 40 (countSum s.cnt)

/-- `NDIST`: how many counters are not 0 (R43). -/
def distinct (cnt : Table Word 256) : Nat := cnt.cells.countP (· != 0#32)

/-- The value of a status register at the moment it is read (R36, R174). -/
def readStatusReg (r : StatusReg) (s : State) : Word :=
  match r with
  | .id => Config.idConstant
  | .status => statusWord s
  | .err => s.err.setWidth 32
  | .errcmdLo => s.errcmd.extractLsb' 0 32
  | .errcmdHi => s.errcmd.extractLsb' 32 32
  | .totalLo => (total s).extractLsb' 0 32
  | .totalHi => ((total s).extractLsb' 32 8).setWidth 32
  | .ndist => BitVec.ofNat 32 (distinct s.cnt)
  | .root => s.root.setWidth 32
  | .nint => s.nint.setWidth 32
  | .pack => 0#21 ++ s.pcnt ++ s.pacc
  | .unpk => 0#21 ++ s.urem ++ s.uacc

end Sys2Proof.Machine
end

