-- ==== Sys2Proof/Machine/System.lean ====
section
/-! DEFINITION. The system commands NOP, SRST, RDREG (spec/46_system.md). -/

namespace Sys2Proof.Machine

/-- NOP (R172). -/
def execNop (s : State) : Result := complete 0#8 0#32 s

/-- SRST, the return from a fault (R173, R188): every element but `SNK` takes its reset value. -/
def execSrst (s : State) : Result := complete 0#8 0#32 (resetElements s)

/-- RDREG idx (R174): reads, and changes no register.  An index without a register is
ILLEGAL_OPERAND (R36, R89). -/
def execRdreg (idx : Byte) (s : State) : Result :=
  match statusRegOf idx with
  | some r => complete 0#8 (readStatusReg r s) s
  | none => trap .illegalOperand s

end Sys2Proof.Machine
end

