-- ==== Sys2Proof/Machine/Tree.lean ====
section
/-! DEFINITION. The tree builder: BUILD and RDNODE (spec/43_tree_builder.md), with the derivation of
the code table (spec/44_code_table.md R150). -/

namespace Sys2Proof.Machine

/-- A member of `ACT`, with its ordering key `(W[i], i)` (R133, R134).  A node's weight does not
change once the node exists, so the key travels with the id. -/
structure Key where
  weight : Weight
  id : NodeId
  deriving DecidableEq, Repr

/-- `Key(i) < Key(j)`: weight first, then id (R133). -/
def keyLt (a b : Key) : Bool := a.weight < b.weight || (a.weight == b.weight && a.id < b.id)

/-- `W[s] = zext_40(CNT[s])` (R26). -/
def leafWeight (cnt : Table Word 256) (sym : Byte) : Weight := (readCount cnt sym).setWidth 40

/-- `L`: the symbols with a non-zero counter, in increasing order (R131, R132). -/
def leafSymbols (cnt : Table Word 256) : List Byte :=
  ((List.range 256).map (BitVec.ofNat 8)).filter fun sym => readCount cnt sym != 0#32

/-- The members `ACT` starts with (R134). -/
def leafKeys (cnt : Table Word 256) : List Key :=
  (leafSymbols cnt).map fun sym => ⟨leafWeight cnt sym, sym.setWidth 9⟩

/-- The element with the least key among `k` and the list, and the others (R131, R133). -/
def takeLeast : Key → List Key → Key × List Key
  | k, [] => (k, [])
  | k, x :: xs =>
    if keyLt x k then
      let (least, others) := takeLeast x xs
      (least, k :: others)
    else
      let (least, others) := takeLeast k xs
      (least, x :: others)

/-- One round's two removals: the least key, then the least of what remains (R134).  None when fewer
than two nodes are left. -/
def takeTwo : List Key → Option (Key × Key × List Key)
  | [] => none
  | x :: xs =>
    match takeLeast x xs with
    | (_, []) => none
    | (a, y :: ys) =>
      let (b, others) := takeLeast y ys
      some (a, b, others)

/-- The node a round creates: the first removed is the left child, the second the right (R135), and
the weight is their sum, which 40 bits hold (R138). -/
def mergedNode (a b : Key) : Node := ⟨a.weight + b.weight, a.id, b.id⟩

/-- The merge loop (R131, R134): the nodes it creates, the first under id `256 + k`.  `rounds`
bounds the recursion; a loop over `m` nodes makes `m − 1` rounds. -/
def mergeRounds : (rounds k : Nat) → List Key → List Node
  | 0, _, _ => []
  | rounds + 1, k, act =>
    match takeTwo act with
    | none => []
    | some (a, b, others) =>
      mergedNode a b ::
        mergeRounds rounds (k + 1)
          (⟨a.weight + b.weight, BitVec.ofNat 9 (Config.firstInternal + k)⟩ :: others)

/-- The internal nodes of the tree of a table, in creation order: one node with one child for
exactly one distinct symbol (R136), else the merge loop's (R134). -/
def treeNodes (cnt : Table Word 256) : List Node :=
  match leafKeys cnt with
  | [leaf] => [⟨leaf.weight, leaf.id, Config.nil⟩]
  | act => mergeRounds act.length 0 act

/-- Write records to consecutive cells of the node memory, from cell `k` on. -/
def storeNodes : Nat → List Node → Table Node 255 → Table Node 255
  | _, [], nodes => nodes
  | k, n :: rest, nodes => storeNodes (k + 1) rest (writeCell nodes k n)

/-- `Visit(i, d, p)` (R150): depth-first, left before right; at a leaf the depth and the path are
recorded.  `fuel` bounds the depth: every step of a tree goes to a smaller id (R142), so 256 is
enough. -/
def visit (nodes : Table Node 255) : (fuel : Nat) → NodeId → Nat → Pattern → Table Code 256 →
    Table Code 256
  | 0, _, _, _, code => code
  | fuel + 1, i, d, p, code =>
    if i = Config.nil then code
    else if i.toNat < Config.firstInternal then writeCell code i.toNat ⟨BitVec.ofNat 8 d, p⟩
    else
      visit nodes fuel (childOf nodes i true) (d + 1) (p ||| (1#256 <<< d))
        (visit nodes fuel (childOf nodes i false) (d + 1) p code)

/-- `DeriveCodes()` (R150): every entry is written, absent symbols with length 0. -/
def deriveCodes (nodes : Table Node 255) (root : NodeId) : Table Code 256 :=
  visit nodes 256 root 0 0#256 (Table.fill 256 ⟨0#8, 0#256⟩)

/-- The writes of a successful BUILD whose nodes are `created` (R131): the node records, `NINT`,
`ROOT`, `DEGEN`, the code table and `TREE_VALID`. -/
def installTree (created : List Node) (s : State) : State :=
  let nodes := storeNodes 0 created s.nodes
  let root := BitVec.ofNat 9 (255 + created.length)
  { s with
    nodes := nodes, nint := BitVec.ofNat 9 created.length, root := root,
    degen := decide ((leafSymbols s.cnt).length = 1), code := deriveCodes nodes root,
    treeValid := true }

/-- BUILD (R131); an empty table is EMPTY_TABLE (R137). -/
def execBuild (s : State) : Result :=
  if (leafSymbols s.cnt).isEmpty then trap .emptyTable s
  else
    let t := installTree (treeNodes s.cnt) s
    complete (t.nint.setWidth 8) (t.root.setWidth 32) t

/-- A node is live: a leaf with a non-zero counter, or an internal node of the present tree (R26,
R141). -/
def nodeLive (s : State) (id : NodeId) : Bool :=
  if id.toNat < 256 then readCount s.cnt (id.setWidth 8) != 0#32
  else decide (id.toNat < 256 + s.nint.toNat)

/-- What RDNODE finds at an id (R141): a leaf has no children and the weight of its counter; an
internal id that is not live has neither children nor weight, whatever its cell holds. -/
def nodeFound (s : State) (id : NodeId) : Node :=
  if id.toNat < 256 then ⟨leafWeight s.cnt (id.setWidth 8), Config.nil, Config.nil⟩
  else if nodeLive s id then nodeRecord s.nodes id
  else ⟨0#40, Config.nil, Config.nil⟩

/-- The 32-bit view of a node (R141). -/
def nodeView (v : NodeView) (s : State) (id : NodeId) : Word :=
  let n := nodeFound s id
  match v with
  | .links =>
    0#12 ++ BitVec.ofBool (nodeLive s id) ++ BitVec.ofBool (decide (id.toNat < 256)) ++ n.right
      ++ n.left
  | .weightLow => n.weight.extractLsb' 0 32
  | .weightHigh => (n.weight.extractLsb' 32 8).setWidth 32

/-- RDNODE sel, id (R141).  `sel` above 2 and id 511 are ILLEGAL_OPERAND (R62, R89). -/
def execRdnode (sel : Byte) (id : NodeId) (s : State) : Result :=
  if id = Config.nil then trap .illegalOperand s
  else
    match nodeViewOf sel with
    | none => trap .illegalOperand s
    | some v => if s.treeValid then complete 0#8 (nodeView v s id) s else trap .noTree s

end Sys2Proof.Machine
end

