-- ==== Sys2Proof/Machine/Dispatch.lean ====
section
/-! DEFINITION. The dispatch: one arm per command (spec/30_encoding.md R86). -/

namespace Sys2Proof.Machine

def exec (i : Instr) (s : State) : Host.Outcome State Fault Refusal :=
  match i with
  | .nop => Sys2Proof.Machine.execNop s
  | .srst => Sys2Proof.Machine.execSrst s
  | .rdreg idx => Sys2Proof.Machine.execRdreg idx s
  | .fclr => Sys2Proof.Machine.execFclr s
  | .fadd sym => Sys2Proof.Machine.execFadd sym s
  | .ldcnt sym count => Sys2Proof.Machine.execLdcnt sym count s
  | .rdcnt sym => Sys2Proof.Machine.execRdcnt sym s
  | .build => Sys2Proof.Machine.execBuild s
  | .rdlen sym => Sys2Proof.Machine.execRdlen sym s
  | .rdcode sym w => Sys2Proof.Machine.execRdcode sym w s
  | .rdnode sel id => Sys2Proof.Machine.execRdnode sel id s
  | .wbits n value => Sys2Proof.Machine.execWbits n value s
  | .flush => Sys2Proof.Machine.execFlush s
  | .enc sym => Sys2Proof.Machine.execEnc sym s
  | .rbit => Sys2Proof.Machine.execRbit s
  | .rbits n => Sys2Proof.Machine.execRbits n s
  | .ualign => Sys2Proof.Machine.execUalign s
  | .dec => Sys2Proof.Machine.execDec s

end Sys2Proof.Machine
end

