-- ==== Sys2Proof/Machine/Step.lean ====
section
/-! DEFINITION. One step of the block (spec/10_state.md R20): the command at the head of port CMD is
executed to its outcome; with no command there, or with it held, an agent outside the block acts. -/

namespace Sys2Proof.Machine

/-- The outcome of a command word (R87, R181). -/
def runWord (c : CmdWord) (s : State) : Host.Outcome State Fault Refusal :=
  match judge c s with
  | .locked => .next (respondLocked s)
  | .rejected r => trap (rejectCause r) s
  | .execute i => exec i s

/-- One step (R20, R46, R112). -/
def step (s : State) : Host.Outcome State Fault Refusal :=
  match nextCommand s with
  | some c => runWord c s
  | none => .next (deliver s)

/-- `s` with the table's word at the head of port CMD, where `step` takes its next command, and not
held, so that the very next step runs it. -/
def State.withFetchWord (s : State) (nbits w : Nat) : State :=
  { s with cmdq := tableWord nbits w :: s.cmdq.tail, held := false }

end Sys2Proof.Machine
end

