-- ==== Sys2Proof/Safety.lean ====
section
/-! DEFINITION. The terms the statements use: what a command answers, what it leaves alone, the two
bit streams as lists of bits, and the invariant of the block. -/

namespace Sys2Proof.Machine

/-- `t` is `s` with the head command answered by one response word `{st, aux, 0, data}` (R47, R84);
what the agents do next is not touched. -/
def Answered (s t : State) (st aux : Byte) (data : Word) : Prop :=
  t.rsp = s.rsp ++ [responseWord st aux data] ∧ t.cmdq = s.cmdq.tail ∧ t.held = false ∧
    t.agenda = s.agenda

/-- The counter file is unchanged. -/
def SameCounters (s t : State) : Prop := t.cnt = s.cnt

/-- Tree state and code table are unchanged. -/
def SameTree (s t : State) : Prop :=
  t.treeValid = s.treeValid ∧ t.degen = s.degen ∧ t.root = s.root ∧ t.nint = s.nint ∧
    t.nodes = s.nodes ∧ t.code = s.code

/-- The packer and the sink log are unchanged. -/
def SamePacker (s t : State) : Prop := t.pacc = s.pacc ∧ t.pcnt = s.pcnt ∧ t.snk = s.snk

/-- The unpacker and the source are unchanged. -/
def SameUnpacker (s t : State) : Prop :=
  t.uacc = s.uacc ∧ t.urem = s.urem ∧ t.srcq = s.srcq ∧ t.srcEos = s.srcEos

/-- The fault record is unchanged. -/
def SameRecord (s t : State) : Prop := t.err = s.err ∧ t.errcmd = s.errcmd

/-- The fault record after `raise F` (R183, R184): written when none is recorded, else kept. -/
def Recorded (s t : State) (f : Cause) : Prop :=
  if s.err = 0#8 then t.err = causeCode f ∧ t.errcmd = s.headWord else SameRecord s t

/-- `t` is `s` after the command at the head faulted with `f`: the record and the response, and
nothing else (R182, R183). -/
def Faulted (s t : State) (f : Cause) : Prop :=
  Answered s t (causeCode f) 0#8 0#32 ∧ Recorded s t f ∧ SameCounters s t ∧ SameTree s t ∧
    SamePacker s t ∧ SameUnpacker s t

/-- `c` is the command word the next step executes (R46). -/
def AtHead (s : State) (c : CmdWord) : Prop := s.held = false ∧ s.cmdq.head? = some c

/-- No command can run: port CMD is empty or its head is held, so the next step is an agent's
(R20, R112). -/
def Waiting (s : State) : Prop := s.held = true ∨ s.cmdq = []

/-- Everything that belongs to the block is unchanged: R22's elements. -/
def SameBlock (s t : State) : Prop :=
  SameCounters s t ∧ SameTree s t ∧ SamePacker s t ∧ SameUnpacker s t ∧ SameRecord s t

/-- Commands executed one after another, each to its outcome (R72). -/
def runAll : List Instr → State → Option State
  | [], s => some s
  | i :: rest, s =>
    match exec i s with
    | .next t => runAll rest t
    | .fault _ => none
    | .refused _ => none

/-- The bits of a byte in stream order, bit 0 first (R63). -/
def byteBits (b : Byte) : List Bool := lowBits b 8

/-- The bits of a byte sequence in stream order (R63, R73). -/
def streamBits (q : List Byte) : List Bool := q.flatMap byteBits

/-- Every bit the packer has accepted: those in `SNK`, then the pending ones (R29, R32). -/
def packedBits (s : State) : List Bool := streamBits s.snk ++ lowBits s.pacc s.pcnt.toNat

/-- The bits a private copy can deliver, in order (R30, R110). -/
def BitSource.bits (u : BitSource) : List Bool := lowBits u.acc u.rem.toNat ++ streamBits u.queue

/-- The bits the unpacker can deliver, in order (R30, R31). -/
def unreadBits (s : State) : List Bool := s.bitSource.bits

/-- The code of a symbol as bits, the root's step first (R28). -/
def codeBits (s : State) (sym : Byte) : List Bool :=
  lowBits (readCode s.code sym).pat (readCode s.code sym).len.toNat

/-- Where a path from node `i` ends: 0 = left, 1 = right (R28). -/
def pathEnd (nodes : Table Node 255) : NodeId → List Bool → NodeId
  | i, [] => i
  | i, b :: bs => pathEnd nodes (childOf nodes i b) bs

/-- `PACC < 2^PCNT` (R29). -/
def PackerOk (s : State) : Prop := s.pacc.toNat < 2 ^ s.pcnt.toNat

/-- `UACC < 2^UREM` (R30). -/
def UnpackerOk (s : State) : Prop := s.uacc.toNat < 2 ^ s.urem.toNat

/-- R25, R27: with `TREE_VALID = 1` the tree state is what BUILD makes of the present counters (so
building again changes nothing); with `TREE_VALID = 0` it is cleared. -/
def TreeOk (s : State) : Prop :=
  if s.treeValid then
    leafSymbols s.cnt ≠ [] ∧ installTree (treeNodes s.cnt) s = s
  else s.root = Config.nil ∧ s.nint = 0#9 ∧ s.degen = false

/-- R40, R41: `ERR` holds 0 or one of the nine codes, and `ERRCMD` is 0 while `ERR` is. -/
def RecordOk (s : State) : Prop :=
  s.err.toNat ≤ 9 ∧ (s.err = 0#8 → s.errcmd = 0#64)

/-- Only a command can be held (R112). -/
def HeldOk (s : State) : Prop := s.held = true → s.cmdq ≠ []

/-- The invariant of the block. -/
structure Inv (s : State) : Prop where
  packer : PackerOk s
  unpacker : UnpackerOk s
  tree : TreeOk s
  record : RecordOk s
  held : HeldOk s

end Sys2Proof.Machine
end

