-- ==== Sys2Proof/Certificates/Slice0/Obligations.lean ====
section
/-! DEFINITION. The statements for the provers, from the numbered rules of spec/. -/

namespace Sys2Proof.Spec

/-- `OPC` of a word, as a number (R81). -/
def opc (c : CmdWord) : Nat := c.toNat / 2 ^ 56

/-- `A` of a word (R81). -/
def fieldA (c : CmdWord) : Nat := c.toNat / 2 ^ 48 % 2 ^ 8

/-- `B` of a word (R81). -/
def fieldB (c : CmdWord) : Nat := c.toNat / 2 ^ 40 % 2 ^ 8

/-- `RSV` of a word (R81). -/
def fieldRsv (c : CmdWord) : Nat := c.toNat / 2 ^ 32 % 2 ^ 8

/-- `DATA` of a word (R81). -/
def fieldData (c : CmdWord) : Nat := c.toNat % 2 ^ 32

/-- The opcode values that are no command (R88). -/
def illegalOpc (o : Nat) : Prop :=
  (0x03 ≤ o ∧ o ≤ 0x0F) ∨ (0x14 ≤ o ∧ o ≤ 0x1F) ∨ (0x24 ≤ o ∧ o ≤ 0x2F) ∨
    (0x33 ≤ o ∧ o ≤ 0x3F) ∨ (0x44 ≤ o ∧ o ≤ 0xFF)

/-- Must-be-zero fields and operand ranges of a word with a legal opcode (R82, R83, R89). -/
def operandsLegal (c : CmdWord) : Prop :=
  fieldRsv c = 0 ∧
    (if opc c = 0x02 then fieldA c ≤ 11 ∧ fieldB c = 0 ∧ fieldData c = 0
    else if opc c = 0x11 ∨ opc c = 0x13 ∨ opc c = 0x21 ∨ opc c = 0x32 then
      fieldB c = 0 ∧ fieldData c = 0
    else if opc c = 0x41 then fieldA c ≤ 32 ∧ fieldB c = 0 ∧ fieldData c = 0
    else if opc c = 0x22 then fieldB c ≤ 7 ∧ fieldData c = 0
    else if opc c = 0x12 then fieldB c = 0
    else if opc c = 0x30 then fieldA c ≤ 32 ∧ fieldB c = 0
    else if opc c = 0x23 then fieldA c ≤ 2 ∧ fieldB c = 0 ∧ fieldData c < 511
    else fieldA c = 0 ∧ fieldB c = 0 ∧ fieldData c = 0)

/-- NOP, SRST and RDREG words (R87 step 1). -/
def systemWord (c : CmdWord) : Prop := opc c ≤ 0x02

/-- The sum of all counters (R42). -/
def counterSum (s : Machine.State) : Nat :=
  ((List.range 256).map fun k => (Machine.readCount s.cnt (BitVec.ofNat 8 k)).toNat).sum

/-- The number of non-zero counters (R43). -/
def distinctCount (s : Machine.State) : Nat :=
  ((List.range 256).filter fun k => Machine.readCount s.cnt (BitVec.ofNat 8 k) != 0#32).length

/-- The weight of a node: of a leaf its counter, of an internal node the stored weight (R26). -/
def nodeWeight (s : Machine.State) (id : NodeId) : Nat :=
  if id.toNat < 256 then (Machine.readCount s.cnt (id.setWidth 8)).toNat
  else (Machine.nodeRecord s.nodes id).weight.toNat

/-- `Key(a) < Key(b)` (R133): weight first, then id. -/
def keyBelow (a b : Machine.Key) : Prop :=
  a.weight.toNat < b.weight.toNat ∨ (a.weight.toNat = b.weight.toNat ∧ a.id.toNat < b.id.toNat)

/-- The merge loop of R131 and R134, as the spec words it: while `ACT` has two or more elements, the
least `a` and then the least `b` are removed, node `256 + k` with weight `W[a] + W[b]`, left `a` and
right `b` is created and put into `ACT`. -/
inductive GreedyMerge : Nat → List Machine.Key → List Machine.Node → Prop where
  | done (k : Nat) (act : List Machine.Key) (h : act.length < 2) : GreedyMerge k act []
  | round (k : Nat) (act others : List Machine.Key) (a b new : Machine.Key)
      (rest : List Machine.Node) (hact : act.Perm (a :: b :: others))
      (ha : ∀ x ∈ b :: others, keyBelow a x) (hb : ∀ x ∈ others, keyBelow b x)
      (hw : new.weight.toNat = a.weight.toNat + b.weight.toNat) (hid : new.id.toNat = 256 + k)
      (hrest : GreedyMerge (k + 1) (new :: others) rest) :
      GreedyMerge k act (⟨new.weight, a.id, b.id⟩ :: rest)

/-- `STATUS` bit by bit (R39). -/
def statusBits (s : Machine.State) : List Bool :=
  [s.treeValid, decide (s.err ≠ 0#8), s.degen, decide (s.pcnt ≠ 0#3), decide (s.urem ≠ 0#3),
    decide (s.srcq = []), s.srcEos]

/-- The content of status register `idx` (R36), as a number. -/
def registerValue (s : Machine.State) (idx : Nat) : Nat :=
  match idx with
  | 0 => 0x48544231
  | 1 => ((statusBits s).mapIdx fun i b => b.toNat * 2 ^ i).sum
  | 2 => s.err.toNat
  | 3 => s.errcmd.toNat % 2 ^ 32
  | 4 => s.errcmd.toNat / 2 ^ 32
  | 5 => counterSum s % 2 ^ 32
  | 6 => counterSum s / 2 ^ 32
  | 7 => distinctCount s
  | 8 => s.root.toNat
  | 9 => s.nint.toNat
  | 10 => s.pacc.toNat + s.pcnt.toNat * 2 ^ 8
  | 11 => s.uacc.toNat + s.urem.toNat * 2 ^ 8
  | _ => 0

/-- The faults of a well-formed command beyond ILLEGAL_OPERAND (R187). -/
def faultsOf : Instr → List Machine.Cause
  | .fadd _ => [.tableFrozen, .countOverflow]
  | .ldcnt _ _ => [.tableFrozen]
  | .build => [.emptyTable]
  | .rdlen _ | .rdcode _ _ | .rdnode _ _ => [.noTree]
  | .enc _ => [.noTree, .symbolNotCoded]
  | .rbit | .rbits _ => [.truncated]
  | .dec => [.noTree, .badPath, .truncated]
  | .nop | .srst | .rdreg _ | .fclr | .rdcnt _ | .wbits _ _ | .flush | .ualign => []

/-- The commands that can hold (R11, R187). -/
def canHold : Instr → Prop
  | .rbit | .rbits _ | .dec => True
  | _ => False

/-- The commands that only read (R70). -/
def onlyReads : Instr → Prop
  | .rdreg _ | .rdcnt _ | .rdlen _ | .rdcode _ _ | .rdnode _ _ => True
  | _ => False

/-- A command of a packing run, and the bits it packs in the state `s` (R104). -/
def packs (s : Machine.State) : Instr → Option (List Bool)
  | .wbits n value =>
    if n.toNat ≤ 32 then some ((List.range n.toNat).map value.getLsbD) else none
  | .enc sym =>
    if s.treeValid ∧ (Machine.readCode s.code sym).len ≠ 0#8 then
      some (Machine.codeBits s sym)
    else none
  | _ => none

/-- The first `m` bits from node `i` stay on internal nodes for every `m` from 1 to below `n`. -/
def staysInternal (s : Machine.State) (bits : List Bool) (n : Nat) : Prop :=
  ∀ m, 1 ≤ m → m < n →
    256 ≤ (Machine.pathEnd s.nodes s.root (bits.take m)).toNat ∧
      Machine.pathEnd s.nodes s.root (bits.take m) ≠ 511#9

end Sys2Proof.Spec

open Sys2Proof Sys2Proof.Machine Sys2Proof.Spec

/-! ### Encoding and decode order -/

/-- R94: the worked examples, each word written out from R81, and a response word. -/
def Obligations.WorkedWordsDecode : Prop :=
  decode 0x1141000000000000#64 = .ok (.fadd 0x41#8) ∧
    decode 0x1252000000000002#64 = .ok (.ldcnt 0x52#8 2#32) ∧
    decode 0x3003000000000005#64 = .ok (.wbits 3#8 5#32) ∧
    decode 0x2242000000000000#64 = .ok (.rdcode 0x42#8 0#8) ∧
    decode 0x2301000000000103#64 = .ok (.rdnode 1#8 259#9) ∧
    decode 0x2000000000000000#64 = .ok .build ∧
    decode 0x4300000000000000#64 = .ok .dec ∧
    responseWord 0#8 3#8 0x42#32 = 0x0003000000000042#64

/-- Every well-formed command, with every operand at every legal value, is read back from its
command word. -/
def Obligations.EncodedCommandsDecodeBack : Prop :=
  ∀ i : Instr, i.wellFormed = true → decode (encode i) = .ok i

/-- Each word has one meaning: a word that decodes is the word its command encodes to. -/
def Obligations.DecodedWordsEncodeBack : Prop :=
  ∀ (c : CmdWord) (i : Instr), decode c = .ok i → i.wellFormed = true ∧ encode i = c

/-- R81, R83, R86: the opcode and the operands of a decoded command are the word's fields as they
stand. -/
def Obligations.OperandsAreTheFields : Prop :=
  ∀ (c : CmdWord) (i : Instr), decode c = .ok i →
    match i with
    | .nop => opc c = 0x00
    | .srst => opc c = 0x01
    | .rdreg idx => opc c = 0x02 ∧ idx.toNat = fieldA c
    | .fclr => opc c = 0x10
    | .fadd sym => opc c = 0x11 ∧ sym.toNat = fieldA c
    | .ldcnt sym count => opc c = 0x12 ∧ sym.toNat = fieldA c ∧ count.toNat = fieldData c
    | .rdcnt sym => opc c = 0x13 ∧ sym.toNat = fieldA c
    | .build => opc c = 0x20
    | .rdlen sym => opc c = 0x21 ∧ sym.toNat = fieldA c
    | .rdcode sym w => opc c = 0x22 ∧ sym.toNat = fieldA c ∧ w.toNat = fieldB c
    | .rdnode sel id => opc c = 0x23 ∧ sel.toNat = fieldA c ∧ id.toNat = fieldData c
    | .wbits n value => opc c = 0x30 ∧ n.toNat = fieldA c ∧ value.toNat = fieldData c
    | .flush => opc c = 0x31
    | .enc sym => opc c = 0x32 ∧ sym.toNat = fieldA c
    | .rbit => opc c = 0x40
    | .rbits n => opc c = 0x41 ∧ n.toNat = fieldA c
    | .ualign => opc c = 0x42
    | .dec => opc c = 0x43

/-- R88: the 18 other values are commands; an illegal opcode raises ILLEGAL_OPCODE whatever the
other fields hold. -/
def Obligations.IllegalOpcodeRaises : Prop :=
  (∀ c : CmdWord, decode c = .error .illegalOpcode ↔ illegalOpc (opc c)) ∧
    ∀ (s : State) (c : CmdWord), AtHead s c → s.err = 0#8 → illegalOpc (opc c) →
      ∃ t, step s = .next t ∧ Faulted s t .illegalOpcode ∧ t.err = 0x01#8 ∧ t.errcmd = c

/-- R89: a legal opcode with a non-zero reserved or unused field or an operand out of range raises
ILLEGAL_OPERAND, and nothing else does at decode; a system word does so while locked too (R87). -/
def Obligations.BadFieldsRaise : Prop :=
  (∀ c : CmdWord, ¬ illegalOpc (opc c) →
      ((decode c = .error .illegalOperand ↔ ¬ operandsLegal c) ∧
        ((∃ i, decode c = .ok i) ↔ operandsLegal c))) ∧
    ∀ (s : State) (c : CmdWord), AtHead s c → s.err = 0#8 ∨ systemWord c →
      ¬ illegalOpc (opc c) → ¬ operandsLegal c →
      ∃ t, step s = .next t ∧ Faulted s t .illegalOperand

/-! ### One step, the lock, faults -/

/-- R87 step 4: a step runs the command its word decodes to. -/
def Obligations.StepRunsDecodedCommand : Prop :=
  ∀ (s : State) (c : CmdWord) (i : Instr), AtHead s c → s.err = 0#8 ∨ systemWord c →
    decode c = .ok i → step s = exec i s

/-- R185: while a fault is recorded every word but NOP, SRST and RDREG words, legal or not, is
answered LOCKED and changes nothing; those three are executed. -/
def Obligations.LockTurnsCommandsAway : Prop :=
  ∀ (s : State) (c : CmdWord), AtHead s c → s.err ≠ 0#8 →
    (¬ systemWord c → ∃ t, step s = .next t ∧ Answered s t 0xFF#8 0#8 0#32 ∧ SameBlock s t) ∧
      (systemWord c → ∀ i, decode c = .ok i → step s = exec i s)

/-- R183, with the codes of R180: what `raise F` does. -/
def Obligations.RaiseRecordsAndResponds : Prop :=
  ∀ (s : State) (f : Cause), ∃ t, trap f s = .next t ∧
    Answered s t (causeCode f) 0#8 0#32 ∧
    (s.err = 0#8 → t.err = causeCode f ∧ t.errcmd = s.headWord) ∧
    (s.err ≠ 0#8 → SameRecord s t) ∧ SameCounters s t ∧ SameTree s t ∧ SamePacker s t ∧
    SameUnpacker s t ∧
    (causeCode f).toNat =
      match f with
      | .illegalOpcode => 1
      | .illegalOperand => 2
      | .countOverflow => 3
      | .tableFrozen => 4
      | .emptyTable => 5
      | .noTree => 6
      | .symbolNotCoded => 7
      | .badPath => 8
      | .truncated => 9

/-- R184, R175: while a fault is recorded, words other than system words are answered LOCKED; a
malformed system word is answered ILLEGAL_OPERAND; neither, nor NOP or RDREG, changes the record. -/
def Obligations.FirstFaultIsKept : Prop :=
  ∀ (s : State) (c : CmdWord), AtHead s c → s.err ≠ 0#8 →
    (¬ systemWord c →
        ∃ t, step s = .next t ∧ Answered s t 0xFF#8 0#8 0#32 ∧ SameRecord s t) ∧
      (systemWord c → ¬ operandsLegal c →
        ∃ t, step s = .next t ∧ Answered s t 0x02#8 0#8 0#32 ∧ SameBlock s t) ∧
      (systemWord c → operandsLegal c → opc c ≠ 0x01 →
        ∃ t aux data, step s = .next t ∧ Answered s t 0x00#8 aux data ∧ SameBlock s t)

/-- R181, R182: a command word at the head has one of four outcomes: it completes, it faults and
writes nothing but the record, it is turned away by the lock, or it holds and nothing changes. -/
def Obligations.EveryCommandHasAnOutcome : Prop :=
  ∀ (s : State) (c : CmdWord), AtHead s c →
    ∃ t, step s = .next t ∧
      ((∃ aux data, Answered s t 0#8 aux data) ∨ (∃ f, Faulted s t f) ∨
        (s.err ≠ 0#8 ∧ ¬ systemWord c ∧ Answered s t 0xFF#8 0#8 0#32 ∧ SameBlock s t) ∨
        ((opc c = 0x40 ∨ opc c = 0x41 ∨ opc c = 0x43) ∧ s.srcEos = false ∧
          t = { s with held := true }))

/-- No step of the block stops the machine, from any state (R181, R228). -/
def Obligations.EveryStepGoesOn : Prop := ∀ s : State, ∃ t, step s = .next t

/-- R187: which faults a well-formed command can raise, and which commands can hold. -/
def Obligations.FaultsOfEachCommand : Prop :=
  ∀ (i : Instr) (s t : State), i.wellFormed = true → exec i s = .next t →
    (∀ f, Answered s t (causeCode f) 0#8 0#32 → f ∈ faultsOf i) ∧
      (t.held = true → canHold i ∧ s.srcEos = false ∧ t = { s with held := true })

/-- R70: reads of the indexed spaces change nothing but the fault record of a read that faults.
(For terms with an operand out of range the fault is the model's choice, log entry 11.) -/
def Obligations.ReadsChangeNothing : Prop :=
  ∀ (i : Instr) (s : State), onlyReads i →
    ∃ t, exec i s = .next t ∧ SameCounters s t ∧ SameTree s t ∧ SamePacker s t ∧
      SameUnpacker s t ∧
      ((∃ data aux, Answered s t 0#8 aux data ∧ SameRecord s t) ∨ ∃ f, Faulted s t f)

/-- R188: a recorded fault ends only by SRST or hardware reset. -/
def Obligations.FaultEndsOnlyByReset : Prop :=
  ∀ s t : State, s.err ≠ 0#8 → step s = .next t → t.err ≠ s.err →
    (∃ c, AtHead s c ∧ decode c = .ok .srst) ∨ (Waiting s ∧ s.agenda.head? = some .hwReset)

/-! ### System commands -/

/-- R172: NOP answers OK and changes nothing. -/
def Obligations.NopOnlyAnswers : Prop :=
  ∀ s : State, ∃ t, exec .nop s = .next t ∧ Answered s t 0#8 0#8 0#32 ∧ SameBlock s t

/-- R173: every element but `SNK` takes its reset value; the tree becomes unreadable, its cells as
they were (R212; log entry 6). -/
def Obligations.SoftResetClearsAllButSink : Prop :=
  ∀ s : State, ∃ t, exec .srst s = .next t ∧ Answered s t 0#8 0#8 0#32 ∧
    (∀ sym, readCount t.cnt sym = 0#32) ∧ t.treeValid = false ∧ t.degen = false ∧
    t.root = 511#9 ∧ t.nint = 0#9 ∧ t.pacc = 0#8 ∧ t.pcnt = 0#3 ∧ t.uacc = 0#8 ∧ t.urem = 0#3 ∧
    t.srcq = [] ∧ t.srcEos = false ∧ t.err = 0#8 ∧ t.errcmd = 0#64 ∧ t.snk = s.snk ∧
    t.nodes = s.nodes ∧ t.code = s.code

/-- R174, with R36 and R38 to R44: each of the twelve registers, and nothing changed; the sum of the
counters fits 40 bits.  That `exec` raises ILLEGAL_OPERAND on a term with an index above 11, which
no word decodes to, is the model's choice (log entry 11). -/
def Obligations.StatusRegistersRead : Prop :=
  ∀ (s : State) (idx : Byte),
    (idx.toNat ≤ 11 → ∃ t data, exec (.rdreg idx) s = .next t ∧ Answered s t 0#8 0#8 data ∧
      data.toNat = registerValue s idx.toNat ∧ SameBlock s t) ∧
    (11 < idx.toNat → ∃ t, exec (.rdreg idx) s = .next t ∧ Faulted s t .illegalOperand) ∧
    counterSum s < 2 ^ 40

/-! ### Frequency table -/

/-- R120; the cells of the dropped tree stay as they were (R212; log entry 6). -/
def Obligations.ClearTableDropsTree : Prop :=
  ∀ s : State, ∃ t, exec .fclr s = .next t ∧ Answered s t 0#8 0#8 0#32 ∧
    (∀ sym, readCount t.cnt sym = 0#32) ∧ t.treeValid = false ∧ t.degen = false ∧
    t.root = 511#9 ∧ t.nint = 0#9 ∧ t.nodes = s.nodes ∧ t.code = s.code ∧ SamePacker s t ∧
    SameUnpacker s t ∧ SameRecord s t

/-- R122, R123: one more, the others kept; the freeze is tested first, then the overflow. -/
def Obligations.CountOneOccurrence : Prop :=
  ∀ (s : State) (sym : Byte),
    (s.treeValid = false → readCount s.cnt sym ≠ 0xFFFFFFFF#32 →
      ∃ t, exec (.fadd sym) s = .next t ∧ Answered s t 0#8 0#8 0#32 ∧
        (readCount t.cnt sym).toNat = (readCount s.cnt sym).toNat + 1 ∧
        (∀ x, x ≠ sym → readCount t.cnt x = readCount s.cnt x) ∧
        counterSum t = counterSum s + 1 ∧
        distinctCount t = distinctCount s + (if readCount s.cnt sym = 0#32 then 1 else 0) ∧
        SameTree s t ∧ SamePacker s t ∧ SameUnpacker s t ∧ SameRecord s t) ∧
    (s.treeValid = true → ∃ t, exec (.fadd sym) s = .next t ∧ Faulted s t .tableFrozen) ∧
    (s.treeValid = false → readCount s.cnt sym = 0xFFFFFFFF#32 →
      ∃ t, exec (.fadd sym) s = .next t ∧ Faulted s t .countOverflow)

/-- R124: the counter takes the value as it stands; R121: not while a tree is valid. -/
def Obligations.LoadOneCounter : Prop :=
  ∀ (s : State) (sym : Byte) (count : Word),
    (s.treeValid = false → ∃ t, exec (.ldcnt sym count) s = .next t ∧
      Answered s t 0#8 0#8 0#32 ∧ readCount t.cnt sym = count ∧
      (∀ x, x ≠ sym → readCount t.cnt x = readCount s.cnt x) ∧ SameTree s t ∧ SamePacker s t ∧
      SameUnpacker s t ∧ SameRecord s t) ∧
    (s.treeValid = true → ∃ t, exec (.ldcnt sym count) s = .next t ∧ Faulted s t .tableFrozen)

/-- R121: while a tree is valid, FADD and LDCNT raise TABLE_FROZEN and change nothing. -/
def Obligations.FrozenTableRefusesWrites : Prop :=
  ∀ (s : State) (sym : Byte) (count : Word), s.treeValid = true →
    (∃ t, exec (.fadd sym) s = .next t ∧ Faulted s t .tableFrozen) ∧
      ∃ t, exec (.ldcnt sym count) s = .next t ∧ Faulted s t .tableFrozen

/-- R125: the counter, whether or not a tree is valid; nothing changes. -/
def Obligations.ReadOneCounter : Prop :=
  ∀ (s : State) (sym : Byte), ∃ t, exec (.rdcnt sym) s = .next t ∧
    Answered s t 0#8 0#8 (readCount s.cnt sym) ∧ SameBlock s t

/-- R24, R25: while a tree is valid no step changes a counter, but FCLR, SRST and hardware reset,
which drop the tree. -/
def Obligations.ValidTreeFreezesCounters : Prop :=
  ∀ s t : State, s.treeValid = true → step s = .next t →
    t.cnt = s.cnt ∨
      (t.treeValid = false ∧
        ((∃ c, AtHead s c ∧ (decode c = .ok .fclr ∨ decode c = .ok .srst)) ∨
          (Waiting s ∧ s.agenda.head? = some .hwReset)))

/-! ### Tree builder -/

/-- R131, R134, R136: BUILD completes on every table that is not empty; how many nodes it makes,
which is the root, what it answers, and what it leaves alone. -/
def Obligations.BuildCompletes : Prop :=
  ∀ s : State, (∃ sym, readCount s.cnt sym ≠ 0#32) →
    ∃ t, exec .build s = .next t ∧ Answered s t 0#8 (t.nint.setWidth 8) (t.root.setWidth 32) ∧
      t.treeValid = true ∧ 1 ≤ t.nint.toNat ∧ t.nint.toNat ≤ 255 ∧
      t.nint.toNat = (if distinctCount s = 1 then 1 else distinctCount s - 1) ∧
      t.root.toNat = 255 + t.nint.toNat ∧ t.degen = decide (distinctCount s = 1) ∧
      (∀ id : NodeId, 256 + t.nint.toNat ≤ id.toNat →
        nodeRecord t.nodes id = nodeRecord s.nodes id) ∧
      SameCounters s t ∧ SamePacker s t ∧ SameUnpacker s t ∧ SameRecord s t

/-- R137: nothing is written; in a state that meets the invariant `TREE_VALID` is 0 and stays 0. -/
def Obligations.BuildOnEmptyTableFaults : Prop :=
  ∀ s : State, (∀ sym, readCount s.cnt sym = 0#32) →
    ∃ t, exec .build s = .next t ∧ Faulted s t .emptyTable ∧ (Inv s → t.treeValid = false)

/-- R133: keys are compared weight first and then id, a strict total order on keys with distinct
ids; of two or more nodes the least key and then the least of the rest are taken. -/
def Obligations.LeastKeysAreTaken : Prop :=
  (∀ a b : Key, keyLt a b = true ↔ keyBelow a b) ∧
    (∀ a b : Key, keyLt a b = true → keyLt b a = false) ∧
    (∀ a b c : Key, keyLt a b = true → keyLt b c = true → keyLt a c = true) ∧
    (∀ a b : Key, a.id ≠ b.id → keyLt a b = true ∨ keyLt b a = true) ∧
    ∀ act : List Key, (act.map Key.id).Nodup → 2 ≤ act.length →
      ∃ a b others, takeTwo act = some (a, b, others) ∧ act.Perm (a :: b :: others) ∧
        (∀ x ∈ b :: others, keyBelow a x) ∧ ∀ x ∈ others, keyBelow b x

/-- R131, R132, R134, R135, R138: on two or more distinct symbols, the node memory BUILD leaves at
ids 256 to 255 + NINT is what the spec's merge loop creates from the leaves. -/
def Obligations.BuildIsTheGreedyMerge : Prop :=
  ∀ s t : State, 2 ≤ distinctCount s → exec .build s = .next t →
    ∃ act : List Key, act.Nodup ∧
      (∀ x : Key, x ∈ act ↔ ∃ sym : Byte, readCount s.cnt sym ≠ 0#32 ∧
        x.id.toNat = sym.toNat ∧ x.weight.toNat = (readCount s.cnt sym).toNat) ∧
      GreedyMerge 0 act
        ((List.range t.nint.toNat).map fun k => nodeRecord t.nodes (BitVec.ofNat 9 (256 + k)))

/-- R136: exactly one distinct symbol. -/
def Obligations.OneSymbolTree : Prop :=
  ∀ (s : State) (sym : Byte), readCount s.cnt sym ≠ 0#32 →
    (∀ x, x ≠ sym → readCount s.cnt x = 0#32) →
    ∃ t, exec .build s = .next t ∧ Answered s t 0#8 1#8 256#32 ∧ t.root = 256#9 ∧ t.nint = 1#9 ∧
      t.degen = true ∧
      nodeRecord t.nodes 256#9 = ⟨(readCount s.cnt sym).setWidth 40, sym.setWidth 9, 511#9⟩ ∧
      readCode t.code sym = ⟨1#8, 0#256⟩ ∧
      ∀ x, x ≠ sym → readCode t.code x = ⟨0#8, 0#256⟩

/-- R142, which the spec derives from R131 to R138: the structure of every valid tree. -/
def Obligations.ValidTreeStructure : Prop :=
  ∀ s : State, Inv s → s.treeValid = true →
    (1 ≤ distinctCount s ∧ distinctCount s ≤ 256 ∧
      s.nint.toNat = (if distinctCount s = 1 then 1 else distinctCount s - 1)) ∧
    s.root.toNat = 255 + s.nint.toNat ∧
    (∀ id : NodeId, 256 ≤ id.toNat → id.toNat < 256 + s.nint.toNat →
      (nodeRecord s.nodes id).left.toNat < id.toNat ∧
        ((nodeRecord s.nodes id).right.toNat < id.toNat ∨
          (s.degen = true ∧ id = 256#9 ∧ (nodeRecord s.nodes id).right = 511#9))) ∧
    (s.degen = true → (nodeRecord s.nodes 256#9).right = 511#9) ∧
    (∀ sym : Byte, readCount s.cnt sym ≠ 0#32 →
      (∃! path, pathEnd s.nodes s.root path = sym.setWidth 9) ∧
        1 ≤ (readCode s.code sym).len.toNat ∧
        (readCode s.code sym).len.toNat ≤ s.nint.toNat) ∧
    nodeWeight s s.root = counterSum s

/-- R138, whose bound the spec derives from R42: the weight of every live internal node is the
exact sum of its children's, in the degenerate tree its one child's counter; the root's is
`TOTAL`. -/
def Obligations.WeightsAreExactSums : Prop :=
  ∀ s : State, Inv s → s.treeValid = true →
    (∀ id : NodeId, 256 ≤ id.toNat → id.toNat < 256 + s.nint.toNat →
      (nodeWeight s id =
        if s.degen then nodeWeight s (nodeRecord s.nodes id).left
        else nodeWeight s (nodeRecord s.nodes id).left +
          nodeWeight s (nodeRecord s.nodes id).right) ∧
      nodeWeight s id ≤ counterSum s) ∧
    nodeWeight s s.root = counterSum s ∧ counterSum s < 2 ^ 40

/-- R139, which the spec derives from R131 to R136: the whole result of BUILD is a function of the
counters. -/
def Obligations.BuildDependsOnCountersOnly : Prop :=
  ∀ s s' t t' : State, s.cnt = s'.cnt → (∃ sym, readCount s.cnt sym ≠ 0#32) →
    exec .build s = .next t → exec .build s' = .next t' →
    t.root = t'.root ∧ t.nint = t'.nint ∧ t.degen = t'.degen ∧ t.code = t'.code ∧
      ∀ id : NodeId, 256 ≤ id.toNat → id.toNat < 256 + t.nint.toNat →
        nodeRecord t.nodes id = nodeRecord t'.nodes id

/-- R131: BUILD while a tree is valid rebuilds the same tree. -/
def Obligations.RebuildGivesTheSameTree : Prop :=
  ∀ s : State, Inv s → s.treeValid = true →
    ∃ t, exec .build s = .next t ∧
      Answered s t 0#8 (s.nint.setWidth 8) (s.root.setWidth 32) ∧ SameBlock s t

/-- R141: the three views of every node id. -/
def Obligations.NodeViewsRead : Prop :=
  ∀ (s : State) (sel : Byte) (id : NodeId), sel.toNat ≤ 2 → id ≠ 511#9 →
    (s.treeValid = false →
      ∃ t, exec (.rdnode sel id) s = .next t ∧ Faulted s t .noTree) ∧
    (s.treeValid = true →
      ∃ t data, exec (.rdnode sel id) s = .next t ∧ Answered s t 0#8 0#8 data ∧ SameBlock s t ∧
        let isLeaf := id.toNat < 256
        let live := (isLeaf ∧ readCount s.cnt (id.setWidth 8) ≠ 0#32) ∨
          (256 ≤ id.toNat ∧ id.toNat < 256 + s.nint.toNat)
        let inner := 256 ≤ id.toNat ∧ id.toNat < 256 + s.nint.toNat
        let l := if inner then (nodeRecord s.nodes id).left.toNat else 511
        let r := if inner then (nodeRecord s.nodes id).right.toNat else 511
        let w := if isLeaf then (readCount s.cnt (id.setWidth 8)).toNat
          else if inner then (nodeRecord s.nodes id).weight.toNat else 0
        (sel = 0#8 → data.toNat =
          (if live then 2 ^ 19 else 0) + (if isLeaf then 2 ^ 18 else 0) + r * 2 ^ 9 + l) ∧
        (sel = 1#8 → data.toNat = w % 2 ^ 32) ∧ (sel = 2#8 → data.toNat = w / 2 ^ 32))

/-! ### Code table -/

/-- R154: the code length, 0 where there is no code; NO_TREE without a tree. -/
def Obligations.CodeLengthRead : Prop :=
  ∀ (s : State) (sym : Byte),
    (s.treeValid = true → ∃ t, exec (.rdlen sym) s = .next t ∧
      Answered s t 0#8 0#8 ((readCode s.code sym).len.setWidth 32) ∧ SameBlock s t) ∧
    (s.treeValid = false → ∃ t, exec (.rdlen sym) s = .next t ∧ Faulted s t .noTree)

/-- R155: the length in AUX and pattern bits `32w+31` to `32w` in DATA. -/
def Obligations.CodePatternRead : Prop :=
  ∀ (s : State) (sym w : Byte), w.toNat ≤ 7 →
    (s.treeValid = true → ∃ t data, exec (.rdcode sym w) s = .next t ∧
      Answered s t 0#8 (readCode s.code sym).len data ∧
      data.toNat = (readCode s.code sym).pat.toNat / 2 ^ (32 * w.toNat) % 2 ^ 32 ∧
      SameBlock s t) ∧
    (s.treeValid = false → ∃ t, exec (.rdcode sym w) s = .next t ∧ Faulted s t .noTree)

/-- R28, R151: the pattern of a coded symbol is its path from the root, the root's step in bit 0,
and the bits above its length are 0; a symbol whose counter is 0 has no code. -/
def Obligations.PatternsAreTreePaths : Prop :=
  ∀ s : State, Inv s → s.treeValid = true → ∀ sym : Byte,
    (readCount s.cnt sym ≠ 0#32 →
      pathEnd s.nodes s.root
        ((List.range (readCode s.code sym).len.toNat).map (readCode s.code sym).pat.getLsbD) =
        sym.setWidth 9) ∧
    (∀ i, (readCode s.code sym).len.toNat ≤ i → (readCode s.code sym).pat.getLsbD i = false) ∧
    (readCount s.cnt sym = 0#32 ↔ (readCode s.code sym).len = 0#8)

/-- R152, which the spec derives from R150 and R142: prefix-freedom; completeness; absent symbols;
the table is a function of the counters. -/
def Obligations.CodesArePrefixFree : Prop :=
  ∀ s : State, Inv s → s.treeValid = true →
    (∀ x y : Byte, x ≠ y → readCount s.cnt x ≠ 0#32 → readCount s.cnt y ≠ 0#32 →
      ¬ codeBits s x <+: codeBits s y) ∧
    (∀ f : Nat → Bool, s.degen = false →
      ∃! x : Byte, readCount s.cnt x ≠ 0#32 ∧
        codeBits s x = (List.range (readCode s.code x).len.toNat).map f) ∧
    (∀ f : Nat → Bool, s.degen = true →
      ((∃ x : Byte, readCount s.cnt x ≠ 0#32 ∧
        codeBits s x = (List.range (readCode s.code x).len.toNat).map f) ↔ f 0 = false)) ∧
    (∀ x : Byte, (readCode s.code x).len = 0#8 ↔ readCount s.cnt x = 0#32) ∧
    ∀ s' : State, Inv s' → s'.treeValid = true → s'.cnt = s.cnt → s'.code = s.code

/-- R156: no step but a BUILD writes the code table (that resets and FCLR leave its unreadable
cells: log entry 6). -/
def Obligations.OnlyBuildWritesCodes : Prop :=
  ∀ s t : State, step s = .next t → t.code ≠ s.code →
    ∃ c, AtHead s c ∧ decode c = .ok .build ∧ t.treeValid = true

/-! ### Bit packer -/

/-- R102, R64: the low `n` bits, bit 0 first, follow the bits accepted before; how many bytes are
emitted and how many bits stay pending. -/
def Obligations.WriteBitsAppends : Prop :=
  ∀ (s : State) (n : Byte) (value : Word), n.toNat ≤ 32 → PackerOk s →
    ∃ t, exec (.wbits n value) s = .next t ∧ Answered s t 0#8 0#8 0#32 ∧
      packedBits t = packedBits s ++ (List.range n.toNat).map value.getLsbD ∧
      t.snk.length = s.snk.length + (s.pcnt.toNat + n.toNat) / 8 ∧ s.snk <+: t.snk ∧
      t.pcnt.toNat = (s.pcnt.toNat + n.toNat) % 8 ∧ PackerOk t ∧ SameCounters s t ∧
      SameTree s t ∧ SameUnpacker s t ∧ SameRecord s t

/-- R103: zero bits up to the byte boundary; nothing when already on one. -/
def Obligations.FlushPadsWithZeros : Prop :=
  ∀ s : State, PackerOk s →
    ∃ t aux, exec .flush s = .next t ∧ Answered s t 0#8 aux 0#32 ∧
      aux.toNat = (8 - s.pcnt.toNat) % 8 ∧
      streamBits t.snk = packedBits s ++ List.replicate aux.toNat false ∧
      t.snk = (if s.pcnt = 0#3 then s.snk else s.snk ++ [s.pacc]) ∧
      (s.pcnt ≠ 0#3 → t.pacc = 0#8) ∧ (s.pcnt = 0#3 → t.pacc = s.pacc) ∧ t.pcnt = 0#3 ∧
      SameCounters s t ∧ SameTree s t ∧ SameUnpacker s t ∧ SameRecord s t

/-- R104, which the spec derives from R100, R102 and R103: a run of WBITS and ENC from a byte
boundary and one FLUSH append exactly the bits of the run, zero-padded to the next byte
boundary. -/
def Obligations.PackingRunFillsBytes : Prop :=
  ∀ (s : State) (run : List Instr), PackerOk s → s.pcnt = 0#3 →
    (∀ i ∈ run, (packs s i).isSome = true) →
    ∃ t bytes, runAll (run ++ [.flush]) s = some t ∧ t.snk = s.snk ++ bytes ∧
      let bits := run.flatMap fun i => (packs s i).getD []
      bytes.length = (bits.length + 7) / 8 ∧
        streamBits bytes = bits ++ List.replicate (8 * bytes.length - bits.length) false ∧
        t.pacc = 0#8 ∧ t.pcnt = 0#3

/-- R32: `SNK` only grows but for hardware reset, and only WBITS, FLUSH and ENC add to it. -/
def Obligations.SinkOnlyGrows : Prop :=
  ∀ s t : State, step s = .next t →
    (s.snk <+: t.snk ∨ (Waiting s ∧ s.agenda.head? = some .hwReset)) ∧
      (t.snk ≠ s.snk → (Waiting s ∧ s.agenda.head? = some .hwReset) ∨
        ∃ c, AtHead s c ∧ (opc c = 0x30 ∨ opc c = 0x31 ∨ opc c = 0x32))

/-! ### Bit unpacker -/

/-- R114: with `n` bits available, the first bit read lands in bit 0, exactly `n` bits are consumed,
and whole bytes are pulled only as needed. -/
def Obligations.ReadBitsInOrder : Prop :=
  ∀ (s : State) (n : Byte), n.toNat ≤ 32 → n.toNat ≤ s.urem.toNat + 8 * s.srcq.length →
    ∃ t data, exec (.rbits n) s = .next t ∧ Answered s t 0#8 0#8 data ∧
      (∀ i, data.getLsbD i = (decide (i < n.toNat) && (unreadBits s).getD i false)) ∧
      unreadBits t = (unreadBits s).drop n.toNat ∧
      t.srcq = s.srcq.drop ((n.toNat - s.urem.toNat + 7) / 8) ∧
      t.urem.toNat = (s.urem.toNat + 8 * 32 - n.toNat) % 8 ∧ t.srcEos = s.srcEos ∧
      (UnpackerOk s → UnpackerOk t) ∧ SameCounters s t ∧ SameTree s t ∧ SamePacker s t ∧
      SameRecord s t

/-- R113: RBIT is exactly RBITS 1. -/
def Obligations.ReadBitIsReadBitsOne : Prop :=
  ∀ s : State, exec .rbit s = exec (.rbits 1#8) s ∧
    ∀ b rest, unreadBits s = b :: rest →
      ∃ t data, exec .rbit s = .next t ∧ Answered s t 0#8 0#8 data ∧ data.toNat = b.toNat ∧
        unreadBits t = rest ∧ t.srcEos = s.srcEos ∧ SameCounters s t ∧ SameTree s t ∧
        SamePacker s t ∧ SameRecord s t

/-- R112, R111: a reading command that runs out of bits faults with TRUNCATED once the source has
ended and holds before that; either way it consumes nothing. -/
def Obligations.UnderrunHoldsOrFaults : Prop :=
  ∀ (i : Instr) (s : State),
    ((i = .rbit ∧ unreadBits s = []) ∨
      (∃ n : Byte, i = .rbits n ∧ n.toNat ≤ 32 ∧ (unreadBits s).length < n.toNat) ∨
      (i = .dec ∧ s.treeValid = true ∧
        staysInternal s (unreadBits s) ((unreadBits s).length + 1))) →
    (s.srcEos = true → ∃ t, exec i s = .next t ∧ Faulted s t .truncated) ∧
      (s.srcEos = false → exec i s = .next { s with held := true })

/-- R115: the rest of the current byte is answered and discarded; whole bytes are not touched. -/
def Obligations.AlignDiscardsPartialByte : Prop :=
  ∀ s : State, ∃ t, exec .ualign s = .next t ∧
    Answered s t 0#8 (s.urem.setWidth 8) (s.uacc.setWidth 32) ∧ t.uacc = 0#8 ∧ t.urem = 0#3 ∧
    t.srcq = s.srcq ∧ t.srcEos = s.srcEos ∧ SameCounters s t ∧ SameTree s t ∧ SamePacker s t ∧
    SameRecord s t

/-- R116: values packed and flushed are read back, and UALIGN then discards exactly the pad bits. -/
def Obligations.UnpackerMirrorsPacker : Prop :=
  ∀ (e d : State) (vals : List (Byte × Word)), (∀ p ∈ vals, p.1.toNat ≤ 32) → PackerOk e →
    e.pcnt = 0#3 → UnpackerOk d → d.urem = 0#3 →
    ∃ e' bytes, runAll ((vals.map fun p => .wbits p.1 p.2) ++ [.flush]) e = some e' ∧
      e'.snk = e.snk ++ bytes ∧
      (d.srcq = bytes → ∃ d' d'' : State,
        runAll (vals.map fun p => .rbits p.1) d = some d' ∧
        d'.rsp = d.rsp ++ (vals.map fun p =>
          responseWord 0#8 0#8 (BitVec.ofNat 32 (p.2.toNat % 2 ^ p.1.toNat))) ∧
        d'.srcq = [] ∧
        let bits := (vals.map fun p => p.1.toNat).sum
        bytes.length = (bits + 7) / 8 ∧ d'.urem.toNat = (8 - bits % 8) % 8 ∧
        exec .ualign d' = .next d'' ∧
        Answered d' d'' 0#8 (BitVec.ofNat 8 ((8 - bits % 8) % 8)) 0#32 ∧ d''.urem = 0#3 ∧
        d''.srcq = [])

/-! ### Codec datapath -/

/-- R161, R162: the bits of the code, the root's step first; no tree, then no code, are faults. -/
def Obligations.EncodePacksTheCode : Prop :=
  ∀ (s : State) (sym : Byte),
    (s.treeValid = true → (readCode s.code sym).len ≠ 0#8 → PackerOk s →
      ∃ t, exec (.enc sym) s = .next t ∧ Answered s t 0#8 (readCode s.code sym).len 0#32 ∧
        packedBits t = packedBits s ++
          (List.range (readCode s.code sym).len.toNat).map (readCode s.code sym).pat.getLsbD ∧
        t.snk.length =
          s.snk.length + (s.pcnt.toNat + (readCode s.code sym).len.toNat) / 8 ∧
        s.snk <+: t.snk ∧ PackerOk t ∧ SameCounters s t ∧ SameTree s t ∧ SameUnpacker s t ∧
        SameRecord s t) ∧
    (s.treeValid = false → ∃ t, exec (.enc sym) s = .next t ∧ Faulted s t .noTree) ∧
    (s.treeValid = true → (readCode s.code sym).len = 0#8 →
      ∃ t, exec (.enc sym) s = .next t ∧ Faulted s t .symbolNotCoded)

/-- R164, R165: the walk starts at the root and ends at the first leaf or the first `NIL` the
incoming bits lead to.  (In states no run reaches a walk may be longer than 255 steps; AUX is then
taken modulo 256, log entry 10.) -/
def Obligations.DecodeWalksToFirstLeaf : Prop :=
  ∀ s : State,
    (s.treeValid = false → ∃ t, exec .dec s = .next t ∧ Faulted s t .noTree) ∧
    (s.treeValid = true → ∀ n, 1 ≤ n → n ≤ (unreadBits s).length →
      staysInternal s (unreadBits s) n →
      (∀ sym : Byte, pathEnd s.nodes s.root ((unreadBits s).take n) = sym.setWidth 9 →
        ∃ t, exec .dec s = .next t ∧ Answered s t 0#8 (BitVec.ofNat 8 n) (sym.setWidth 32) ∧
          unreadBits t = (unreadBits s).drop n ∧ t.srcEos = s.srcEos ∧
          (UnpackerOk s → UnpackerOk t) ∧ SameCounters s t ∧ SameTree s t ∧ SamePacker s t ∧
          SameRecord s t) ∧
      (pathEnd s.nodes s.root ((unreadBits s).take n) = 511#9 →
        ∃ t, exec .dec s = .next t ∧ Faulted s t .badPath))

/-- R164: with a valid tree, bits that begin with the code of a symbol decode to that symbol, the
bits consumed are its pattern and their number its length. -/
def Obligations.DecodeReturnsCodedSymbol : Prop :=
  ∀ (s : State) (sym : Byte) (rest : List Bool), Inv s → s.treeValid = true →
    readCount s.cnt sym ≠ 0#32 → unreadBits s = codeBits s sym ++ rest →
    ∃ t, exec .dec s = .next t ∧
      Answered s t 0#8 (readCode s.code sym).len (sym.setWidth 32) ∧ unreadBits t = rest ∧
      SameCounters s t ∧ SameTree s t ∧ SamePacker s t ∧ SameRecord s t

/-- R165: with a valid tree, BAD_PATH arises only in a degenerate tree on a 1 bit at the root. -/
def Obligations.BadPathOnlyInOneSymbolTree : Prop :=
  ∀ s t : State, Inv s → s.treeValid = true → exec .dec s = .next t →
    (Faulted s t .badPath ↔ s.degen = true ∧ (unreadBits s).head? = some true)

/-- R166: any symbols with a code, encoded and flushed from a byte boundary, are decoded again, in
order, by a block with the same counters and a valid tree; then UALIGN leaves it at the end. -/
def Obligations.SegmentRoundTrip : Prop :=
  ∀ (e d : State) (xs : List Byte), Inv e → e.treeValid = true → e.pcnt = 0#3 →
    (∀ x ∈ xs, readCount e.cnt x ≠ 0#32) → Inv d → d.treeValid = true → d.cnt = e.cnt →
    d.urem = 0#3 →
    ∃ e' bytes, runAll (xs.map .enc ++ [.flush]) e = some e' ∧ e'.snk = e.snk ++ bytes ∧
      (d.srcq = bytes → ∃ (d' : State) (pad : Byte),
        runAll (List.replicate xs.length .dec ++ [.ualign]) d = some d' ∧
        d'.rsp = d.rsp ++
          (xs.map fun x => responseWord 0#8 (readCode d.code x).len (x.setWidth 32)) ++
          [responseWord 0#8 pad 0#32] ∧
        d'.urem = 0#3 ∧ d'.srcq = [] ∧ SameRecord d d')

/-! ### Agents at the ports, reset, the invariant -/

/-- R112, R46: a held command is answered by nothing, and no later word passes it, until the source
acts; then it is the next to be executed, from the start. -/
def Obligations.HeldCommandWaitsForSource : Prop :=
  ∀ (s : State) (c : CmdWord), s.held = true → s.cmdq.head? = some c →
    (∀ e rest, s.agenda = e :: rest → (s.srcEos = false ∧ ∃ b, e = .srcPush b) ∨ e = .srcEnd →
      ∃ t, step s = .next t ∧ AtHead t c ∧ t.cmdq = s.cmdq ∧ t.rsp = s.rsp) ∧
    (∀ c' rest, s.agenda = .issue c' :: rest →
      ∃ t, step s = .next t ∧ t.held = true ∧ t.cmdq.head? = some c ∧ t.rsp = s.rsp ∧
        SameBlock s t) ∧
    (s.agenda = [] → step s = .next s)

/-- R48, R112: `SrcPush` and `SrcEnd` change only `SRCQ` and `SRC_EOS`; a byte offered after the end
is not taken (log entry 2); a held command is looked at again. -/
def Obligations.SourceActsOnQueueOnly : Prop :=
  ∀ (s : State) (rest : List PortEvent), Waiting s →
    (∀ b, s.agenda = .srcPush b :: rest →
      ∃ t, step s = .next t ∧ t.agenda = rest ∧ t.cmdq = s.cmdq ∧ t.rsp = s.rsp ∧
        SameCounters s t ∧ SameTree s t ∧ SamePacker s t ∧ SameRecord s t ∧ t.uacc = s.uacc ∧
        t.urem = s.urem ∧ t.srcEos = s.srcEos ∧
        (s.srcEos = false → t.srcq = s.srcq ++ [b] ∧ t.held = false) ∧
        (s.srcEos = true → t.srcq = s.srcq)) ∧
    (s.agenda = .srcEnd :: rest →
      ∃ t, step s = .next t ∧ t.agenda = rest ∧ t.cmdq = s.cmdq ∧ t.rsp = s.rsp ∧
        SameCounters s t ∧ SameTree s t ∧ SamePacker s t ∧ SameRecord s t ∧ t.uacc = s.uacc ∧
        t.urem = s.urem ∧ t.srcq = s.srcq ∧ t.srcEos = true ∧ t.held = false)

/-- R46, R200: a command word the host presents waits behind those not yet answered; with nothing
left to happen the block keeps its state.  (The agenda is the model's own input, log entry 1.) -/
def Obligations.IssuedCommandsQueueInOrder : Prop :=
  ∀ s : State, Waiting s →
    (∀ c rest, s.agenda = .issue c :: rest →
      step s = .next { s with agenda := rest, cmdq := s.cmdq ++ [c] }) ∧
    (s.agenda = [] → step s = .next s)

/-- R210: hardware reset gives every element its reset value, an empty `SNK`, and no response to a
held command.  (That the words waiting behind it go too is the model's choice, log entry 3.) -/
def Obligations.HardwareResetValues : Prop :=
  ∀ (s : State) (rest : List PortEvent), Waiting s → s.agenda = .hwReset :: rest →
    ∃ t, step s = .next t ∧ t.agenda = rest ∧ (∀ sym, readCount t.cnt sym = 0#32) ∧
      t.treeValid = false ∧ t.degen = false ∧ t.root = 511#9 ∧ t.nint = 0#9 ∧ t.pacc = 0#8 ∧
      t.pcnt = 0#3 ∧ t.uacc = 0#8 ∧ t.urem = 0#3 ∧ t.srcq = [] ∧ t.srcEos = false ∧ t.snk = [] ∧
      t.err = 0#8 ∧ t.errcmd = 0#64 ∧ t.held = false ∧ t.cmdq = []

/-- R22, R36: the reset values, and what the twelve registers read then. -/
def Obligations.StateAfterReset : Prop :=
  let s := State.reset
  (∀ sym, readCount s.cnt sym = 0#32) ∧ s.treeValid = false ∧ s.degen = false ∧ s.root = 511#9 ∧
    s.nint = 0#9 ∧ s.pacc = 0#8 ∧ s.pcnt = 0#3 ∧ s.uacc = 0#8 ∧ s.urem = 0#3 ∧ s.srcq = [] ∧
    s.srcEos = false ∧ s.snk = [] ∧ s.err = 0#8 ∧ s.errcmd = 0#64 ∧
    (List.range 12).map (registerValue s) =
      [0x48544231, 0x20, 0, 0, 0, 0, 0, 0, 0x1FF, 0, 0, 0]

/-- The invariant holds after reset. -/
def Obligations.ResetMeetsInvariant : Prop := Inv State.reset

/-- Every step keeps the invariant: the packer's and the unpacker's spare bits are 0 (R29, R30), a
valid tree is the tree of the present counters and an absent one is cleared (R25, R27), the fault
record is 0 or a fault code (R40, R41), only a command can be held. -/
def Obligations.EveryStepKeepsInvariant : Prop :=
  ∀ s t : State, Inv s → step s = .next t → Inv t
end

