-- ==== Sys2Proof/Laws/State.lean ====
section
/-! SUPPORT. One lemma per field per update of the state, so that no later proof unfolds one. -/

namespace Sys2Proof.Machine

/-! ### respond -/

@[simp] theorem respond_cnt (st aux : Byte) (data : Word) (s : State) :
    (respond st aux data s).cnt = s.cnt := rfl
@[simp] theorem respond_treeValid (st aux : Byte) (data : Word) (s : State) :
    (respond st aux data s).treeValid = s.treeValid := rfl
@[simp] theorem respond_degen (st aux : Byte) (data : Word) (s : State) :
    (respond st aux data s).degen = s.degen := rfl
@[simp] theorem respond_root (st aux : Byte) (data : Word) (s : State) :
    (respond st aux data s).root = s.root := rfl
@[simp] theorem respond_nint (st aux : Byte) (data : Word) (s : State) :
    (respond st aux data s).nint = s.nint := rfl
@[simp] theorem respond_nodes (st aux : Byte) (data : Word) (s : State) :
    (respond st aux data s).nodes = s.nodes := rfl
@[simp] theorem respond_code (st aux : Byte) (data : Word) (s : State) :
    (respond st aux data s).code = s.code := rfl
@[simp] theorem respond_pacc (st aux : Byte) (data : Word) (s : State) :
    (respond st aux data s).pacc = s.pacc := rfl
@[simp] theorem respond_pcnt (st aux : Byte) (data : Word) (s : State) :
    (respond st aux data s).pcnt = s.pcnt := rfl
@[simp] theorem respond_uacc (st aux : Byte) (data : Word) (s : State) :
    (respond st aux data s).uacc = s.uacc := rfl
@[simp] theorem respond_urem (st aux : Byte) (data : Word) (s : State) :
    (respond st aux data s).urem = s.urem := rfl
@[simp] theorem respond_srcq (st aux : Byte) (data : Word) (s : State) :
    (respond st aux data s).srcq = s.srcq := rfl
@[simp] theorem respond_srcEos (st aux : Byte) (data : Word) (s : State) :
    (respond st aux data s).srcEos = s.srcEos := rfl
@[simp] theorem respond_snk (st aux : Byte) (data : Word) (s : State) :
    (respond st aux data s).snk = s.snk := rfl
@[simp] theorem respond_err (st aux : Byte) (data : Word) (s : State) :
    (respond st aux data s).err = s.err := rfl
@[simp] theorem respond_errcmd (st aux : Byte) (data : Word) (s : State) :
    (respond st aux data s).errcmd = s.errcmd := rfl
@[simp] theorem respond_cmdq (st aux : Byte) (data : Word) (s : State) :
    (respond st aux data s).cmdq = s.cmdq.tail := rfl
@[simp] theorem respond_held (st aux : Byte) (data : Word) (s : State) :
    (respond st aux data s).held = false := rfl
@[simp] theorem respond_rsp (st aux : Byte) (data : Word) (s : State) :
    (respond st aux data s).rsp = s.rsp ++ [responseWord st aux data] := rfl
@[simp] theorem respond_agenda (st aux : Byte) (data : Word) (s : State) :
    (respond st aux data s).agenda = s.agenda := rfl

/-! ### recordFault -/

@[simp] theorem recordFault_cnt (f : Cause) (s : State) :
    (recordFault f s).cnt = s.cnt := by unfold recordFault; split <;> rfl
@[simp] theorem recordFault_treeValid (f : Cause) (s : State) :
    (recordFault f s).treeValid = s.treeValid := by unfold recordFault; split <;> rfl
@[simp] theorem recordFault_degen (f : Cause) (s : State) :
    (recordFault f s).degen = s.degen := by unfold recordFault; split <;> rfl
@[simp] theorem recordFault_root (f : Cause) (s : State) :
    (recordFault f s).root = s.root := by unfold recordFault; split <;> rfl
@[simp] theorem recordFault_nint (f : Cause) (s : State) :
    (recordFault f s).nint = s.nint := by unfold recordFault; split <;> rfl
@[simp] theorem recordFault_nodes (f : Cause) (s : State) :
    (recordFault f s).nodes = s.nodes := by unfold recordFault; split <;> rfl
@[simp] theorem recordFault_code (f : Cause) (s : State) :
    (recordFault f s).code = s.code := by unfold recordFault; split <;> rfl
@[simp] theorem recordFault_pacc (f : Cause) (s : State) :
    (recordFault f s).pacc = s.pacc := by unfold recordFault; split <;> rfl
@[simp] theorem recordFault_pcnt (f : Cause) (s : State) :
    (recordFault f s).pcnt = s.pcnt := by unfold recordFault; split <;> rfl
@[simp] theorem recordFault_uacc (f : Cause) (s : State) :
    (recordFault f s).uacc = s.uacc := by unfold recordFault; split <;> rfl
@[simp] theorem recordFault_urem (f : Cause) (s : State) :
    (recordFault f s).urem = s.urem := by unfold recordFault; split <;> rfl
@[simp] theorem recordFault_srcq (f : Cause) (s : State) :
    (recordFault f s).srcq = s.srcq := by unfold recordFault; split <;> rfl
@[simp] theorem recordFault_srcEos (f : Cause) (s : State) :
    (recordFault f s).srcEos = s.srcEos := by unfold recordFault; split <;> rfl
@[simp] theorem recordFault_snk (f : Cause) (s : State) :
    (recordFault f s).snk = s.snk := by unfold recordFault; split <;> rfl
@[simp] theorem recordFault_cmdq (f : Cause) (s : State) :
    (recordFault f s).cmdq = s.cmdq := by unfold recordFault; split <;> rfl
@[simp] theorem recordFault_held (f : Cause) (s : State) :
    (recordFault f s).held = s.held := by unfold recordFault; split <;> rfl
@[simp] theorem recordFault_rsp (f : Cause) (s : State) :
    (recordFault f s).rsp = s.rsp := by unfold recordFault; split <;> rfl
@[simp] theorem recordFault_agenda (f : Cause) (s : State) :
    (recordFault f s).agenda = s.agenda := by unfold recordFault; split <;> rfl

/-! ### raise -/

@[simp] theorem raise_cnt (f : Cause) (s : State) : (raise f s).cnt = s.cnt := by simp [raise]
@[simp] theorem raise_treeValid (f : Cause) (s : State) :
    (raise f s).treeValid = s.treeValid := by simp [raise]
@[simp] theorem raise_degen (f : Cause) (s : State) : (raise f s).degen = s.degen := by simp [raise]
@[simp] theorem raise_root (f : Cause) (s : State) : (raise f s).root = s.root := by simp [raise]
@[simp] theorem raise_nint (f : Cause) (s : State) : (raise f s).nint = s.nint := by simp [raise]
@[simp] theorem raise_nodes (f : Cause) (s : State) : (raise f s).nodes = s.nodes := by simp [raise]
@[simp] theorem raise_code (f : Cause) (s : State) : (raise f s).code = s.code := by simp [raise]
@[simp] theorem raise_pacc (f : Cause) (s : State) : (raise f s).pacc = s.pacc := by simp [raise]
@[simp] theorem raise_pcnt (f : Cause) (s : State) : (raise f s).pcnt = s.pcnt := by simp [raise]
@[simp] theorem raise_uacc (f : Cause) (s : State) : (raise f s).uacc = s.uacc := by simp [raise]
@[simp] theorem raise_urem (f : Cause) (s : State) : (raise f s).urem = s.urem := by simp [raise]
@[simp] theorem raise_srcq (f : Cause) (s : State) : (raise f s).srcq = s.srcq := by simp [raise]
@[simp] theorem raise_srcEos (f : Cause) (s : State) :
    (raise f s).srcEos = s.srcEos := by simp [raise]
@[simp] theorem raise_snk (f : Cause) (s : State) : (raise f s).snk = s.snk := by simp [raise]
@[simp] theorem raise_cmdq (f : Cause) (s : State) :
    (raise f s).cmdq = s.cmdq.tail := by simp [raise]
@[simp] theorem raise_held (f : Cause) (s : State) : (raise f s).held = false := by simp [raise]
@[simp] theorem raise_rsp (f : Cause) (s : State) :
    (raise f s).rsp = s.rsp ++ [responseWord (causeCode f) 0#8 0#32] := by simp [raise]
@[simp] theorem raise_agenda (f : Cause) (s : State) :
    (raise f s).agenda = s.agenda := by simp [raise]

/-! ### resetElements -/

@[simp] theorem resetElements_cnt (s : State) : (resetElements s).cnt = Table.fill 256 0#32 := rfl
@[simp] theorem resetElements_treeValid (s : State) : (resetElements s).treeValid = false := rfl
@[simp] theorem resetElements_degen (s : State) : (resetElements s).degen = false := rfl
@[simp] theorem resetElements_root (s : State) : (resetElements s).root = Config.nil := rfl
@[simp] theorem resetElements_nint (s : State) : (resetElements s).nint = 0#9 := rfl
@[simp] theorem resetElements_nodes (s : State) : (resetElements s).nodes = s.nodes := rfl
@[simp] theorem resetElements_code (s : State) : (resetElements s).code = s.code := rfl
@[simp] theorem resetElements_pacc (s : State) : (resetElements s).pacc = 0#8 := rfl
@[simp] theorem resetElements_pcnt (s : State) : (resetElements s).pcnt = 0#3 := rfl
@[simp] theorem resetElements_uacc (s : State) : (resetElements s).uacc = 0#8 := rfl
@[simp] theorem resetElements_urem (s : State) : (resetElements s).urem = 0#3 := rfl
@[simp] theorem resetElements_srcq (s : State) : (resetElements s).srcq = [] := rfl
@[simp] theorem resetElements_srcEos (s : State) : (resetElements s).srcEos = false := rfl
@[simp] theorem resetElements_snk (s : State) : (resetElements s).snk = s.snk := rfl
@[simp] theorem resetElements_err (s : State) : (resetElements s).err = 0#8 := rfl
@[simp] theorem resetElements_errcmd (s : State) : (resetElements s).errcmd = 0#64 := rfl
@[simp] theorem resetElements_cmdq (s : State) : (resetElements s).cmdq = s.cmdq := rfl
@[simp] theorem resetElements_held (s : State) : (resetElements s).held = s.held := rfl
@[simp] theorem resetElements_rsp (s : State) : (resetElements s).rsp = s.rsp := rfl
@[simp] theorem resetElements_agenda (s : State) : (resetElements s).agenda = s.agenda := rfl

/-! ### hardReset -/

@[simp] theorem hardReset_cnt (s : State) : (hardReset s).cnt = Table.fill 256 0#32 := rfl
@[simp] theorem hardReset_treeValid (s : State) : (hardReset s).treeValid = false := rfl
@[simp] theorem hardReset_degen (s : State) : (hardReset s).degen = false := rfl
@[simp] theorem hardReset_root (s : State) : (hardReset s).root = Config.nil := rfl
@[simp] theorem hardReset_nint (s : State) : (hardReset s).nint = 0#9 := rfl
@[simp] theorem hardReset_nodes (s : State) : (hardReset s).nodes = s.nodes := rfl
@[simp] theorem hardReset_code (s : State) : (hardReset s).code = s.code := rfl
@[simp] theorem hardReset_pacc (s : State) : (hardReset s).pacc = 0#8 := rfl
@[simp] theorem hardReset_pcnt (s : State) : (hardReset s).pcnt = 0#3 := rfl
@[simp] theorem hardReset_uacc (s : State) : (hardReset s).uacc = 0#8 := rfl
@[simp] theorem hardReset_urem (s : State) : (hardReset s).urem = 0#3 := rfl
@[simp] theorem hardReset_srcq (s : State) : (hardReset s).srcq = [] := rfl
@[simp] theorem hardReset_srcEos (s : State) : (hardReset s).srcEos = false := rfl
@[simp] theorem hardReset_snk (s : State) : (hardReset s).snk = [] := rfl
@[simp] theorem hardReset_err (s : State) : (hardReset s).err = 0#8 := rfl
@[simp] theorem hardReset_errcmd (s : State) : (hardReset s).errcmd = 0#64 := rfl
@[simp] theorem hardReset_cmdq (s : State) : (hardReset s).cmdq = [] := rfl
@[simp] theorem hardReset_held (s : State) : (hardReset s).held = false := rfl
@[simp] theorem hardReset_rsp (s : State) : (hardReset s).rsp = [] := rfl
@[simp] theorem hardReset_agenda (s : State) : (hardReset s).agenda = s.agenda := rfl

/-! ### hold -/

@[simp] theorem hold_cnt (s : State) : (hold s).cnt = s.cnt := rfl
@[simp] theorem hold_treeValid (s : State) : (hold s).treeValid = s.treeValid := rfl
@[simp] theorem hold_degen (s : State) : (hold s).degen = s.degen := rfl
@[simp] theorem hold_root (s : State) : (hold s).root = s.root := rfl
@[simp] theorem hold_nint (s : State) : (hold s).nint = s.nint := rfl
@[simp] theorem hold_nodes (s : State) : (hold s).nodes = s.nodes := rfl
@[simp] theorem hold_code (s : State) : (hold s).code = s.code := rfl
@[simp] theorem hold_pacc (s : State) : (hold s).pacc = s.pacc := rfl
@[simp] theorem hold_pcnt (s : State) : (hold s).pcnt = s.pcnt := rfl
@[simp] theorem hold_uacc (s : State) : (hold s).uacc = s.uacc := rfl
@[simp] theorem hold_urem (s : State) : (hold s).urem = s.urem := rfl
@[simp] theorem hold_srcq (s : State) : (hold s).srcq = s.srcq := rfl
@[simp] theorem hold_srcEos (s : State) : (hold s).srcEos = s.srcEos := rfl
@[simp] theorem hold_snk (s : State) : (hold s).snk = s.snk := rfl
@[simp] theorem hold_err (s : State) : (hold s).err = s.err := rfl
@[simp] theorem hold_errcmd (s : State) : (hold s).errcmd = s.errcmd := rfl
@[simp] theorem hold_cmdq (s : State) : (hold s).cmdq = s.cmdq := rfl
@[simp] theorem hold_held (s : State) : (hold s).held = true := rfl
@[simp] theorem hold_rsp (s : State) : (hold s).rsp = s.rsp := rfl
@[simp] theorem hold_agenda (s : State) : (hold s).agenda = s.agenda := rfl

/-! ### withBitSource -/

@[simp] theorem withBitSource_cnt (s : State) (u : BitSource) :
    (s.withBitSource u).cnt = s.cnt := rfl
@[simp] theorem withBitSource_treeValid (s : State) (u : BitSource) :
    (s.withBitSource u).treeValid = s.treeValid := rfl
@[simp] theorem withBitSource_degen (s : State) (u : BitSource) :
    (s.withBitSource u).degen = s.degen := rfl
@[simp] theorem withBitSource_root (s : State) (u : BitSource) :
    (s.withBitSource u).root = s.root := rfl
@[simp] theorem withBitSource_nint (s : State) (u : BitSource) :
    (s.withBitSource u).nint = s.nint := rfl
@[simp] theorem withBitSource_nodes (s : State) (u : BitSource) :
    (s.withBitSource u).nodes = s.nodes := rfl
@[simp] theorem withBitSource_code (s : State) (u : BitSource) :
    (s.withBitSource u).code = s.code := rfl
@[simp] theorem withBitSource_pacc (s : State) (u : BitSource) :
    (s.withBitSource u).pacc = s.pacc := rfl
@[simp] theorem withBitSource_pcnt (s : State) (u : BitSource) :
    (s.withBitSource u).pcnt = s.pcnt := rfl
@[simp] theorem withBitSource_uacc (s : State) (u : BitSource) :
    (s.withBitSource u).uacc = u.acc := rfl
@[simp] theorem withBitSource_urem (s : State) (u : BitSource) :
    (s.withBitSource u).urem = u.rem := rfl
@[simp] theorem withBitSource_srcq (s : State) (u : BitSource) :
    (s.withBitSource u).srcq = u.queue := rfl
@[simp] theorem withBitSource_srcEos (s : State) (u : BitSource) :
    (s.withBitSource u).srcEos = s.srcEos := rfl
@[simp] theorem withBitSource_snk (s : State) (u : BitSource) :
    (s.withBitSource u).snk = s.snk := rfl
@[simp] theorem withBitSource_err (s : State) (u : BitSource) :
    (s.withBitSource u).err = s.err := rfl
@[simp] theorem withBitSource_errcmd (s : State) (u : BitSource) :
    (s.withBitSource u).errcmd = s.errcmd := rfl
@[simp] theorem withBitSource_cmdq (s : State) (u : BitSource) :
    (s.withBitSource u).cmdq = s.cmdq := rfl
@[simp] theorem withBitSource_held (s : State) (u : BitSource) :
    (s.withBitSource u).held = s.held := rfl
@[simp] theorem withBitSource_rsp (s : State) (u : BitSource) :
    (s.withBitSource u).rsp = s.rsp := rfl
@[simp] theorem withBitSource_agenda (s : State) (u : BitSource) :
    (s.withBitSource u).agenda = s.agenda := rfl

/-! ### pushSource -/

@[simp] theorem pushSource_cnt (b : Byte) (s : State) :
    (pushSource b s).cnt = s.cnt := by unfold pushSource; split <;> rfl
@[simp] theorem pushSource_treeValid (b : Byte) (s : State) :
    (pushSource b s).treeValid = s.treeValid := by unfold pushSource; split <;> rfl
@[simp] theorem pushSource_degen (b : Byte) (s : State) :
    (pushSource b s).degen = s.degen := by unfold pushSource; split <;> rfl
@[simp] theorem pushSource_root (b : Byte) (s : State) :
    (pushSource b s).root = s.root := by unfold pushSource; split <;> rfl
@[simp] theorem pushSource_nint (b : Byte) (s : State) :
    (pushSource b s).nint = s.nint := by unfold pushSource; split <;> rfl
@[simp] theorem pushSource_nodes (b : Byte) (s : State) :
    (pushSource b s).nodes = s.nodes := by unfold pushSource; split <;> rfl
@[simp] theorem pushSource_code (b : Byte) (s : State) :
    (pushSource b s).code = s.code := by unfold pushSource; split <;> rfl
@[simp] theorem pushSource_pacc (b : Byte) (s : State) :
    (pushSource b s).pacc = s.pacc := by unfold pushSource; split <;> rfl
@[simp] theorem pushSource_pcnt (b : Byte) (s : State) :
    (pushSource b s).pcnt = s.pcnt := by unfold pushSource; split <;> rfl
@[simp] theorem pushSource_uacc (b : Byte) (s : State) :
    (pushSource b s).uacc = s.uacc := by unfold pushSource; split <;> rfl
@[simp] theorem pushSource_urem (b : Byte) (s : State) :
    (pushSource b s).urem = s.urem := by unfold pushSource; split <;> rfl
@[simp] theorem pushSource_srcEos (b : Byte) (s : State) :
    (pushSource b s).srcEos = s.srcEos := by unfold pushSource; split <;> rfl
@[simp] theorem pushSource_snk (b : Byte) (s : State) :
    (pushSource b s).snk = s.snk := by unfold pushSource; split <;> rfl
@[simp] theorem pushSource_err (b : Byte) (s : State) :
    (pushSource b s).err = s.err := by unfold pushSource; split <;> rfl
@[simp] theorem pushSource_errcmd (b : Byte) (s : State) :
    (pushSource b s).errcmd = s.errcmd := by unfold pushSource; split <;> rfl
@[simp] theorem pushSource_cmdq (b : Byte) (s : State) :
    (pushSource b s).cmdq = s.cmdq := by unfold pushSource; split <;> rfl
@[simp] theorem pushSource_rsp (b : Byte) (s : State) :
    (pushSource b s).rsp = s.rsp := by unfold pushSource; split <;> rfl
@[simp] theorem pushSource_agenda (b : Byte) (s : State) :
    (pushSource b s).agenda = s.agenda := by unfold pushSource; split <;> rfl

/-! ### endSource -/

@[simp] theorem endSource_cnt (s : State) : (endSource s).cnt = s.cnt := rfl
@[simp] theorem endSource_treeValid (s : State) : (endSource s).treeValid = s.treeValid := rfl
@[simp] theorem endSource_degen (s : State) : (endSource s).degen = s.degen := rfl
@[simp] theorem endSource_root (s : State) : (endSource s).root = s.root := rfl
@[simp] theorem endSource_nint (s : State) : (endSource s).nint = s.nint := rfl
@[simp] theorem endSource_nodes (s : State) : (endSource s).nodes = s.nodes := rfl
@[simp] theorem endSource_code (s : State) : (endSource s).code = s.code := rfl
@[simp] theorem endSource_pacc (s : State) : (endSource s).pacc = s.pacc := rfl
@[simp] theorem endSource_pcnt (s : State) : (endSource s).pcnt = s.pcnt := rfl
@[simp] theorem endSource_uacc (s : State) : (endSource s).uacc = s.uacc := rfl
@[simp] theorem endSource_urem (s : State) : (endSource s).urem = s.urem := rfl
@[simp] theorem endSource_srcq (s : State) : (endSource s).srcq = s.srcq := rfl
@[simp] theorem endSource_srcEos (s : State) : (endSource s).srcEos = true := rfl
@[simp] theorem endSource_snk (s : State) : (endSource s).snk = s.snk := rfl
@[simp] theorem endSource_err (s : State) : (endSource s).err = s.err := rfl
@[simp] theorem endSource_errcmd (s : State) : (endSource s).errcmd = s.errcmd := rfl
@[simp] theorem endSource_cmdq (s : State) : (endSource s).cmdq = s.cmdq := rfl
@[simp] theorem endSource_held (s : State) : (endSource s).held = false := rfl
@[simp] theorem endSource_rsp (s : State) : (endSource s).rsp = s.rsp := rfl
@[simp] theorem endSource_agenda (s : State) : (endSource s).agenda = s.agenda := rfl

/-! ### issueCommand -/

@[simp] theorem issueCommand_cnt (c : CmdWord) (s : State) : (issueCommand c s).cnt = s.cnt := rfl
@[simp] theorem issueCommand_treeValid (c : CmdWord) (s : State) :
    (issueCommand c s).treeValid = s.treeValid := rfl
@[simp] theorem issueCommand_degen (c : CmdWord) (s : State) :
    (issueCommand c s).degen = s.degen := rfl
@[simp] theorem issueCommand_root (c : CmdWord) (s : State) :
    (issueCommand c s).root = s.root := rfl
@[simp] theorem issueCommand_nint (c : CmdWord) (s : State) :
    (issueCommand c s).nint = s.nint := rfl
@[simp] theorem issueCommand_nodes (c : CmdWord) (s : State) :
    (issueCommand c s).nodes = s.nodes := rfl
@[simp] theorem issueCommand_code (c : CmdWord) (s : State) :
    (issueCommand c s).code = s.code := rfl
@[simp] theorem issueCommand_pacc (c : CmdWord) (s : State) :
    (issueCommand c s).pacc = s.pacc := rfl
@[simp] theorem issueCommand_pcnt (c : CmdWord) (s : State) :
    (issueCommand c s).pcnt = s.pcnt := rfl
@[simp] theorem issueCommand_uacc (c : CmdWord) (s : State) :
    (issueCommand c s).uacc = s.uacc := rfl
@[simp] theorem issueCommand_urem (c : CmdWord) (s : State) :
    (issueCommand c s).urem = s.urem := rfl
@[simp] theorem issueCommand_srcq (c : CmdWord) (s : State) :
    (issueCommand c s).srcq = s.srcq := rfl
@[simp] theorem issueCommand_srcEos (c : CmdWord) (s : State) :
    (issueCommand c s).srcEos = s.srcEos := rfl
@[simp] theorem issueCommand_snk (c : CmdWord) (s : State) : (issueCommand c s).snk = s.snk := rfl
@[simp] theorem issueCommand_err (c : CmdWord) (s : State) : (issueCommand c s).err = s.err := rfl
@[simp] theorem issueCommand_errcmd (c : CmdWord) (s : State) :
    (issueCommand c s).errcmd = s.errcmd := rfl
@[simp] theorem issueCommand_cmdq (c : CmdWord) (s : State) :
    (issueCommand c s).cmdq = s.cmdq ++ [c] := rfl
@[simp] theorem issueCommand_held (c : CmdWord) (s : State) :
    (issueCommand c s).held = s.held := rfl
@[simp] theorem issueCommand_rsp (c : CmdWord) (s : State) : (issueCommand c s).rsp = s.rsp := rfl
@[simp] theorem issueCommand_agenda (c : CmdWord) (s : State) :
    (issueCommand c s).agenda = s.agenda := rfl

/-! ### emit -/

@[simp] theorem emit_cnt (b : Byte) (s : State) : (emit b s).cnt = s.cnt := rfl
@[simp] theorem emit_treeValid (b : Byte) (s : State) : (emit b s).treeValid = s.treeValid := rfl
@[simp] theorem emit_degen (b : Byte) (s : State) : (emit b s).degen = s.degen := rfl
@[simp] theorem emit_root (b : Byte) (s : State) : (emit b s).root = s.root := rfl
@[simp] theorem emit_nint (b : Byte) (s : State) : (emit b s).nint = s.nint := rfl
@[simp] theorem emit_nodes (b : Byte) (s : State) : (emit b s).nodes = s.nodes := rfl
@[simp] theorem emit_code (b : Byte) (s : State) : (emit b s).code = s.code := rfl
@[simp] theorem emit_pacc (b : Byte) (s : State) : (emit b s).pacc = s.pacc := rfl
@[simp] theorem emit_pcnt (b : Byte) (s : State) : (emit b s).pcnt = s.pcnt := rfl
@[simp] theorem emit_uacc (b : Byte) (s : State) : (emit b s).uacc = s.uacc := rfl
@[simp] theorem emit_urem (b : Byte) (s : State) : (emit b s).urem = s.urem := rfl
@[simp] theorem emit_srcq (b : Byte) (s : State) : (emit b s).srcq = s.srcq := rfl
@[simp] theorem emit_srcEos (b : Byte) (s : State) : (emit b s).srcEos = s.srcEos := rfl
@[simp] theorem emit_snk (b : Byte) (s : State) : (emit b s).snk = s.snk ++ [b] := rfl
@[simp] theorem emit_err (b : Byte) (s : State) : (emit b s).err = s.err := rfl
@[simp] theorem emit_errcmd (b : Byte) (s : State) : (emit b s).errcmd = s.errcmd := rfl
@[simp] theorem emit_cmdq (b : Byte) (s : State) : (emit b s).cmdq = s.cmdq := rfl
@[simp] theorem emit_held (b : Byte) (s : State) : (emit b s).held = s.held := rfl
@[simp] theorem emit_rsp (b : Byte) (s : State) : (emit b s).rsp = s.rsp := rfl
@[simp] theorem emit_agenda (b : Byte) (s : State) : (emit b s).agenda = s.agenda := rfl

/-! ### packBit -/

@[simp] theorem packBit_cnt (b : Bool) (s : State) :
    (packBit b s).cnt = s.cnt := by unfold packBit; split <;> rfl
@[simp] theorem packBit_treeValid (b : Bool) (s : State) :
    (packBit b s).treeValid = s.treeValid := by unfold packBit; split <;> rfl
@[simp] theorem packBit_degen (b : Bool) (s : State) :
    (packBit b s).degen = s.degen := by unfold packBit; split <;> rfl
@[simp] theorem packBit_root (b : Bool) (s : State) :
    (packBit b s).root = s.root := by unfold packBit; split <;> rfl
@[simp] theorem packBit_nint (b : Bool) (s : State) :
    (packBit b s).nint = s.nint := by unfold packBit; split <;> rfl
@[simp] theorem packBit_nodes (b : Bool) (s : State) :
    (packBit b s).nodes = s.nodes := by unfold packBit; split <;> rfl
@[simp] theorem packBit_code (b : Bool) (s : State) :
    (packBit b s).code = s.code := by unfold packBit; split <;> rfl
@[simp] theorem packBit_uacc (b : Bool) (s : State) :
    (packBit b s).uacc = s.uacc := by unfold packBit; split <;> rfl
@[simp] theorem packBit_urem (b : Bool) (s : State) :
    (packBit b s).urem = s.urem := by unfold packBit; split <;> rfl
@[simp] theorem packBit_srcq (b : Bool) (s : State) :
    (packBit b s).srcq = s.srcq := by unfold packBit; split <;> rfl
@[simp] theorem packBit_srcEos (b : Bool) (s : State) :
    (packBit b s).srcEos = s.srcEos := by unfold packBit; split <;> rfl
@[simp] theorem packBit_err (b : Bool) (s : State) :
    (packBit b s).err = s.err := by unfold packBit; split <;> rfl
@[simp] theorem packBit_errcmd (b : Bool) (s : State) :
    (packBit b s).errcmd = s.errcmd := by unfold packBit; split <;> rfl
@[simp] theorem packBit_cmdq (b : Bool) (s : State) :
    (packBit b s).cmdq = s.cmdq := by unfold packBit; split <;> rfl
@[simp] theorem packBit_held (b : Bool) (s : State) :
    (packBit b s).held = s.held := by unfold packBit; split <;> rfl
@[simp] theorem packBit_rsp (b : Bool) (s : State) :
    (packBit b s).rsp = s.rsp := by unfold packBit; split <;> rfl
@[simp] theorem packBit_agenda (b : Bool) (s : State) :
    (packBit b s).agenda = s.agenda := by unfold packBit; split <;> rfl

/-! ### packBits -/

@[simp] theorem packBits_cnt (bits : List Bool) (s : State) :
    (packBits bits s).cnt = s.cnt := by
  induction bits generalizing s with
  | nil => rfl
  | cons b bs ih => exact (ih (packBit b s)).trans (packBit_cnt b s)
@[simp] theorem packBits_treeValid (bits : List Bool) (s : State) :
    (packBits bits s).treeValid = s.treeValid := by
  induction bits generalizing s with
  | nil => rfl
  | cons b bs ih => exact (ih (packBit b s)).trans (packBit_treeValid b s)
@[simp] theorem packBits_degen (bits : List Bool) (s : State) :
    (packBits bits s).degen = s.degen := by
  induction bits generalizing s with
  | nil => rfl
  | cons b bs ih => exact (ih (packBit b s)).trans (packBit_degen b s)
@[simp] theorem packBits_root (bits : List Bool) (s : State) :
    (packBits bits s).root = s.root := by
  induction bits generalizing s with
  | nil => rfl
  | cons b bs ih => exact (ih (packBit b s)).trans (packBit_root b s)
@[simp] theorem packBits_nint (bits : List Bool) (s : State) :
    (packBits bits s).nint = s.nint := by
  induction bits generalizing s with
  | nil => rfl
  | cons b bs ih => exact (ih (packBit b s)).trans (packBit_nint b s)
@[simp] theorem packBits_nodes (bits : List Bool) (s : State) :
    (packBits bits s).nodes = s.nodes := by
  induction bits generalizing s with
  | nil => rfl
  | cons b bs ih => exact (ih (packBit b s)).trans (packBit_nodes b s)
@[simp] theorem packBits_code (bits : List Bool) (s : State) :
    (packBits bits s).code = s.code := by
  induction bits generalizing s with
  | nil => rfl
  | cons b bs ih => exact (ih (packBit b s)).trans (packBit_code b s)
@[simp] theorem packBits_uacc (bits : List Bool) (s : State) :
    (packBits bits s).uacc = s.uacc := by
  induction bits generalizing s with
  | nil => rfl
  | cons b bs ih => exact (ih (packBit b s)).trans (packBit_uacc b s)
@[simp] theorem packBits_urem (bits : List Bool) (s : State) :
    (packBits bits s).urem = s.urem := by
  induction bits generalizing s with
  | nil => rfl
  | cons b bs ih => exact (ih (packBit b s)).trans (packBit_urem b s)
@[simp] theorem packBits_srcq (bits : List Bool) (s : State) :
    (packBits bits s).srcq = s.srcq := by
  induction bits generalizing s with
  | nil => rfl
  | cons b bs ih => exact (ih (packBit b s)).trans (packBit_srcq b s)
@[simp] theorem packBits_srcEos (bits : List Bool) (s : State) :
    (packBits bits s).srcEos = s.srcEos := by
  induction bits generalizing s with
  | nil => rfl
  | cons b bs ih => exact (ih (packBit b s)).trans (packBit_srcEos b s)
@[simp] theorem packBits_err (bits : List Bool) (s : State) :
    (packBits bits s).err = s.err := by
  induction bits generalizing s with
  | nil => rfl
  | cons b bs ih => exact (ih (packBit b s)).trans (packBit_err b s)
@[simp] theorem packBits_errcmd (bits : List Bool) (s : State) :
    (packBits bits s).errcmd = s.errcmd := by
  induction bits generalizing s with
  | nil => rfl
  | cons b bs ih => exact (ih (packBit b s)).trans (packBit_errcmd b s)
@[simp] theorem packBits_cmdq (bits : List Bool) (s : State) :
    (packBits bits s).cmdq = s.cmdq := by
  induction bits generalizing s with
  | nil => rfl
  | cons b bs ih => exact (ih (packBit b s)).trans (packBit_cmdq b s)
@[simp] theorem packBits_held (bits : List Bool) (s : State) :
    (packBits bits s).held = s.held := by
  induction bits generalizing s with
  | nil => rfl
  | cons b bs ih => exact (ih (packBit b s)).trans (packBit_held b s)
@[simp] theorem packBits_rsp (bits : List Bool) (s : State) :
    (packBits bits s).rsp = s.rsp := by
  induction bits generalizing s with
  | nil => rfl
  | cons b bs ih => exact (ih (packBit b s)).trans (packBit_rsp b s)
@[simp] theorem packBits_agenda (bits : List Bool) (s : State) :
    (packBits bits s).agenda = s.agenda := by
  induction bits generalizing s with
  | nil => rfl
  | cons b bs ih => exact (ih (packBit b s)).trans (packBit_agenda b s)

/-! ### installTree -/

@[simp] theorem installTree_cnt (created : List Node) (s : State) :
    (installTree created s).cnt = s.cnt := rfl
@[simp] theorem installTree_treeValid (created : List Node) (s : State) :
    (installTree created s).treeValid = true := rfl
@[simp] theorem installTree_degen (created : List Node) (s : State) :
    (installTree created s).degen = decide ((leafSymbols s.cnt).length = 1) := rfl
@[simp] theorem installTree_root (created : List Node) (s : State) :
    (installTree created s).root = BitVec.ofNat 9 (255 + created.length) := rfl
@[simp] theorem installTree_nint (created : List Node) (s : State) :
    (installTree created s).nint = BitVec.ofNat 9 created.length := rfl
@[simp] theorem installTree_nodes (created : List Node) (s : State) :
    (installTree created s).nodes = storeNodes 0 created s.nodes := rfl
@[simp] theorem installTree_code (created : List Node) (s : State) :
    (installTree created s).code =
      deriveCodes (storeNodes 0 created s.nodes) (BitVec.ofNat 9 (255 + created.length)) := rfl
@[simp] theorem installTree_pacc (created : List Node) (s : State) :
    (installTree created s).pacc = s.pacc := rfl
@[simp] theorem installTree_pcnt (created : List Node) (s : State) :
    (installTree created s).pcnt = s.pcnt := rfl
@[simp] theorem installTree_uacc (created : List Node) (s : State) :
    (installTree created s).uacc = s.uacc := rfl
@[simp] theorem installTree_urem (created : List Node) (s : State) :
    (installTree created s).urem = s.urem := rfl
@[simp] theorem installTree_srcq (created : List Node) (s : State) :
    (installTree created s).srcq = s.srcq := rfl
@[simp] theorem installTree_srcEos (created : List Node) (s : State) :
    (installTree created s).srcEos = s.srcEos := rfl
@[simp] theorem installTree_snk (created : List Node) (s : State) :
    (installTree created s).snk = s.snk := rfl
@[simp] theorem installTree_err (created : List Node) (s : State) :
    (installTree created s).err = s.err := rfl
@[simp] theorem installTree_errcmd (created : List Node) (s : State) :
    (installTree created s).errcmd = s.errcmd := rfl
@[simp] theorem installTree_cmdq (created : List Node) (s : State) :
    (installTree created s).cmdq = s.cmdq := rfl
@[simp] theorem installTree_held (created : List Node) (s : State) :
    (installTree created s).held = s.held := rfl
@[simp] theorem installTree_rsp (created : List Node) (s : State) :
    (installTree created s).rsp = s.rsp := rfl
@[simp] theorem installTree_agenda (created : List Node) (s : State) :
    (installTree created s).agenda = s.agenda := rfl

end Sys2Proof.Machine
end

