-- ==== Sys2Proof/Laws/Cells.lean ====
section
/-! SUPPORT. Reading back what was written to a table, and the response of a fault. -/

namespace Sys2Proof.Machine

theorem table_ext {α : Type} {n : Nat} {t u : Table α n}
    (h : ∀ i (hi : i < n), readCell t i hi = readCell u i hi) : t = u := by
  rcases t with ⟨ts, ht⟩
  rcases u with ⟨us, hu⟩
  have : ts = us := by
    apply List.ext_getElem (ht.trans hu.symm)
    intro i h₁ h₂
    exact h i (ht ▸ h₁)
  subst this
  rfl

theorem readCell_writeCell {α : Type} {n : Nat} (t : Table α n) (i j : Nat) (a : α) (h : j < n) :
    readCell (writeCell t i a) j h = if i = j then a else readCell t j h := by
  simp [readCell, writeCell, List.getElem_set]

@[simp] theorem readCell_writeCell_same {α : Type} {n : Nat} (t : Table α n) (i : Nat) (a : α)
    (h : i < n) : readCell (writeCell t i a) i h = a := by
  simp [readCell_writeCell]

theorem readCell_writeCell_ne {α : Type} {n : Nat} (t : Table α n) {i j : Nat} (a : α) (h : j < n)
    (hij : i ≠ j) : readCell (writeCell t i a) j h = readCell t j h := by
  simp [readCell_writeCell, hij]

@[simp] theorem readCell_fill {α : Type} {n : Nat} (a : α) (i : Nat) (h : i < n) :
    readCell (Table.fill n a) i h = a := by
  simp [readCell, Table.fill]

theorem readCount_writeCount (cnt : Table Word 256) (s t : Byte) (v : Word) :
    readCount (writeCount cnt s v) t = if s = t then v else readCount cnt t := by
  simp [readCount, writeCount, readCell_writeCell, BitVec.toNat_inj]

@[simp] theorem readCount_fill (v : Word) (sym : Byte) : readCount (Table.fill 256 v) sym = v := by
  simp [readCount]

@[simp] theorem readCode_fill (c : Code) (sym : Byte) : readCode (Table.fill 256 c) sym = c := by
  simp [readCode]

/-- The record a fault leaves (R183, R184). -/
theorem raise_record (f : Cause) (s : State) :
    ((raise f s).err = if s.err = 0#8 then causeCode f else s.err) ∧
      ((raise f s).errcmd = if s.err = 0#8 then s.headWord else s.errcmd) := by
  unfold raise recordFault
  by_cases h : s.err = 0#8 <;> simp [h]

theorem causeCode_ne_zero (f : Cause) : causeCode f ≠ 0#8 := by cases f <;> decide

theorem causeCode_le (f : Cause) : (causeCode f).toNat ≤ 9 := by cases f <;> decide

end Sys2Proof.Machine
end

