-- ==== Sys2Proof/Laws/Streams.lean ====
section
/-! SUPPORT. The packer and the unpacker as operations on lists of bits: PackBit appends one bit to
the stream accepted so far (R100, R104), UnpackBit takes the first bit of those left (R110). -/

namespace Sys2Proof.Machine

@[simp] theorem lowBits_length {k : Nat} (v : BitVec k) (n : Nat) : (lowBits v n).length = n := by
  simp [lowBits]

@[simp] theorem lowBits_zero {k : Nat} (v : BitVec k) : lowBits v 0 = [] := rfl

theorem lowBits_succ {k : Nat} (v : BitVec k) (n : Nat) :
    lowBits v (n + 1) = lowBits v n ++ [v.getLsbD n] := by
  simp [lowBits, List.range_succ]

theorem lowBits_cons {k : Nat} (v : BitVec k) (n : Nat) :
    lowBits v (n + 1) = v.getLsbD 0 :: lowBits (v >>> 1) n := by
  simp [lowBits, List.range_succ_eq_map, List.map_map, Function.comp_def, Nat.add_comm]

theorem lowBits_congr {k l : Nat} {v : BitVec k} {w : BitVec l} {n : Nat}
    (h : ∀ i, i < n → v.getLsbD i = w.getLsbD i) : lowBits v n = lowBits w n := by
  simp only [lowBits]
  apply List.map_congr_left
  intro i hi
  exact h i (List.mem_range.mp hi)

@[simp] theorem byteBits_length (b : Byte) : (byteBits b).length = 8 := lowBits_length b 8

@[simp] theorem streamBits_nil : streamBits [] = [] := rfl

@[simp] theorem streamBits_cons (b : Byte) (q : List Byte) :
    streamBits (b :: q) = byteBits b ++ streamBits q := rfl

@[simp] theorem streamBits_append (p q : List Byte) :
    streamBits (p ++ q) = streamBits p ++ streamBits q := List.flatMap_append

@[simp] theorem streamBits_length (q : List Byte) : (streamBits q).length = 8 * q.length := by
  induction q with
  | nil => rfl
  | cons b q ih => simp [ih]; omega

theorem getLsbD_ofBits {k : Nat} (bs : List Bool) (i : Nat) :
    (ofBits k bs).getLsbD i = (decide (i < k) && bs.getD i false) := by
  induction bs generalizing i with
  | nil => simp [ofBits]
  | cons b bs ih =>
    simp only [ofBits, BitVec.getLsbD_or, BitVec.getLsbD_shiftLeft, BitVec.getLsbD_setWidth, ih,
      BitVec.getLsbD_ofBool]
    rcases i with _ | i
    · simp
    · by_cases h : i + 1 < k
      · simp [h, show i < k by omega]
      · simp [h]

/-- Reading a list back out of the value it was assembled into (R64). -/
theorem lowBits_ofBits {k : Nat} (bs : List Bool) (h : bs.length ≤ k) :
    lowBits (ofBits k bs) bs.length = bs := by
  apply List.ext_getElem (by simp)
  intro i h₁ h₂
  have : i < k := by omega
  have hb := getLsbD_ofBits (k := k) bs i
  simp only [lowBits, List.getElem_map, List.getElem_range, hb]
  simp [this, h₂]

theorem ofBits_lowBits {k : Nat} (v : BitVec k) (n i : Nat) :
    (ofBits k (lowBits v n)).getLsbD i = (decide (i < n) && v.getLsbD i) := by
  rw [getLsbD_ofBits]
  by_cases h : i < n
  · by_cases hk : i < k
    · simp [h, hk, lowBits]
    · simp [hk, BitVec.getLsbD_of_ge v i (by omega)]
  · simp [h, lowBits]

/-! ### The packer -/

theorem getLsbD_of_toNat_lt {k : Nat} {v : BitVec k} {n i : Nat} (h : v.toNat < 2 ^ n)
    (hi : n ≤ i) : v.getLsbD i = false :=
  Nat.testBit_lt_two_pow (lt_of_lt_of_le h (Nat.pow_le_pow_right (by decide) hi))

theorem toNat_lt_of_getLsbD {k : Nat} {v : BitVec k} {n : Nat}
    (h : ∀ i, n ≤ i → v.getLsbD i = false) : v.toNat < 2 ^ n := by
  apply Nat.lt_pow_two_of_testBit
  exact h

/-- The bit a PackBit adds, and the bits it keeps. -/
theorem packed_acc_bit {acc : Byte} {n : Nat} (h : acc.toNat < 2 ^ n) (hn : n < 8) (b : Bool)
    (i : Nat) :
    (acc ||| ((BitVec.ofBool b).setWidth 8 <<< n)).getLsbD i =
      if i = n then b else acc.getLsbD i := by
  by_cases hi : i = n
  · subst hi
    rw [BitVec.getLsbD_or, getLsbD_of_toNat_lt h (Nat.le_refl _)]
    simp [hn]
  · by_cases hlt : i < n
    · simp [hi, hlt, show i < 8 by omega]
    · have : i - n ≠ 0 := by omega
      by_cases h8 : i < 8
      · simp [hi, hlt, h8, BitVec.getLsbD_ofBool, this]
      · simp [hi, h8, BitVec.getLsbD_of_ge acc i (by omega)]

/-- PackBit (R100): one more accepted bit, the pending bits stay below `2^PCNT`, and a byte is
emitted exactly when the eighth bit arrives. -/
theorem packBit_spec (b : Bool) {s : State} (h : PackerOk s) :
    packedBits (packBit b s) = packedBits s ++ [b] ∧ PackerOk (packBit b s) := by
  have hp : s.pcnt.toNat < 8 := s.pcnt.isLt
  have hbit := packed_acc_bit h hp b
  have hlow : lowBits (s.pacc ||| ((BitVec.ofBool b).setWidth 8 <<< s.pcnt.toNat))
      (s.pcnt.toNat + 1) = lowBits s.pacc s.pcnt.toNat ++ [b] := by
    rw [lowBits_succ, hbit, if_pos rfl]
    congr 1
    apply lowBits_congr
    intro i hi
    rw [hbit, if_neg (by omega)]
  unfold packBit
  by_cases h7 : s.pcnt = 7#3
  · have h7' : s.pcnt.toNat + 1 = 8 := by rw [h7]; rfl
    rw [h7'] at hlow
    constructor
    · simp [h7, packedBits, emit, byteBits] at hlow ⊢
      simpa using hlow
    · simp [h7, PackerOk]
  · have hne : s.pcnt.toNat ≠ 7 := fun hc => h7 (BitVec.eq_of_toNat_eq hc)
    have hsucc : (s.pcnt + 1#3).toNat = s.pcnt.toNat + 1 := by
      rw [BitVec.toNat_add]
      exact Nat.mod_eq_of_lt (by simp; omega)
    constructor
    · simp only [h7, if_false, packedBits, hsucc, hlow, List.append_assoc]
    · simp only [h7, if_false, PackerOk, hsucc]
      apply toNat_lt_of_getLsbD
      intro i hi
      rw [hbit, if_neg (by omega)]
      exact getLsbD_of_toNat_lt h (by omega)

/-- PackBit over a list (R102, R104, R161): the bits follow those accepted before, in order. -/
theorem packBits_spec (bits : List Bool) {s : State} (h : PackerOk s) :
    packedBits (packBits bits s) = packedBits s ++ bits ∧ PackerOk (packBits bits s) := by
  induction bits generalizing s with
  | nil => exact ⟨(List.append_nil _).symm, h⟩
  | cons b bs ih =>
    have h₁ := packBit_spec b h
    have h₂ := ih h₁.2
    exact ⟨by rw [show packBits (b :: bs) s = packBits bs (packBit b s) from rfl, h₂.1, h₁.1]; simp,
      h₂.2⟩

/-- `SNK` only grows (R32). -/
theorem packBit_snk_prefix (b : Bool) (s : State) : s.snk <+: (packBit b s).snk := by
  unfold packBit
  split
  · exact List.prefix_append _ _
  · exact List.prefix_refl _

theorem packBits_snk_prefix (bits : List Bool) (s : State) : s.snk <+: (packBits bits s).snk := by
  induction bits generalizing s with
  | nil => exact List.prefix_refl _
  | cons b bs ih => exact (packBit_snk_prefix b s).trans (ih (packBit b s))

@[simp] theorem packedBits_length (s : State) :
    (packedBits s).length = 8 * s.snk.length + s.pcnt.toNat := by
  simp [packedBits]

/-- How many bytes are emitted and how many bits stay pending (R102, R161): a sum with a unique
quotient and remainder. -/
theorem packBits_counts (bits : List Bool) {s : State} (h : PackerOk s) :
    (packBits bits s).snk.length = s.snk.length + (s.pcnt.toNat + bits.length) / 8 ∧
      (packBits bits s).pcnt.toNat = (s.pcnt.toNat + bits.length) % 8 := by
  have hl := congrArg List.length (packBits_spec bits h).1
  have hp : (packBits bits s).pcnt.toNat < 8 := (packBits bits s).pcnt.isLt
  simp at hl
  omega

/-! ### The unpacker -/

@[simp] theorem bits_length (u : BitSource) : u.bits.length = u.rem.toNat + 8 * u.queue.length := by
  simp [BitSource.bits]

theorem shifted_lt {v : Byte} {n : Nat} (h : v.toNat < 2 ^ (n + 1)) : (v >>> 1).toNat < 2 ^ n := by
  rw [BitVec.toNat_ushiftRight, Nat.shiftRight_eq_div_pow]
  rw [Nat.pow_succ] at h
  omega

/-- UnpackBit (R110): underrun exactly when no bit is left, else the first bit, and the others stay
in order. -/
theorem unpackBit_spec (u : BitSource) :
    (unpackBit u = none ∧ u.bits = []) ∨
      ∃ b v, unpackBit u = some (b, v) ∧ u.bits = b :: v.bits ∧
        (u.acc.toNat < 2 ^ u.rem.toNat → v.acc.toNat < 2 ^ v.rem.toNat) := by
  rcases u with ⟨acc, rem, queue⟩
  by_cases h : rem = 0#3
  · subst h
    rcases queue with _ | ⟨b, rest⟩
    · exact .inl ⟨rfl, rfl⟩
    · refine .inr ⟨b.getLsbD 0, ⟨b >>> 1, 7#3, rest⟩, rfl, ?_, fun _ => ?_⟩
      · show lowBits acc 0 ++ (lowBits b (7 + 1) ++ streamBits rest) = _
        rw [lowBits_cons]
        rfl
      · exact shifted_lt (n := 7) b.isLt
  · have hpos : rem.toNat ≠ 0 := fun hc => h (BitVec.eq_of_toNat_eq hc)
    have hlt : rem.toNat < 8 := rem.isLt
    have hsub : (rem - 1#3).toNat + 1 = rem.toNat := by
      rw [BitVec.toNat_sub]
      simp
      omega
    refine .inr ⟨acc.getLsbD 0, ⟨acc >>> 1, rem - 1#3, queue⟩, ?_, ?_, fun ha => ?_⟩
    · simp [unpackBit, h]
    · simp only [BitSource.bits]
      rw [← hsub, lowBits_cons]
      rfl
    · apply shifted_lt
      rw [hsub]
      exact ha

/-- UnpackBit `n` times (R111, R114): an underrun exactly when fewer than `n` bits are available,
else the first `n` bits in order, and the others stay. -/
theorem unpackBits_spec (n : Nat) (u : BitSource) :
    (unpackBits n u = none ∧ u.bits.length < n) ∨
      ∃ bs v, unpackBits n u = some (bs, v) ∧ u.bits = bs ++ v.bits ∧ bs.length = n ∧
        (u.acc.toNat < 2 ^ u.rem.toNat → v.acc.toNat < 2 ^ v.rem.toNat) := by
  induction n generalizing u with
  | zero => exact .inr ⟨[], u, rfl, rfl, rfl, id⟩
  | succ n ih =>
    rcases unpackBit_spec u with ⟨h, hb⟩ | ⟨b, v, h, hb, hk⟩
    · exact .inl ⟨by simp [unpackBits, h], by simp [hb]⟩
    · rcases ih v with ⟨h', hl⟩ | ⟨bs, w, h', hb', hl, hk'⟩
      · exact .inl ⟨by simp [unpackBits, h, h'], by simp only [hb, List.length_cons]; omega⟩
      · exact .inr ⟨b :: bs, w, by simp [unpackBits, h, h'], by simp [hb, hb'], by simp [hl],
          fun ha => hk' (hk ha)⟩

@[simp] theorem bitSource_withBitSource (s : State) (u : BitSource) :
    (s.withBitSource u).bitSource = u := rfl

@[simp] theorem unreadBits_withBitSource (s : State) (u : BitSource) :
    unreadBits (s.withBitSource u) = u.bits := rfl

theorem availableBits_eq (u : BitSource) : availableBits u = u.bits.length := by
  simp [availableBits]

/-- The pending byte is its pending bits and zeros (R29, R103). -/
theorem byteBits_pacc {s : State} (h : PackerOk s) :
    byteBits s.pacc =
      lowBits s.pacc s.pcnt.toNat ++ List.replicate (8 - s.pcnt.toNat) false := by
  have hp := s.pcnt.isLt
  apply List.ext_getElem
  · simp; omega
  · intro i h₁ h₂
    simp only [byteBits, lowBits, List.getElem_map, List.getElem_range, List.getElem_append,
      List.length_map, List.length_range, List.getElem_replicate]
    split
    · rfl
    · exact getLsbD_of_toNat_lt h (by omega)

/-- Bytes are pulled from the front, as few as needed (R110). -/
theorem unpackBit_queue {u v : BitSource} {b : Bool} (h : unpackBit u = some (b, v)) :
    v.queue = u.queue.drop (if u.rem = 0#3 then 1 else 0) ∧
      v.rem.toNat = (u.rem.toNat + 7) % 8 := by
  rcases u with ⟨acc, rem, queue⟩
  unfold unpackBit at h
  simp only at h ⊢
  by_cases hr : rem = 0#3
  · rw [if_pos hr] at h
    rcases queue with _ | ⟨q, rest⟩
    · cases h
    · simp only [Option.some.injEq, Prod.mk.injEq] at h
      obtain ⟨-, rfl⟩ := h
      simp [hr]
  · rw [if_neg hr] at h
    simp only [Option.some.injEq, Prod.mk.injEq] at h
    obtain ⟨-, rfl⟩ := h
    have hp : rem.toNat ≠ 0 := fun hc => hr (BitVec.eq_of_toNat_eq hc)
    have := rem.isLt
    simp only [hr, if_false, List.drop_zero, true_and]
    rw [BitVec.toNat_sub]
    simp; omega

theorem unpackBits_queue {n : Nat} {u v : BitSource} {bs : List Bool}
    (h : unpackBits n u = some (bs, v)) :
    v.queue = u.queue.drop ((n - u.rem.toNat + 7) / 8) ∧
      v.rem.toNat = (u.rem.toNat + 7 * n) % 8 := by
  induction n generalizing u bs with
  | zero =>
    simp only [unpackBits, Option.some.injEq, Prod.mk.injEq] at h
    obtain ⟨-, rfl⟩ := h
    have := u.rem.isLt
    simp; omega
  | succ n ih =>
    simp only [unpackBits] at h
    split at h
    · cases h
    · rename_i b w hb
      split at h
      · cases h
      · rename_i bs' v' hv
        simp only [Option.some.injEq, Prod.mk.injEq] at h
        obtain ⟨-, rfl⟩ := h
        obtain ⟨q1, r1⟩ := unpackBit_queue hb
        obtain ⟨q2, r2⟩ := ih hv
        have := u.rem.isLt
        rw [q2, q1, r2, r1, List.drop_drop]
        refine ⟨?_, by omega⟩
        congr 1
        by_cases hz : u.rem = 0#3
        · simp only [hz, if_true, ]; simp; omega
        · have hp : u.rem.toNat ≠ 0 := fun hc => hz (BitVec.eq_of_toNat_eq hc)
          simp only [hz, if_false]; omega

end Sys2Proof.Machine
end

