-- ==== Sys2Proof/Laws/Forest.lean ====
section
/-! SUPPORT. What the merge loop builds (spec/43_tree_builder.md R134, R136, R142): a ghost tree
whose forks the node memory stores, one leaf per distinct symbol. -/

namespace Sys2Proof.Machine

/-- A tree as the node memory links it; `nil` stands for `NIL`. -/
inductive HTree where
  | nil
  | leaf (sym : Byte)
  | fork (id : NodeId) (l r : HTree)
  deriving DecidableEq, Repr

/-- The node id of a tree's root. -/
def HTree.id : HTree → NodeId
  | .nil => Config.nil
  | .leaf sym => sym.setWidth 9
  | .fork id _ _ => id

/-- The leaves, left to right. -/
def HTree.leaves : HTree → List Byte
  | .nil => []
  | .leaf sym => [sym]
  | .fork _ l r => l.leaves ++ r.leaves

/-- Every leaf with its path from the root: 0 = left, 1 = right. -/
def HTree.paths : HTree → List (Byte × List Bool)
  | .nil => []
  | .leaf sym => [(sym, [])]
  | .fork _ l r =>
    (l.paths.map fun p => (p.1, false :: p.2)) ++ (r.paths.map fun p => (p.1, true :: p.2))

/-- The exact sum of the counters below a node (R138). -/
def HTree.weight (cnt : Table Word 256) : HTree → Nat
  | .nil => 0
  | .leaf sym => (readCount cnt sym).toNat
  | .fork _ l r => l.weight cnt + r.weight cnt

def HTree.depth : HTree → Nat
  | .nil => 0
  | .leaf _ => 0
  | .fork _ l r => max l.depth r.depth + 1

/-- No `nil` below: every fork has two children. -/
def HTree.Full : HTree → Prop
  | .nil => False
  | .leaf _ => True
  | .fork _ l r => l.Full ∧ r.Full

/-- The node memory holds every fork of the tree. -/
def HTree.Stored (cnt : Table Word 256) (nodes : Table Node 255) : HTree → Prop
  | .nil => True
  | .leaf _ => True
  | .fork id l r =>
    256 ≤ id.toNat ∧ id.toNat < 511 ∧
      nodeRecord nodes id = ⟨BitVec.ofNat 40 (l.weight cnt + r.weight cnt), l.id, r.id⟩ ∧
      l.Stored cnt nodes ∧ r.Stored cnt nodes

/-- The key of a tree's root in `ACT` (R133). -/
def HTree.key (cnt : Table Word 256) (t : HTree) : Key := ⟨BitVec.ofNat 40 (t.weight cnt), t.id⟩

/-- The node memory holds the records from id `256 + k` on. -/
def Holds (nodes : Table Node 255) : Nat → List Node → Prop
  | _, [] => True
  | k, n :: rest => nodeRecord nodes (BitVec.ofNat 9 (256 + k)) = n ∧ Holds nodes (k + 1) rest

theorem HTree.paths_leaves (t : HTree) : t.paths.map Prod.fst = t.leaves := by
  induction t with
  | nil => rfl
  | leaf sym => rfl
  | fork id l r ihl ihr => simp [HTree.paths, HTree.leaves, Function.comp_def, ← ihl, ← ihr]

theorem HTree.leaves_pos {t : HTree} (h : t.Full) : 0 < t.leaves.length := by
  induction t with
  | nil => exact h.elim
  | leaf sym => simp [HTree.leaves]
  | fork id l r ihl ihr => simp only [HTree.leaves, List.length_append]; have := ihl h.1; omega

theorem HTree.depth_lt_leaves {t : HTree} (h : t.Full) : t.depth < t.leaves.length := by
  induction t with
  | nil => exact h.elim
  | leaf sym => simp [HTree.leaves, HTree.depth]
  | fork id l r ihl ihr =>
    have hl := ihl h.1
    have hr := ihr h.2
    have pl := HTree.leaves_pos h.1
    have pr := HTree.leaves_pos h.2
    simp only [HTree.leaves, HTree.depth, List.length_append]
    omega

theorem HTree.path_length_le {t : HTree} {p : Byte × List Bool} (h : p ∈ t.paths) :
    p.2.length ≤ t.depth := by
  induction t generalizing p with
  | nil => simp [HTree.paths] at h
  | leaf sym => simp [HTree.paths] at h; simp [h]
  | fork id l r ihl ihr =>
    simp only [HTree.paths, List.mem_append, List.mem_map] at h
    simp only [HTree.depth]
    rcases h with ⟨q, hq, rfl⟩ | ⟨q, hq, rfl⟩
    · have := ihl hq; simp only [List.length_cons]; omega
    · have := ihr hq; simp only [List.length_cons]; omega

/-! ### The two removals of a round (R133, R134) -/

theorem takeLeast_perm (k : Key) (xs : List Key) :
    ((takeLeast k xs).1 :: (takeLeast k xs).2).Perm (k :: xs) := by
  induction xs generalizing k with
  | nil => exact List.Perm.refl _
  | cons x xs ih =>
    unfold takeLeast
    split
    · exact ((List.Perm.swap ..).trans ((ih x).cons k))
    · exact ((List.Perm.swap ..).trans (((ih k).cons x).trans (List.Perm.swap ..)))

/-- A round takes two members of `ACT` and leaves the others; it takes none only from fewer than
two. -/
theorem takeTwo_spec (act : List Key) :
    (takeTwo act = none ∧ act.length < 2) ∨
      ∃ a b others, takeTwo act = some (a, b, others) ∧ act.Perm (a :: b :: others) := by
  rcases act with _ | ⟨x, xs⟩
  · exact .inl ⟨rfl, by simp⟩
  · have h := takeLeast_perm x xs
    rcases ht : takeLeast x xs with ⟨a, _ | ⟨y, ys⟩⟩
    · rw [ht] at h
      have := h.length_eq
      simp at this
      exact .inl ⟨by simp [takeTwo, ht], by simp [← this]⟩
    · rw [ht] at h
      have h₂ := takeLeast_perm y ys
      exact .inr ⟨a, _, _, by simp only [takeTwo, ht], h.symm.trans (h₂.symm.cons a)⟩

/-! ### The merge loop -/

/-- A member of `ACT` is the root of some tree of the forest; the rest of `ACT` is the rest of the
forest. -/
theorem forest_pick {cnt : Table Word 256} {a : Key} {others : List Key} {forest : List HTree}
    (h : (a :: others).Perm (forest.map (HTree.key cnt))) :
    ∃ t rest, forest.Perm (t :: rest) ∧ t.key cnt = a ∧
      others.Perm (rest.map (HTree.key cnt)) := by
  have ha : a ∈ forest.map (HTree.key cnt) := h.subset (List.mem_cons_self ..)
  obtain ⟨t, ht, rfl⟩ := List.mem_map.mp ha
  have hp := List.perm_cons_erase ht
  exact ⟨t, forest.erase t, hp, rfl, (h.trans (hp.map _)).cons_inv⟩

theorem mergeRounds_forest (cnt : Table Word 256) (rounds k : Nat) (act : List Key)
    (forest : List HTree) (hact : act.Perm (forest.map (HTree.key cnt)))
    (hr : forest.length ≤ rounds + 1) (hne : forest ≠ []) (hk : k + forest.length ≤ 256) :
    ∃ t : HTree, (mergeRounds rounds k act).length + 1 = forest.length ∧
      t.leaves.Perm (forest.flatMap HTree.leaves) ∧
      t.weight cnt = (forest.map (HTree.weight cnt)).sum ∧
      (forest.length = 1 → forest = [t]) ∧
      (2 ≤ forest.length → t.id = BitVec.ofNat 9 (254 + k + forest.length)) ∧
      ((∀ u ∈ forest, u.Full) → t.Full) ∧
      (∀ nodes, Holds nodes k (mergeRounds rounds k act) → (∀ u ∈ forest, u.Stored cnt nodes) →
        t.Stored cnt nodes) := by
  induction rounds generalizing k act forest with
  | zero =>
    obtain ⟨t, rfl⟩ : ∃ t, forest = [t] := by
      rcases forest with _ | ⟨t, _ | ⟨u, us⟩⟩
      · exact absurd rfl hne
      · exact ⟨t, rfl⟩
      · simp at hr
    exact ⟨t, by simp [mergeRounds], by simp, by simp, fun _ => rfl, by simp,
      fun h => h t (by simp), fun nodes _ h => h t (by simp)⟩
  | succ rounds ih =>
    have hlen : act.length = forest.length := by simpa using hact.length_eq
    rcases takeTwo_spec act with ⟨h, hl⟩ | ⟨a, b, others, h, hp⟩
    · obtain ⟨t, rfl⟩ : ∃ t, forest = [t] := by
        rcases forest with _ | ⟨t, _ | ⟨u, us⟩⟩
        · exact absurd rfl hne
        · exact ⟨t, rfl⟩
        · simp at hlen; omega
      exact ⟨t, by simp [mergeRounds, h], by simp, by simp, fun _ => rfl, by simp,
        fun h => h t (by simp), fun nodes _ h => h t (by simp)⟩
    · obtain ⟨l, rest₁, hf₁, rfl, ho₁⟩ := forest_pick (hp.symm.trans hact)
      obtain ⟨r, rest, hf₂, rfl, ho⟩ := forest_pick ho₁
      have hf : forest.Perm (l :: r :: rest) := hf₁.trans (hf₂.cons l)
      have hfl : forest.length = rest.length + 2 := by simpa using hf.length_eq
      let new := HTree.fork (BitVec.ofNat 9 (256 + k)) l r
      have hkey : new.key cnt = ⟨(l.key cnt).weight + (r.key cnt).weight,
          BitVec.ofNat 9 (Config.firstInternal + k)⟩ := by
        simp only [HTree.key, new, HTree.weight, HTree.id, BitVec.ofNat_add]
      obtain ⟨t, hcl, hlv, hw, h1, h2, hfull, hst⟩ := ih (k + 1)
        (⟨(l.key cnt).weight + (r.key cnt).weight,
          BitVec.ofNat 9 (Config.firstInternal + k)⟩ :: others) (new :: rest)
        (by rw [← hkey]; exact ho.cons _) (by simp; omega) (by simp) (by simp; omega)
      refine ⟨t, ?_, ?_, ?_, ?_, ?_, ?_, ?_⟩
      · simp only [mergeRounds, h, List.length_cons]
        simp only [List.length_cons] at hcl
        omega
      · refine hlv.trans (List.Perm.trans ?_ (hf.flatMap_right _).symm)
        simp [new, HTree.leaves]
      · rw [hw, (hf.map _).sum_eq]
        simp [new, HTree.weight, Nat.add_assoc]
      · intro hc; omega
      · intro _
        by_cases hrest : rest = []
        · subst hrest
          have := h1 (by simp)
          simp only [List.cons.injEq, and_true] at this
          rw [← this]
          simp only [new, HTree.id]
          congr 1
          simp at hfl
          omega
        · have hpos : 0 < rest.length := List.length_pos_iff.mpr hrest
          rw [h2 (by simp; omega)]
          congr 1
          simp
          omega
      · intro hall
        apply hfull
        intro u hu
        rcases List.mem_cons.mp hu with rfl | hu
        · exact ⟨hall l (hf.symm.subset (by simp)), hall r (hf.symm.subset (by simp))⟩
        · exact hall u (hf.symm.subset (by simp [hu]))
      · intro nodes hh hall
        simp only [mergeRounds, h, Holds] at hh
        apply hst nodes hh.2
        intro u hu
        rcases List.mem_cons.mp hu with rfl | hu
        · have hn : (BitVec.ofNat 9 (256 + k)).toNat = 256 + k := by
            rw [BitVec.toNat_ofNat]; omega
          refine ⟨by omega, by omega, ?_, hall l (hf.symm.subset (by simp)),
            hall r (hf.symm.subset (by simp))⟩
          rw [hh.1]
          simp [mergedNode, HTree.key, BitVec.ofNat_add]
        · exact hall u (hf.symm.subset (by simp [hu]))

/-- Every node a round creates has children with smaller ids (R142). -/
theorem mergeRounds_children (rounds k : Nat) (act : List Key)
    (hact : ∀ x ∈ act, x.id.toNat < 256 + k) (hk : k + act.length ≤ 256) (j : Nat)
    (hj : j < (mergeRounds rounds k act).length) :
    (mergeRounds rounds k act)[j].left.toNat < 256 + k + j ∧
      (mergeRounds rounds k act)[j].right.toNat < 256 + k + j := by
  induction rounds generalizing k act j with
  | zero => simp [mergeRounds] at hj
  | succ rounds ih =>
    rcases takeTwo_spec act with ⟨h, hl⟩ | ⟨a, b, others, h, hp⟩
    · simp [mergeRounds, h] at hj
    · have hlen : act.length = others.length + 2 := by simpa using hp.length_eq
      have ha := hact a (hp.symm.subset (by simp))
      have hb := hact b (hp.symm.subset (by simp))
      simp only [mergeRounds, h] at hj ⊢
      rcases j with _ | j
      · exact ⟨ha, hb⟩
      · have hn : (BitVec.ofNat 9 (Config.firstInternal + k)).toNat = 256 + k := by
          rw [BitVec.toNat_ofNat]; simp only [Config.firstInternal]; omega
        let next : List Key :=
          ⟨a.weight + b.weight, BitVec.ofNat 9 (Config.firstInternal + k)⟩ :: others
        have hnext : ∀ x ∈ next, x.id.toNat < 256 + (k + 1) := by
          intro x hx
          rcases List.mem_cons.mp hx with rfl | hx
          · show (BitVec.ofNat 9 (Config.firstInternal + k)).toNat < _
            omega
          · have := hact x (hp.symm.subset (by simp [hx]))
            omega
        have := ih (k + 1) next hnext (by simp only [next, List.length_cons]; omega) j
          (by simpa using hj)
        rw [show 256 + k + (j + 1) = 256 + (k + 1) + j by omega]
        exact this

/-- Completeness (R152): every infinite bit sequence begins with exactly one path of a full tree. -/
theorem HTree.full_complete {t : HTree} (h : t.Full) (f : Nat → Bool) :
    ∃ sym bs, (sym, bs) ∈ t.paths ∧ bs = (List.range bs.length).map f ∧
      ∀ sym' bs', (sym', bs') ∈ t.paths → bs' = (List.range bs'.length).map f →
        sym' = sym ∧ bs' = bs := by
  induction t generalizing f with
  | nil => exact h.elim
  | leaf s =>
    refine ⟨s, [], by simp [HTree.paths], rfl, ?_⟩
    intro sym' bs' hm _
    simpa [HTree.paths] using hm
  | fork id l r ihl ihr =>
    have shift : ∀ (b : Bool) (bs : List Bool), b :: bs = (List.range (b :: bs).length).map f ↔
        b = f 0 ∧ bs = (List.range bs.length).map fun n => f (n + 1) := by
      intro b bs
      rw [List.length_cons, List.range_succ_eq_map]
      simp [Function.comp_def]
    cases h0 : f 0
    · obtain ⟨sym, bs, hm, he, hu⟩ := ihl h.1 (fun n => f (n + 1))
      refine ⟨sym, false :: bs, ?_, (shift _ _).mpr ⟨h0.symm, he⟩, ?_⟩
      · simp only [HTree.paths, List.mem_append, List.mem_map]; exact .inl ⟨_, hm, rfl⟩
      · intro sym' bs' hm' he'
        simp only [HTree.paths, List.mem_append, List.mem_map] at hm'
        rcases hm' with ⟨⟨x, ys⟩, hp, hq⟩ | ⟨⟨x, ys⟩, hp, hq⟩
        · simp only [Prod.mk.injEq] at hq
          obtain ⟨rfl, rfl⟩ := hq
          have := hu x ys hp ((shift _ _).mp he').2
          simp [this]
        · simp only [Prod.mk.injEq] at hq
          obtain ⟨rfl, rfl⟩ := hq
          have := ((shift _ _).mp he').1
          rw [h0] at this; cases this
    · obtain ⟨sym, bs, hm, he, hu⟩ := ihr h.2 (fun n => f (n + 1))
      refine ⟨sym, true :: bs, ?_, (shift _ _).mpr ⟨h0.symm, he⟩, ?_⟩
      · simp only [HTree.paths, List.mem_append, List.mem_map]; exact .inr ⟨_, hm, rfl⟩
      · intro sym' bs' hm' he'
        simp only [HTree.paths, List.mem_append, List.mem_map] at hm'
        rcases hm' with ⟨⟨x, ys⟩, hp, hq⟩ | ⟨⟨x, ys⟩, hp, hq⟩
        · simp only [Prod.mk.injEq] at hq
          obtain ⟨rfl, rfl⟩ := hq
          have := ((shift _ _).mp he').1
          rw [h0] at this; cases this
        · simp only [Prod.mk.injEq] at hq
          obtain ⟨rfl, rfl⟩ := hq
          have := hu x ys hp ((shift _ _).mp he').2
          simp [this]

end Sys2Proof.Machine
end

