-- ==== Sys2Proof/Laws/Builder.lean ====
section
/-! SUPPORT. What BUILD leaves (spec/43_tree_builder.md R131 to R142, spec/44_code_table.md R150 to
R153): a stored tree whose leaves are the distinct symbols, and a code table that holds the path to
each. -/

namespace Sys2Proof.Machine

/-! ### The node memory -/

theorem storeNodes_read (k : Nat) (created : List Node) (nodes : Table Node 255) (i : Nat)
    (hi : i < 255) :
    readCell (storeNodes k created nodes) i hi =
      if h : k ≤ i ∧ i < k + created.length then created[i - k]'(by omega)
      else readCell nodes i hi := by
  induction created generalizing k nodes with
  | nil => simp [storeNodes]
  | cons n rest ih =>
    simp only [storeNodes, ih (k + 1) (writeCell nodes k n), List.length_cons]
    by_cases h : i = k
    · subst h
      simp
    · by_cases h₁ : k + 1 ≤ i ∧ i < k + 1 + rest.length
      · rw [dif_pos h₁, dif_pos (by omega)]
        have : i - k = i - (k + 1) + 1 := by omega
        simp [this]
      · rw [dif_neg h₁, dif_neg (by omega), readCell_writeCell_ne _ _ _ (Ne.symm h)]

/-- Writing the same records again changes nothing. -/
theorem storeNodes_idem (k : Nat) (created : List Node) (nodes : Table Node 255) :
    storeNodes k created (storeNodes k created nodes) = storeNodes k created nodes := by
  apply table_ext
  intro i hi
  rw [storeNodes_read]
  split
  · rename_i h
    rw [storeNodes_read, dif_pos h]
  · rfl

theorem nodeRecord_cell (nodes : Table Node 255) (i : Nat) (hi : i < 255) :
    nodeRecord nodes (BitVec.ofNat 9 (256 + i)) = readCell nodes i hi := by
  have hn : (BitVec.ofNat 9 (256 + i)).toNat = 256 + i := by
    rw [BitVec.toNat_ofNat]; omega
  unfold nodeRecord
  rw [dif_pos (by omega)]
  simp only [hn, Nat.add_sub_cancel_left]

theorem holds_of_cells {nodes : Table Node 255} (created : List Node) (k : Nat)
    (hk : k + created.length ≤ 255)
    (h : ∀ j (hj : j < created.length), readCell nodes (k + j) (by omega) = created[j]) :
    Holds nodes k created := by
  induction created generalizing k with
  | nil => trivial
  | cons n rest ih =>
    simp only [List.length_cons] at hk
    refine ⟨?_, ih (k + 1) (by omega) fun j hj => ?_⟩
    · rw [nodeRecord_cell nodes k (by omega)]
      exact h 0 (by simp)
    · have := h (j + 1) (by simpa using hj)
      simp only [List.getElem_cons_succ] at this
      rw [← this]
      congr 1
      omega

theorem storeNodes_holds (created : List Node) (nodes : Table Node 255)
    (hk : created.length ≤ 255) : Holds (storeNodes 0 created nodes) 0 created := by
  apply holds_of_cells created 0 (by omega)
  intro j hj
  rw [storeNodes_read, dif_pos (by omega)]
  simp

/-! ### The leaves (R132) -/

theorem mem_leafSymbols (cnt : Table Word 256) (sym : Byte) :
    sym ∈ leafSymbols cnt ↔ readCount cnt sym ≠ 0#32 := by
  simp only [leafSymbols, List.mem_filter, List.mem_map, List.mem_range, bne_iff_ne]
  exact ⟨fun h => h.2, fun h => ⟨⟨sym.toNat, sym.isLt, BitVec.ofNat_toNat ..|>.trans (by simp)⟩, h⟩⟩

theorem leafSymbols_nodup (cnt : Table Word 256) : (leafSymbols cnt).Nodup := by
  apply List.Nodup.filter
  apply List.Nodup.map_on _ List.nodup_range
  intro x hx y hy h
  have := congrArg BitVec.toNat h
  simp only [BitVec.toNat_ofNat] at this
  have := List.mem_range.mp hx
  have := List.mem_range.mp hy
  omega

theorem leafSymbols_length_le (cnt : Table Word 256) : (leafSymbols cnt).length ≤ 256 := by
  refine (List.length_filter_le ..).trans ?_
  simp

/-- The members `ACT` starts with are the one-leaf trees (R132, R134). -/
theorem leafKeys_eq (cnt : Table Word 256) :
    leafKeys cnt = ((leafSymbols cnt).map HTree.leaf).map (HTree.key cnt) := by
  simp only [leafKeys, List.map_map]
  apply List.map_congr_left
  intro sym _
  simp only [Function.comp, HTree.key, HTree.weight, HTree.id, leafWeight]
  congr 1
  apply BitVec.eq_of_toNat_eq
  simp

theorem treeNodes_single {cnt : Table Word 256} {leaf : Key} (h : leafKeys cnt = [leaf]) :
    treeNodes cnt = [⟨leaf.weight, leaf.id, Config.nil⟩] := by
  simp only [treeNodes, h]

theorem treeNodes_many {cnt : Table Word 256} (h : 2 ≤ (leafKeys cnt).length) :
    treeNodes cnt = mergeRounds (leafKeys cnt).length 0 (leafKeys cnt) := by
  unfold treeNodes
  split
  · rename_i heq
    simp [heq] at h
  · rfl

/-- What `treeNodes` builds: one stored tree over the distinct symbols, in whatever node memory its
records are held (R134, R136, R139). -/
theorem treeNodes_forest (cnt : Table Word 256) (hne : leafSymbols cnt ≠ []) :
    ∃ t : HTree, t.leaves.Perm (leafSymbols cnt) ∧
      t.weight cnt = ((leafSymbols cnt).map fun sym => (readCount cnt sym).toNat).sum ∧
      1 ≤ (treeNodes cnt).length ∧ (treeNodes cnt).length ≤ 255 ∧
      (treeNodes cnt).length = max 1 ((leafSymbols cnt).length - 1) ∧
      t.id = BitVec.ofNat 9 (255 + (treeNodes cnt).length) ∧
      t.depth ≤ (treeNodes cnt).length ∧
      (2 ≤ (leafSymbols cnt).length → t.Full) ∧
      (∀ sym, leafSymbols cnt = [sym] → t = .fork 256#9 (.leaf sym) .nil) ∧
      ∀ nodes, Holds nodes 0 (treeNodes cnt) → t.Stored cnt nodes := by
  have hle := leafSymbols_length_le cnt
  have hkeys := leafKeys_eq cnt
  rcases hs : leafSymbols cnt with _ | ⟨a, _ | ⟨b, rest⟩⟩
  · exact absurd hs hne
  · rw [hs] at hkeys
    simp only [List.map_cons, List.map_nil] at hkeys
    rw [treeNodes_single hkeys]
    refine ⟨.fork 256#9 (.leaf a) .nil, ?_⟩
    refine ⟨by simp [HTree.leaves], by simp [HTree.weight], by simp, by simp, by simp, rfl,
      by simp [HTree.depth], by simp, ?_, ?_⟩
    · intro sym h
      simp only [List.cons.injEq, and_true] at h
      rw [h]
    · intro nodes h
      refine ⟨by decide, by decide, ?_, trivial, trivial⟩
      exact h.1
  · rw [hs] at hkeys hle
    have hlen : (leafKeys cnt).length = rest.length + 2 := by rw [hkeys]; simp
    simp only [List.length_cons] at hle
    obtain ⟨t, hcl, hlv, hw, -, h2, hfull, hst⟩ := mergeRounds_forest cnt
      (leafKeys cnt).length 0 (leafKeys cnt) ((a :: b :: rest).map HTree.leaf)
      (by rw [hkeys]) (by simp [hlen]) (by simp) (by simp; omega)
    rw [treeNodes_many (by omega)]
    have hlv' : t.leaves.Perm (a :: b :: rest) := by
      refine hlv.trans (List.Perm.of_eq ?_)
      generalize a :: b :: rest = l
      induction l with
      | nil => rfl
      | cons x xs ih => simp [HTree.leaves, ih]
    have hF : t.Full := hfull (by
      intro u hu
      obtain ⟨sym, -, rfl⟩ := List.mem_map.mp hu
      trivial)
    simp only [List.length_map, List.length_cons] at hcl h2
    refine ⟨t, hlv', ?_, by omega, by omega, by simp; omega, ?_, ?_, fun _ => hF, by simp, ?_⟩
    · rw [hw]
      simp [Function.comp_def, HTree.weight]
    · rw [h2 (by omega)]
      congr 1
      omega
    · have := HTree.depth_lt_leaves hF
      have := hlv'.length_eq
      simp only [List.length_cons] at this
      omega
    · intro nodes h
      exact hst nodes h (by
        intro u hu
        obtain ⟨sym, -, rfl⟩ := List.mem_map.mp hu
        trivial)

/-! ### Paths -/

theorem childOf_not_internal {nodes : Table Node 255} {i : NodeId}
    (h : i.toNat < 256 ∨ i = Config.nil)
    (b : Bool) : childOf nodes i b = Config.nil := by
  have : ¬ (256 ≤ i.toNat ∧ i.toNat < 511) := by
    rcases h with h | h
    · omega
    · rw [h]; decide
  simp [childOf, nodeRecord, this]

theorem pathEnd_nil (nodes : Table Node 255) (bs : List Bool) :
    pathEnd nodes Config.nil bs = Config.nil := by
  induction bs with
  | nil => rfl
  | cons b bs ih => rw [pathEnd, childOf_not_internal (.inr rfl), ih]

theorem leaf_id_toNat (sym : Byte) : (HTree.leaf sym).id.toNat = sym.toNat := by
  have := sym.isLt
  simp only [HTree.id, BitVec.toNat_setWidth]
  omega

theorem childOf_fork {cnt : Table Word 256} {nodes : Table Node 255} {id : NodeId} {l r : HTree}
    (h : (HTree.fork id l r).Stored cnt nodes) (b : Bool) :
    childOf nodes id b = if b then r.id else l.id := by
  simp only [childOf, h.2.2.1]

/-- In a stored tree, the paths that end at a leaf are the tree's own, one for each leaf (R142). -/
theorem pathEnd_eq_leaf_iff {cnt : Table Word 256} {nodes : Table Node 255} {t : HTree}
    (h : t.Stored cnt nodes) (sym : Byte) (bs : List Bool) :
    pathEnd nodes t.id bs = sym.setWidth 9 ↔ (sym, bs) ∈ t.paths := by
  have hs : (sym.setWidth 9 : NodeId).toNat = sym.toNat := leaf_id_toNat sym
  have hlt := sym.isLt
  have hnil : (Config.nil : NodeId) ≠ sym.setWidth 9 := by
    intro hc
    have := congrArg BitVec.toNat hc
    rw [hs] at this
    simp [Config.nil] at this
    omega
  induction t generalizing bs with
  | nil => simp [HTree.id, pathEnd_nil, HTree.paths, hnil]
  | leaf s =>
    rcases bs with _ | ⟨b, bs⟩
    · simp only [pathEnd, HTree.id, HTree.paths, List.mem_singleton, Prod.mk.injEq, and_true]
      constructor
      · intro hc
        have := congrArg BitVec.toNat hc
        rw [hs, show (s.setWidth 9 : NodeId).toNat = s.toNat from leaf_id_toNat s] at this
        exact (BitVec.eq_of_toNat_eq this).symm
      · rintro rfl
        rfl
    · have : (HTree.leaf s).id.toNat < 256 := by rw [leaf_id_toNat]; exact s.isLt
      simp [pathEnd, childOf_not_internal (.inl this), pathEnd_nil, HTree.paths, hnil]
  | fork id l r ihl ihr =>
    rcases bs with _ | ⟨b, bs⟩
    · have : (HTree.fork id l r).id ≠ sym.setWidth 9 := by
        intro hc
        have hc' := congrArg BitVec.toNat hc
        rw [hs] at hc'
        have := h.1
        simp only [HTree.id] at hc'
        omega
      simp [pathEnd, HTree.paths, this]
    · have hid : pathEnd nodes (HTree.fork id l r).id (b :: bs) =
          pathEnd nodes (if b then r.id else l.id) bs := by
        rw [← childOf_fork h]
        rfl
      rw [hid]
      cases b
      · simp [HTree.paths, ← ihl h.2.2.2.1 bs]
      · simp [HTree.paths, ← ihr h.2.2.2.2 bs]

/-! ### The code table (R150, R151) -/

/-- The entry a path puts into the table, from depth `d` and pattern `p` on (R150, R151). -/
def writePath (d : Nat) (p : Pattern) (code : Table Code 256) (q : Byte × List Bool) :
    Table Code 256 :=
  writeCell code q.1.toNat ⟨BitVec.ofNat 8 (d + q.2.length), p ||| (ofBits 256 q.2 <<< d)⟩

theorem writePath_left (d : Nat) (p : Pattern) (code : Table Code 256) (q : Byte × List Bool) :
    writePath d p code (q.1, false :: q.2) = writePath (d + 1) p code q := by
  simp only [writePath, List.length_cons]
  congr 2
  · congr 1
    omega
  · simp only [ofBits]
    congr 1
    rw [Nat.add_comm d 1, BitVec.shiftLeft_add]
    simp

theorem writePath_right (d : Nat) (p : Pattern) (code : Table Code 256) (q : Byte × List Bool) :
    writePath d p code (q.1, true :: q.2) = writePath (d + 1) (p ||| (1#256 <<< d)) code q := by
  simp only [writePath, List.length_cons]
  congr 2
  · congr 1
    omega
  · simp only [ofBits]
    rw [Nat.add_comm d 1, BitVec.shiftLeft_add, BitVec.shiftLeft_or_distrib, BitVec.or_assoc]
    congr 1
    rw [BitVec.or_comm]
    rfl

/-- `Visit` over a stored tree writes one entry for each path (R150). -/
theorem visit_stored {cnt : Table Word 256} {nodes : Table Node 255} {t : HTree}
    (h : t.Stored cnt nodes) (fuel d : Nat) (p : Pattern) (code : Table Code 256)
    (hf : t.depth < fuel) :
    visit nodes fuel t.id d p code = t.paths.foldl (writePath d p) code := by
  induction t generalizing fuel d p code with
  | nil =>
    rcases fuel with _ | fuel
    · omega
    · simp [visit, HTree.id, HTree.paths]
  | leaf sym =>
    rcases fuel with _ | fuel
    · omega
    · have hn := leaf_id_toNat sym
      have hlt := sym.isLt
      have hne : (HTree.leaf sym).id ≠ Config.nil := by
        intro hc
        rw [hc] at hn
        simp [Config.nil] at hn
        omega
      simp only [visit, hne, if_false, hn, HTree.paths, List.foldl, writePath, ofBits]
      rw [if_pos (by simpa using hlt)]
      simp
  | fork id l r ihl ihr =>
    rcases fuel with _ | fuel
    · omega
    · simp only [HTree.depth] at hf
      have h1 := h.1
      have h2 := h.2.1
      have hne : id ≠ Config.nil := by
        intro hc
        rw [hc] at h2
        exact absurd h2 (by decide)
      rw [show (HTree.fork id l r).id = id from rfl]
      simp only [visit, hne, if_false]
      rw [if_neg (by simp [Config.firstInternal]; omega), childOf_fork h, childOf_fork h]
      simp only [if_true, Bool.false_eq_true, if_false]
      rw [ihl h.2.2.2.1 fuel _ _ _ (by omega), ihr h.2.2.2.2 fuel _ _ _ (by omega)]
      simp only [HTree.paths, List.foldl_append, List.foldl_map, writePath_left, writePath_right]

theorem foldl_writePath_read (d : Nat) (p : Pattern) (l : List (Byte × List Bool))
    (hl : (l.map Prod.fst).Nodup) (code : Table Code 256) (sym : Byte) :
    (∀ bs, (sym, bs) ∈ l → readCode (l.foldl (writePath d p) code) sym =
        ⟨BitVec.ofNat 8 (d + bs.length), p ||| (ofBits 256 bs <<< d)⟩) ∧
      (sym ∉ l.map Prod.fst → readCode (l.foldl (writePath d p) code) sym = readCode code sym) := by
  induction l generalizing code with
  | nil => simp
  | cons q l ih =>
    simp only [List.map_cons, List.nodup_cons] at hl
    have := ih hl.2 (writePath d p code q)
    constructor
    · intro bs hbs
      rcases List.mem_cons.mp hbs with rfl | hbs
      · rw [List.foldl_cons, this.2 hl.1]
        simp [readCode, writePath]
      · exact this.1 bs hbs
    · intro hs
      simp only [List.map_cons, List.mem_cons, not_or] at hs
      rw [List.foldl_cons, this.2 hs.2]
      have : q.1.toNat ≠ sym.toNat := fun hc => hs.1 (BitVec.eq_of_toNat_eq hc).symm
      simp only [readCode, writePath]
      exact readCell_writeCell_ne _ _ _ this

/-- The code table of a stored tree: for each leaf its path, for every other symbol no code (R150,
R151, R152). -/
theorem deriveCodes_stored {cnt : Table Word 256} {nodes : Table Node 255} {t : HTree}
    (h : t.Stored cnt nodes) (hd : t.depth < 256) (hn : t.leaves.Nodup) (sym : Byte) :
    (∀ bs, (sym, bs) ∈ t.paths →
        readCode (deriveCodes nodes t.id) sym = ⟨BitVec.ofNat 8 bs.length, ofBits 256 bs⟩) ∧
      (sym ∉ t.leaves → readCode (deriveCodes nodes t.id) sym = ⟨0#8, 0#256⟩) := by
  have := foldl_writePath_read 0 0#256 t.paths (by rw [t.paths_leaves]; exact hn)
    (Table.fill 256 ⟨0#8, 0#256⟩) sym
  unfold deriveCodes
  rw [visit_stored h 256 0 0#256 _ hd]
  rw [t.paths_leaves] at this
  constructor
  · intro bs hbs
    rw [this.1 bs hbs]
    simp
  · intro hs
    rw [this.2 hs]
    simp

/-- The derived table does not depend on what else the node memory holds (R139). -/
theorem deriveCodes_congr {cnt : Table Word 256} {nodes nodes' : Table Node 255} {t : HTree}
    (h : t.Stored cnt nodes) (h' : t.Stored cnt nodes') (hd : t.depth < 256) :
    deriveCodes nodes t.id = deriveCodes nodes' t.id := by
  unfold deriveCodes
  rw [visit_stored h 256 0 0#256 _ hd, visit_stored h' 256 0 0#256 _ hd]

end Sys2Proof.Machine
end

