-- ==== Sys2Proof/Laws/Counters.lean ====
section
/-! SUPPORT. The counter file read as a whole: `TOTAL`, `NDIST` (spec/10_state.md R42, R43) and
the leaves of a table (spec/43_tree_builder.md R132). -/

namespace Sys2Proof.Machine

/-- The cells of the counter file, one for each symbol (R24). -/
theorem cells_eq (cnt : Table Word 256) :
    cnt.cells = (List.range 256).map fun k => readCount cnt (BitVec.ofNat 8 k) := by
  apply List.ext_getElem
  · simp [cnt.size]
  · intro i h₁ h₂
    have hi : i < 256 := by simpa using h₂
    have hm : i % 256 = i := Nat.mod_eq_of_lt hi
    simp [readCount, readCell, hm]

/-- `TOTAL` as a sum over the symbols (R42). -/
theorem countSum_eq (cnt : Table Word 256) :
    countSum cnt =
      ((List.range 256).map fun k => (readCount cnt (BitVec.ofNat 8 k)).toNat).sum := by
  rw [countSum, cells_eq, List.map_map]; rfl

/-- `NDIST` as a count over the symbols (R43). -/
theorem distinct_eq (cnt : Table Word 256) :
    distinct cnt =
      ((List.range 256).filter fun k => readCount cnt (BitVec.ofNat 8 k) != 0#32).length := by
  rw [distinct, cells_eq, List.countP_map, List.countP_eq_length_filter]; rfl

/-- The sum of the counters fits 40 bits (R42). -/
theorem countSum_lt (cnt : Table Word 256) : countSum cnt < 2 ^ 40 := by
  have h : ∀ l : List Word, (l.map BitVec.toNat).sum ≤ l.length * (2 ^ 32 - 1) := by
    intro l
    induction l with
    | nil => simp
    | cons x l ih =>
      have := x.isLt
      simp only [List.map_cons, List.sum_cons, List.length_cons]
      omega
  have := h cnt.cells
  rw [cnt.size] at this
  unfold countSum
  omega

/-- The leaves are as many as the distinct symbols (R132). -/
theorem leafSymbols_length (cnt : Table Word 256) : (leafSymbols cnt).length = distinct cnt := by
  rw [distinct_eq, leafSymbols, List.filter_map, List.length_map]; rfl

theorem distinct_le (cnt : Table Word 256) : distinct cnt ≤ 256 := by
  rw [← leafSymbols_length]; exact leafSymbols_length_le cnt

/-- The counters of the leaves sum to `TOTAL` (R138). -/
theorem leaf_sum (cnt : Table Word 256) :
    ((leafSymbols cnt).map fun sym => (readCount cnt sym).toNat).sum = countSum cnt := by
  rw [countSum_eq, leafSymbols, List.filter_map, List.map_map]
  generalize List.range 256 = l
  induction l with
  | nil => rfl
  | cons k l ih =>
    by_cases h : readCount cnt (BitVec.ofNat 8 k) = 0#32
    · simp [h] at ih ⊢
      exact ih
    · simp [h] at ih ⊢
      exact ih

end Sys2Proof.Machine
end

