-- ==== Sys2Proof/Laws/Decoding.lean ====
section
/-! SUPPORT. The fields of a command word, and what its shape test says of them (spec/30_encoding.md
R81, R82, R90). -/

namespace Sys2Proof

/-- Any 64-bit word, by its five fields (R81). -/
def rawWord (o a b r : Byte) (d : Word) : CmdWord := o ++ a ++ b ++ r ++ d

/-- `RSV`, bits 39:32 (R81). -/
def rsvField (c : CmdWord) : Byte := c.extractLsb' 32 8

theorem toNat_append_add {m n : Nat} (x : BitVec m) (y : BitVec n) :
    (x ++ y).toNat = x.toNat * 2 ^ n + y.toNat := by
  rw [BitVec.toNat_append, ← Nat.shiftLeft_add_eq_or_of_lt y.isLt, Nat.shiftLeft_eq]

theorem rawWord_toNat (o a b r : Byte) (d : Word) :
    (rawWord o a b r d).toNat =
      (((o.toNat * 2 ^ 8 + a.toNat) * 2 ^ 8 + b.toNat) * 2 ^ 8 + r.toNat) * 2 ^ 32 + d.toNat := by
  simp only [rawWord, toNat_append_add]

theorem rawWord_fields (c : CmdWord) :
    rawWord (opcField c) (aField c) (bField c) (rsvField c) (dataField c) = c := by
  apply BitVec.eq_of_toNat_eq
  rw [rawWord_toNat]
  simp only [opcField, aField, bField, rsvField, dataField, BitVec.extractLsb'_toNat,
    Nat.shiftRight_eq_div_pow]
  have := c.isLt
  omega

theorem opcField_toNat (c : CmdWord) : (opcField c).toNat = c.toNat / 2 ^ 56 % 2 ^ 8 := by
  simp only [opcField, BitVec.extractLsb'_toNat, Nat.shiftRight_eq_div_pow]

theorem aField_toNat (c : CmdWord) : (aField c).toNat = c.toNat / 2 ^ 48 % 2 ^ 8 := by
  simp only [aField, BitVec.extractLsb'_toNat, Nat.shiftRight_eq_div_pow]

theorem bField_toNat (c : CmdWord) : (bField c).toNat = c.toNat / 2 ^ 40 % 2 ^ 8 := by
  simp only [bField, BitVec.extractLsb'_toNat, Nat.shiftRight_eq_div_pow]

theorem rsvField_toNat (c : CmdWord) : (rsvField c).toNat = c.toNat / 2 ^ 32 % 2 ^ 8 := by
  simp only [rsvField, BitVec.extractLsb'_toNat, Nat.shiftRight_eq_div_pow]

theorem dataField_toNat (c : CmdWord) : (dataField c).toNat = c.toNat % 2 ^ 32 := by
  simp [dataField]

theorem nodeField_toNat (c : CmdWord) : (nodeField c).toNat = c.toNat % 2 ^ 9 := by
  simp [nodeField]

@[simp] theorem opcField_rawWord (o a b r : Byte) (d : Word) :
    opcField (rawWord o a b r d) = o := by
  apply BitVec.eq_of_toNat_eq
  rw [opcField_toNat, rawWord_toNat]
  have := o.isLt; have := a.isLt; have := b.isLt; have := r.isLt; have := d.isLt
  omega

@[simp] theorem aField_rawWord (o a b r : Byte) (d : Word) : aField (rawWord o a b r d) = a := by
  apply BitVec.eq_of_toNat_eq
  rw [aField_toNat, rawWord_toNat]
  have := o.isLt; have := a.isLt; have := b.isLt; have := r.isLt; have := d.isLt
  omega

@[simp] theorem bField_rawWord (o a b r : Byte) (d : Word) : bField (rawWord o a b r d) = b := by
  apply BitVec.eq_of_toNat_eq
  rw [bField_toNat, rawWord_toNat]
  have := o.isLt; have := a.isLt; have := b.isLt; have := r.isLt; have := d.isLt
  omega

@[simp] theorem rsvField_rawWord (o a b r : Byte) (d : Word) :
    rsvField (rawWord o a b r d) = r := by
  apply BitVec.eq_of_toNat_eq
  rw [rsvField_toNat, rawWord_toNat]
  have := o.isLt; have := a.isLt; have := b.isLt; have := r.isLt; have := d.isLt
  omega

@[simp] theorem dataField_rawWord (o a b r : Byte) (d : Word) :
    dataField (rawWord o a b r d) = d := by
  apply BitVec.eq_of_toNat_eq
  rw [dataField_toNat, rawWord_toNat]
  have := o.isLt; have := a.isLt; have := b.isLt; have := r.isLt; have := d.isLt
  omega

theorem nodeField_rawWord (o a b r : Byte) (d : Word) :
    nodeField (rawWord o a b r d) = d.setWidth 9 := by
  apply BitVec.eq_of_toNat_eq
  rw [nodeField_toNat, rawWord_toNat, BitVec.toNat_setWidth]
  omega

@[simp] theorem commandWord_eq (o a b : Byte) (d : Word) :
    commandWord o a b d = rawWord o a b 0 d := rfl

theorem rawWord_inj {o a b r o' a' b' r' : Byte} {d d' : Word} :
    rawWord o a b r d = rawWord o' a' b' r' d' ↔ o = o' ∧ a = a' ∧ b = b' ∧ r = r' ∧ d = d' := by
  constructor
  · intro h
    exact ⟨by simpa using congrArg opcField h, by simpa using congrArg aField h,
      by simpa using congrArg bField h, by simpa using congrArg rsvField h,
      by simpa using congrArg dataField h⟩
  · rintro ⟨rfl, rfl, rfl, rfl, rfl⟩
    rfl

theorem rawWord_and (o a b r o' a' b' r' : Byte) (d d' : Word) :
    rawWord o a b r d &&& rawWord o' a' b' r' d' =
      rawWord (o &&& o') (a &&& a') (b &&& b') (r &&& r') (d &&& d') := by
  show (o ++ a ++ b ++ r ++ d : BitVec (8 + 8 + 8 + 8 + 32)) &&&
    (o' ++ a' ++ b' ++ r' ++ d' : BitVec (8 + 8 + 8 + 8 + 32)) = _
  simp only [BitVec.and_append, rawWord]

theorem opcode_zeros (o : Byte) : (o ++ 0#56 : CmdWord) = rawWord o 0 0 0 0 := by
  apply BitVec.eq_of_toNat_eq
  rw [rawWord_toNat, toNat_append_add]
  simp
  omega

/-- The must-be-zero fields of a format (R82). -/
def unusedZero (f : Format) (a b : Byte) (d : Word) : Prop :=
  match f with
  | .z => a = 0#8 ∧ b = 0#8 ∧ d = 0#32
  | .a => b = 0#8 ∧ d = 0#32
  | .ab => d = 0#32
  | .ad => b = 0#8
  | .adNode => b = 0#8 ∧ d.toNat < 512

theorem data_and_nodeMask (d : Word) : d &&& 0xFFFFFE00#32 = 0#32 ↔ d.toNat < 512 := by
  constructor
  · intro h
    have : d.toNat < 2 ^ 9 := by
      apply Nat.lt_pow_two_of_testBit
      intro i hi
      by_cases h32 : i < 32
      · have hb := congrArg (fun v => v.getLsbD i) h
        have hm : (0xFFFFFE00#32).getLsbD i = true := by
          have : ∀ j, j < 32 → 9 ≤ j → (0xFFFFFE00#32).getLsbD j = true := by decide
          exact this i h32 hi
        rw [BitVec.getLsbD_and, hm] at hb
        simpa [BitVec.getLsbD] using hb
      · exact Nat.testBit_lt_two_pow (lt_of_lt_of_le d.isLt
          (Nat.pow_le_pow_right (by decide) (by omega)))
    omega
  · intro h
    apply BitVec.eq_of_getLsbD_eq
    intro i hi
    have hm : ∀ j, j < 32 → (0xFFFFFE00#32).getLsbD j = decide (9 ≤ j) := by decide
    rw [BitVec.getLsbD_and, hm i hi]
    by_cases h9 : 9 ≤ i
    · have : d.getLsbD i = false :=
        Nat.testBit_lt_two_pow (lt_of_lt_of_le (show d.toNat < 2 ^ 9 by omega)
          (Nat.pow_le_pow_right (by decide) h9))
      simp [this]
    · simp [h9]

/-- The mask test of R90 says that the fields the format does not use are zero (R82). -/
theorem shapeOk_iff (f : Format) (c : CmdWord) :
    shapeOk f c = true ↔ rsvField c = 0#8 ∧ unusedZero f (aField c) (bField c) (dataField c) := by
  have hm : f.mask =
      match f with
      | .z => rawWord 0xFF 0xFF 0xFF 0xFF 0xFFFFFFFF
      | .a => rawWord 0xFF 0 0xFF 0xFF 0xFFFFFFFF
      | .ab => rawWord 0xFF 0 0 0xFF 0xFFFFFFFF
      | .ad => rawWord 0xFF 0 0xFF 0xFF 0
      | .adNode => rawWord 0xFF 0 0xFF 0xFF 0xFFFFFE00 := by
    cases f <;> decide
  have h8 : ∀ x : Byte, x &&& 0xFF#8 = x := by decide
  have h32 : ∀ x : Word, x &&& 0xFFFFFFFF#32 = x := fun x => BitVec.and_allOnes
  unfold shapeOk
  rw [beq_iff_eq, opcode_zeros, hm]
  conv => lhs; lhs; rw [← rawWord_fields c]
  cases f <;>
    simp only [rawWord_and, rawWord_inj, h8, h32, BitVec.and_zero, unusedZero,
      BitVec.ofNat_eq_ofNat] <;>
    simp [data_and_nodeMask, and_comm, and_assoc]

/-- The operands of a command are the word's fields (R83). -/
def fieldsOf (c : CmdWord) : Instr → Prop
  | .nop | .srst | .fclr | .build | .flush | .rbit | .ualign | .dec => True
  | .rdreg x | .fadd x | .rdcnt x | .rdlen x | .enc x | .rbits x => aField c = x
  | .ldcnt x d | .wbits x d => aField c = x ∧ dataField c = d
  | .rdcode x w => aField c = x ∧ bField c = w
  | .rdnode x d => aField c = x ∧ nodeField c = d

/-- What the opcode map takes from a word (R83, R86). -/
theorem opcodeMap_fields (c : CmdWord) : ∀ f i, opcodeMap c = some (f, i) →
    f = i.format ∧ opcField c = i.opcode ∧ fieldsOf c i := by
  unfold opcodeMap
  split <;> rename_i ho <;> intro f i h <;>
    first
    | (cases h; exact ⟨rfl, ho, by simp [fieldsOf]⟩)
    | cases h

/-- A command's word is in the opcode map under its own format. -/
theorem opcodeMap_encode (i : Instr) : opcodeMap (encode i) = some (i.format, i) := by
  cases i <;> simp [encode, opcodeMap, Instr.opcode, Instr.format, nodeField_rawWord]

theorem decode_ok_iff (c : CmdWord) (i : Instr) :
    decode c = .ok i ↔
      ∃ f, opcodeMap c = some (f, i) ∧ shapeOk f c = true ∧ i.wellFormed = true := by
  unfold decode
  rcases opcodeMap c with _ | ⟨f, j⟩
  · simp
  · by_cases h : (shapeOk f c && j.wellFormed) = true
    · simp only [h, if_true]
      simp only [Bool.and_eq_true] at h
      constructor
      · intro hh
        cases hh
        exact ⟨f, rfl, h.1, h.2⟩
      · rintro ⟨f', hh, -, -⟩
        cases hh
        rfl
    · simp only [h]
      simp only [Bool.and_eq_true] at h
      constructor
      · intro hh
        cases hh
      · rintro ⟨f', hh, h1, h2⟩
        cases hh
        exact absurd ⟨h1, h2⟩ h

end Sys2Proof
end

