-- ==== Sys2Proof/Laws/Walk.lean ====
section
/-! SUPPORT. The tree walk of DEC (spec/45_codec_datapath.md R164, R165) in terms of where the paths
of the bits read so far end. -/

namespace Sys2Proof.Machine

/-- A leaf: an id that stands for a symbol (R26). -/
theorem leaf_ne_nil {i : NodeId} (h : i.toNat < 256) : i ≠ Config.nil := by
  intro hc
  rw [hc] at h
  exact absurd h (by decide)

theorem setWidth_of_leaf {i : NodeId} (h : i.toNat < 256) : (i.setWidth 8).setWidth 9 = i := by
  apply BitVec.eq_of_toNat_eq
  simp only [BitVec.toNat_setWidth]
  omega

theorem pathEnd_append (nodes : Table Node 255) (i : NodeId) (bs cs : List Bool) :
    pathEnd nodes i (bs ++ cs) = pathEnd nodes (pathEnd nodes i bs) cs := by
  induction bs generalizing i with
  | nil => rfl
  | cons b bs ih => exact ih _

theorem pathEnd_beyond {nodes : Table Node 255} {i : NodeId}
    (h : i.toNat < 256 ∨ i = Config.nil) {bs : List Bool} (hb : bs ≠ []) :
    pathEnd nodes i bs = Config.nil := by
  rcases bs with _ | ⟨b, bs⟩
  · exact absurd rfl hb
  · rw [pathEnd, childOf_not_internal h, pathEnd_nil]

/-- The first `n` − 1 steps stay on internal nodes. -/
def Passes (nodes : Table Node 255) (i : NodeId) (bits : List Bool) (n : Nat) : Prop :=
  ∀ m, 1 ≤ m → m < n →
    256 ≤ (pathEnd nodes i (bits.take m)).toNat ∧ pathEnd nodes i (bits.take m) ≠ Config.nil

theorem passes_step {nodes : Table Node 255} {i : NodeId} {b : Bool} {bits : List Bool} {n : Nat}
    (hc : 256 ≤ (childOf nodes i b).toNat ∧ childOf nodes i b ≠ Config.nil)
    (h : Passes nodes (childOf nodes i b) bits n) : Passes nodes i (b :: bits) (n + 1) := by
  intro m h1 hn
  rcases m with _ | m
  · omega
  · rcases m with _ | m
    · exact hc
    · exact h (m + 1) (by omega) (by omega)

/-- How a walk with enough fuel ends (R164): at the first leaf, at the first `NIL`, or without
bits. -/
theorem walkTree_spec (nodes : Table Node 255) (fuel : Nat) (i : NodeId) (d : Nat) (u : BitSource)
    (hf : u.bits.length ≤ fuel) :
    (∃ n sym v, walkTree nodes fuel i d u = .leaf sym (d + n) v ∧ 1 ≤ n ∧ n ≤ u.bits.length ∧
        Passes nodes i u.bits n ∧ pathEnd nodes i (u.bits.take n) = sym.setWidth 9 ∧
        v.bits = u.bits.drop n ∧
        (u.acc.toNat < 2 ^ u.rem.toNat → v.acc.toNat < 2 ^ v.rem.toNat)) ∨
      (∃ n, walkTree nodes fuel i d u = .badPath ∧ 1 ≤ n ∧ n ≤ u.bits.length ∧
        Passes nodes i u.bits n ∧ pathEnd nodes i (u.bits.take n) = Config.nil) ∨
      (walkTree nodes fuel i d u = .underrun ∧ Passes nodes i u.bits (u.bits.length + 1)) := by
  induction fuel generalizing i d u with
  | zero =>
    refine .inr (.inr ⟨rfl, fun m h1 hn => ?_⟩)
    omega
  | succ fuel ih =>
    rcases unpackBit_spec u with ⟨h, hb⟩ | ⟨b, w, h, hb, hk⟩
    · refine .inr (.inr ⟨by simp [walkTree, h], fun m h1 hn => ?_⟩)
      rw [hb] at hn
      simp at hn
      omega
    · rw [hb] at hf ⊢
      simp only [List.length_cons] at hf
      by_cases hnil : childOf nodes i b = Config.nil
      · refine .inr (.inl ⟨1, by simp [walkTree, h, hnil], Nat.le_refl _, by simp, ?_, ?_⟩)
        · intro m h1 hn; omega
        · simpa [pathEnd] using hnil
      · by_cases hleaf : (childOf nodes i b).toNat < 256
        · refine .inl ⟨1, (childOf nodes i b).setWidth 8, w, ?_, Nat.le_refl _, by simp, ?_, ?_,
            by simp, hk⟩
          · simp only [walkTree, h, hnil, if_false]
            rw [if_pos hleaf]
          · intro m h1 hn; omega
          · rw [setWidth_of_leaf hleaf]
            rfl
        · have hstep : walkTree nodes (fuel + 1) i d u =
              walkTree nodes fuel (childOf nodes i b) (d + 1) w := by
            simp only [walkTree, h, hnil, if_false]
            rw [if_neg hleaf]
          have hc : 256 ≤ (childOf nodes i b).toNat ∧ childOf nodes i b ≠ Config.nil :=
            ⟨by omega, hnil⟩
          rw [hstep]
          rcases ih (childOf nodes i b) (d + 1) w (by omega) with
            ⟨n, sym, v, hw, h1, hn, hp, he, hv, hk'⟩ | ⟨n, hw, h1, hn, hp, he⟩ | ⟨hw, hp⟩
          · exact .inl ⟨n + 1, sym, v, by rw [hw]; congr 1; omega, by omega, by simpa using hn,
              passes_step hc hp, by simpa [pathEnd] using he, by simpa using hv,
              fun ha => hk' (hk ha)⟩
          · exact .inr (.inl ⟨n + 1, hw, by omega, by simpa using hn, passes_step hc hp,
              by simpa [pathEnd] using he⟩)
          · exact .inr (.inr ⟨hw, passes_step hc hp⟩)

/-- A walk whose bits begin with a path to a leaf ends there, and leaves the other bits (R164). -/
theorem walkTree_to_leaf {nodes : Table Node 255} {i : NodeId} {bs rest : List Bool} {sym : Byte}
    {u : BitSource} (he : pathEnd nodes i bs = sym.setWidth 9) (hbs : bs ≠ [])
    (hu : u.bits = bs ++ rest) (fuel d : Nat) (hf : u.bits.length ≤ fuel) :
    ∃ v, walkTree nodes fuel i d u = .leaf sym (d + bs.length) v ∧ v.bits = rest ∧
      (u.acc.toNat < 2 ^ u.rem.toNat → v.acc.toNat < 2 ^ v.rem.toNat) := by
  have hleaf : (pathEnd nodes i bs).toNat < 256 := by
    rw [he]
    have := leaf_id_toNat sym
    simp only [HTree.id] at this
    rw [this]
    exact sym.isLt
  have hpos : 0 < bs.length := List.length_pos_iff.mpr hbs
  have htake : u.bits.take bs.length = bs := by simp [hu]
  -- a walk that ends early cannot be followed to the leaf
  have early : ∀ n, n < bs.length →
      (pathEnd nodes i (u.bits.take n)).toNat < 256 ∨
        pathEnd nodes i (u.bits.take n) = Config.nil → False := by
    intro n hn hend
    have hsplit : bs = u.bits.take n ++ bs.drop n := by
      rw [hu, List.take_append_of_le_length (by omega), List.take_append_drop]
    have hnil := pathEnd_beyond (nodes := nodes) hend (bs := bs.drop n)
      (by intro hc; have := congrArg List.length hc; simp at this; omega)
    rw [← pathEnd_append, ← hsplit] at hnil
    exact leaf_ne_nil hleaf hnil
  -- a walk cannot pass the leaf
  have late : ∀ n, bs.length < n → Passes nodes i u.bits n → False := by
    intro n hn hp
    have := (hp bs.length hpos hn).1
    rw [htake] at this
    omega
  rcases walkTree_spec nodes fuel i d u hf with
    ⟨n, sym', v, hw, h1, hn, hp, he', hv, hk⟩ | ⟨n, hw, h1, hn, hp, he'⟩ | ⟨hw, hp⟩
  · have hlt : (pathEnd nodes i (u.bits.take n)).toNat < 256 := by
      rw [he']
      have := leaf_id_toNat sym'
      simp only [HTree.id] at this
      rw [this]
      exact sym'.isLt
    have hn' : n = bs.length := by
      rcases Nat.lt_trichotomy n bs.length with hc | hc | hc
      · exact (early n hc (.inl hlt)).elim
      · exact hc
      · exact (late n hc hp).elim
    subst hn'
    rw [htake, he] at he'
    have hs : sym = sym' := by
      have := congrArg (fun w : NodeId => w.setWidth 8) he'
      simpa using this
    subst hs
    exact ⟨v, hw, by rw [hv, hu]; simp, hk⟩
  · exfalso
    rcases Nat.lt_trichotomy n bs.length with hc | hc | hc
    · exact early n hc (.inr he')
    · subst hc
      rw [htake] at he'
      exact leaf_ne_nil hleaf he'
    · exact late n hc hp
  · exact (late _ (by rw [hu]; simp) hp).elim

theorem HTree.id_ne_nil {cnt : Table Word 256} {nodes : Table Node 255} {t : HTree} (hF : t.Full)
    (hst : t.Stored cnt nodes) : t.id ≠ Config.nil := by
  rcases t with _ | sym | ⟨id, l, r⟩
  · exact hF.elim
  · have := leaf_id_toNat sym
    have := sym.isLt
    exact leaf_ne_nil (by omega)
  · intro h
    have := hst.2.1
    simp only [HTree.id] at h
    rw [h] at this
    simp [Config.nil] at this

/-- In a full stored tree, a walk that has been on internal nodes so far is not at `NIL` now (R142,
R165). -/
theorem full_no_nil {cnt : Table Word 256} {nodes : Table Node 255} {t : HTree} (hF : t.Full)
    (hst : t.Stored cnt nodes) (bits : List Bool) (n : Nat) (hn : n ≤ bits.length)
    (hp : ∀ m, m < n → 256 ≤ (pathEnd nodes t.id (bits.take m)).toNat) :
    pathEnd nodes t.id (bits.take n) ≠ Config.nil := by
  induction t generalizing bits n with
  | nil => exact hF.elim
  | leaf sym =>
    rcases n with _ | n
    · exact HTree.id_ne_nil (t := .leaf sym) hF hst
    · have h0 := hp 0 (by omega)
      have := leaf_id_toNat sym
      have := sym.isLt
      simp only [List.take_zero, pathEnd] at h0
      omega
  | fork id l r ihl ihr =>
    rcases n with _ | n
    · exact HTree.id_ne_nil (t := .fork id l r) hF hst
    · rcases bits with _ | ⟨b, bs⟩
      · simp at hn
      · have hc : ∀ cs, pathEnd nodes (HTree.fork id l r).id (b :: cs) =
            pathEnd nodes (if b then r.id else l.id) cs := by
          intro cs
          rw [← childOf_fork hst b]
          rfl
        have hs : ∀ m, m < n → 256 ≤ (pathEnd nodes (if b then r.id else l.id) (bs.take m)).toNat :=
          fun m hm => by
            have := hp (m + 1) (by omega)
            rwa [List.take_succ_cons, hc] at this
        rw [List.take_succ_cons, hc]
        cases b
        · exact ihl hF.1 hst.2.2.2.1 bs n (by simpa using hn) hs
        · exact ihr hF.2 hst.2.2.2.2 bs n (by simpa using hn) hs

end Sys2Proof.Machine
end

