-- ==== Sys2Proof/Laws/Tree.lean ====
section
/-! SUPPORT. What a valid tree means in a state (spec/10_state.md R25 to R28,
spec/43_tree_builder.md R142): after a BUILD, and in every state that meets the invariant with
`TREE_VALID = 1`, the node memory stores a tree over the distinct symbols and the code table holds
its paths. -/

namespace Sys2Proof.Machine

/-- The tree state of `s` is that of the ghost tree `t`. -/
structure BuiltTree (s : State) (t : HTree) : Prop where
  stored : t.Stored s.cnt s.nodes
  root : s.root = t.id
  leaves : t.leaves.Perm (leafSymbols s.cnt)
  weight : t.weight s.cnt = ((leafSymbols s.cnt).map fun sym => (readCount s.cnt sym).toNat).sum
  nintRange : 1 ≤ s.nint.toNat ∧ s.nint.toNat ≤ 255
  nint : s.nint.toNat = max 1 ((leafSymbols s.cnt).length - 1)
  rootNumber : s.root.toNat = 255 + s.nint.toNat
  depth : t.depth ≤ s.nint.toNat
  full : 2 ≤ (leafSymbols s.cnt).length → t.Full
  lone : ∀ sym, leafSymbols s.cnt = [sym] → t = .fork 256#9 (.leaf sym) .nil
  degen : s.degen = decide ((leafSymbols s.cnt).length = 1)
  code : s.code = deriveCodes s.nodes s.root

/-- What a successful BUILD leaves (R131). -/
theorem installTree_built (s : State) (hne : leafSymbols s.cnt ≠ []) :
    ∃ t, BuiltTree (installTree (treeNodes s.cnt) s) t := by
  obtain ⟨t, hl, hw, h1, h255, hlen, hid, hd, hfull, hlone, hst⟩ := treeNodes_forest s.cnt hne
  have hnint : (BitVec.ofNat 9 (treeNodes s.cnt).length).toNat = (treeNodes s.cnt).length := by
    rw [BitVec.toNat_ofNat]; omega
  refine ⟨t, ?_, ?_, ?_, ?_, ?_, ?_, ?_, ?_, ?_, ?_, ?_, ?_⟩
  · exact hst _ (storeNodes_holds _ _ h255)
  · simpa using hid.symm
  · simpa using hl
  · simpa using hw
  · simp only [installTree_nint, hnint]
    omega
  · simp only [installTree_nint, hnint, installTree_cnt]
    exact hlen
  · simp only [installTree_nint, installTree_root, hnint, BitVec.toNat_ofNat]
    omega
  · simp only [installTree_nint, hnint]
    exact hd
  · simpa using hfull
  · simpa using hlone
  · rfl
  · rfl

/-- Building again changes nothing (R131, R139). -/
theorem installTree_idem (created : List Node) (s : State) :
    installTree created (installTree created s) = installTree created s := by
  have h := storeNodes_idem 0 created s.nodes
  simp only [installTree, h]
  rfl

theorem treeOk_of_valid {s : State} (h : TreeOk s) (hv : s.treeValid = true) :
    leafSymbols s.cnt ≠ [] ∧ installTree (treeNodes s.cnt) s = s := by
  unfold TreeOk at h
  rwa [if_pos hv] at h

/-- A valid tree is the tree of the present counters (R25). -/
theorem treeOk_built {s : State} (h : TreeOk s) (hv : s.treeValid = true) :
    ∃ t, BuiltTree s t := by
  obtain ⟨hne, hi⟩ := treeOk_of_valid h hv
  obtain ⟨t, ht⟩ := installTree_built s hne
  rw [hi] at ht
  exact ⟨t, ht⟩

theorem BuiltTree.nodup {s : State} {t : HTree} (h : BuiltTree s t) : t.leaves.Nodup :=
  h.leaves.symm.nodup (leafSymbols_nodup _)

theorem BuiltTree.mem_leaves {s : State} {t : HTree} (h : BuiltTree s t) (sym : Byte) :
    sym ∈ t.leaves ↔ readCount s.cnt sym ≠ 0#32 := by
  rw [h.leaves.mem_iff, mem_leafSymbols]

/-- The root is an internal node (R27). -/
theorem BuiltTree.root_fork {s : State} {t : HTree} (h : BuiltTree s t) :
    ∃ id l r, t = .fork id l r := by
  have hr := h.rootNumber
  have hn := h.nintRange
  rw [h.root] at hr
  rcases t with _ | sym | ⟨id, l, r⟩
  · simp [HTree.id, Config.nil] at hr
    omega
  · have := leaf_id_toNat sym
    have := sym.isLt
    omega
  · exact ⟨id, l, r, rfl⟩

theorem BuiltTree.path_pos {s : State} {t : HTree} (h : BuiltTree s t) {q : Byte × List Bool}
    (hq : q ∈ t.paths) : 1 ≤ q.2.length ∧ q.2.length ≤ s.nint.toNat := by
  have hle := HTree.path_length_le hq
  have := h.depth
  obtain ⟨id, l, r, rfl⟩ := h.root_fork
  refine ⟨?_, by omega⟩
  simp only [HTree.paths, List.mem_append, List.mem_map] at hq
  rcases hq with ⟨p, -, rfl⟩ | ⟨p, -, rfl⟩ <;> simp

/-- The code of a symbol in the tree is its path (R28, R150). -/
theorem BuiltTree.code_of_path {s : State} {t : HTree} (h : BuiltTree s t) {sym : Byte}
    {bs : List Bool} (hq : (sym, bs) ∈ t.paths) :
    (readCode s.code sym).len.toNat = bs.length ∧ codeBits s sym = bs ∧
      (readCode s.code sym).pat = ofBits 256 bs := by
  have hn := h.nintRange
  have hd := h.depth
  have hp := (h.path_pos hq).2
  simp only at hp
  have hc := (deriveCodes_stored h.stored (by omega) h.nodup sym).1 bs hq
  have hlen : (BitVec.ofNat 8 bs.length).toNat = bs.length := by
    rw [BitVec.toNat_ofNat]; omega
  have he : readCode s.code sym = ⟨BitVec.ofNat 8 bs.length, ofBits 256 bs⟩ := by
    rw [h.code, h.root, hc]
  refine ⟨by rw [he, hlen], ?_, by rw [he]⟩
  rw [codeBits, he, hlen]
  exact lowBits_ofBits bs (by omega)

/-- A symbol that is not in the tree has no code (R150, R152). -/
theorem BuiltTree.code_absent {s : State} {t : HTree} (h : BuiltTree s t) {sym : Byte}
    (hs : readCount s.cnt sym = 0#32) : readCode s.code sym = ⟨0#8, 0#256⟩ := by
  have hn := h.nintRange
  have hd := h.depth
  rw [h.code, h.root]
  refine (deriveCodes_stored h.stored (by omega) h.nodup sym).2 ?_
  rw [h.mem_leaves]
  exact fun hc => hc hs

theorem BuiltTree.path_exists {s : State} {t : HTree} (h : BuiltTree s t) {sym : Byte}
    (hs : readCount s.cnt sym ≠ 0#32) : (sym, codeBits s sym) ∈ t.paths := by
  have : sym ∈ t.paths.map Prod.fst := by
    rw [t.paths_leaves]
    exact (h.mem_leaves sym).mpr hs
  obtain ⟨⟨s', bs⟩, hq, rfl⟩ := List.mem_map.mp this
  rw [(h.code_of_path hq).2.1]
  exact hq

/-- The paths from the root to a leaf: the code of its symbol and no other (R142, R150). -/
theorem BuiltTree.path_unique {s : State} {t : HTree} (h : BuiltTree s t) {sym : Byte}
    {bs : List Bool} :
    pathEnd s.nodes s.root bs = sym.setWidth 9 ↔
      readCount s.cnt sym ≠ 0#32 ∧ bs = codeBits s sym := by
  rw [h.root, pathEnd_eq_leaf_iff h.stored]
  constructor
  · intro hq
    refine ⟨?_, (h.code_of_path hq).2.1.symm⟩
    rw [← h.mem_leaves, ← t.paths_leaves]
    exact List.mem_map.mpr ⟨_, hq, rfl⟩
  · rintro ⟨hs, rfl⟩
    exact h.path_exists hs

end Sys2Proof.Machine
end

