-- ==== Sys2Proof/Laws/Nodes.lean ====
section
/-! SUPPORT. The order of the keys (spec/43_tree_builder.md R133) and the nodes BUILD creates, one
by one: their children and their weights (R138, R142). -/

namespace Sys2Proof.Machine

/-- The comparison of keys on their numbers (R133). -/
theorem keyLt_iff (a b : Key) : keyLt a b = true ↔
    a.weight.toNat < b.weight.toNat ∨
      (a.weight.toNat = b.weight.toNat ∧ a.id.toNat < b.id.toNat) := by
  unfold keyLt
  simp only [Bool.or_eq_true, Bool.and_eq_true, decide_eq_true_eq, beq_iff_eq, BitVec.lt_def,
    ← BitVec.toNat_inj]

/-- With distinct ids, what is left is above the least (R133). -/
theorem takeLeast_least (k : Key) (xs : List Key) (hn : ((k :: xs).map Key.id).Nodup) :
    ∀ x ∈ (takeLeast k xs).2, keyLt (takeLeast k xs).1 x = true := by
  induction xs generalizing k with
  | nil => simp [takeLeast]
  | cons y ys ih =>
    simp only [List.map_cons, List.nodup_cons, List.mem_cons, not_or] at hn
    obtain ⟨⟨hky, hk⟩, hy, hys⟩ := hn
    unfold takeLeast
    by_cases h : keyLt y k = true
    · rw [if_pos h]
      have hi := ih y (by simp [hy, hys])
      intro x hx
      simp only [List.mem_cons] at hx
      rcases hx with rfl | hx
      · have hm := (takeLeast_perm y ys).subset (List.mem_cons_self ..)
        rcases List.mem_cons.mp hm with he | hm
        · show keyLt (takeLeast y ys).1 x = true
          rw [he]; exact h
        · by_cases he : (takeLeast y ys).1 = y
          · show keyLt (takeLeast y ys).1 x = true
            rw [he]; exact h
          · have hy2 : y ∈ (takeLeast y ys).2 := by
              have := (takeLeast_perm y ys).symm.subset (List.mem_cons_self ..)
              rcases List.mem_cons.mp this with h' | h'
              · exact absurd h'.symm he
              · exact h'
            have h1 := hi y hy2
            show keyLt (takeLeast y ys).1 x = true
            rw [keyLt_iff] at h1 h ⊢
            omega
      · exact hi x hx
    · rw [if_neg h]
      have hi := ih k (by simp [hk, hys])
      intro x hx
      simp only [List.mem_cons] at hx
      rcases hx with rfl | hx
      · show keyLt (takeLeast k ys).1 x = true
        have hkx : keyLt k x = true := by
          rw [keyLt_iff] at h ⊢
          have : k.id.toNat ≠ x.id.toNat := fun e => hky (BitVec.eq_of_toNat_eq e)
          omega
        by_cases he : (takeLeast k ys).1 = k
        · rw [he]; exact hkx
        · have hk2 : k ∈ (takeLeast k ys).2 := by
            have := (takeLeast_perm k ys).symm.subset (List.mem_cons_self ..)
            rcases List.mem_cons.mp this with h' | h'
            · exact absurd h'.symm he
            · exact h'
          have h1 := hi k hk2
          rw [keyLt_iff] at h1 hkx ⊢
          omega
      · exact hi x hx

/-- The weight of a node: a leaf's counter or the stored weight (R26). -/
def storedWeight (cnt : Table Word 256) (nodes : Table Node 255) (id : NodeId) : Nat :=
  if id.toNat < 256 then (readCount cnt (id.setWidth 8)).toNat
  else (nodeRecord nodes id).weight.toNat

theorem holds_get {nodes : Table Node 255} {k : Nat} {created : List Node}
    (h : Holds nodes k created) (j : Nat) (hj : j < created.length) : nodeRecord nodes (BitVec.ofNat 9 (256 + k + j)) = created[j] := by
  induction created generalizing k j with
  | nil => simp at hj
  | cons n rest ih =>
    rcases j with _ | j
    · exact h.1
    · have := ih h.2 j (by simpa using hj)
      rw [show 256 + k + (j + 1) = 256 + (k + 1) + j by omega, this]
      rfl

/-- R138 for every node the merge loop creates. -/
theorem mergeRounds_weights (cnt : Table Word 256) (nodes : Table Node 255) (rounds k : Nat)
    (act : List Key)
    (hw : ∀ x ∈ act, storedWeight cnt nodes x.id = x.weight.toNat)
    (hsum : (act.map fun x => x.weight.toNat).sum < 2 ^ 40) (hk : k + act.length ≤ 256)
    (hh : Holds nodes k (mergeRounds rounds k act)) (j : Nat)
    (hj : j < (mergeRounds rounds k act).length) :
    storedWeight cnt nodes (mergeRounds rounds k act)[j].left +
        storedWeight cnt nodes (mergeRounds rounds k act)[j].right =
      (mergeRounds rounds k act)[j].weight.toNat ∧
      (mergeRounds rounds k act)[j].weight.toNat ≤ (act.map fun x => x.weight.toNat).sum := by
  induction rounds generalizing k act j with
  | zero => simp [mergeRounds] at hj
  | succ rounds ih =>
    rcases takeTwo_spec act with ⟨h, hl⟩ | ⟨a, b, others, h, hp⟩
    · simp [mergeRounds, h] at hj
    · have hlen : act.length = others.length + 2 := by simpa using hp.length_eq
      have hs := (hp.map fun x => x.weight.toNat).sum_eq
      simp only [List.map_cons, List.sum_cons] at hs
      have ha := hw a (hp.symm.subset (by simp))
      have hb := hw b (hp.symm.subset (by simp))
      have hab : (a.weight + b.weight).toNat = a.weight.toNat + b.weight.toNat := by
        rw [BitVec.toNat_add, Nat.mod_eq_of_lt (by omega)]
      simp only [mergeRounds, h, Holds] at hj hh ⊢
      rcases j with _ | j
      · show storedWeight cnt nodes a.id + storedWeight cnt nodes b.id =
            (a.weight + b.weight).toNat ∧
          (a.weight + b.weight).toNat ≤ _
        rw [ha, hb, hab]
        omega
      · have hn : (BitVec.ofNat 9 (Config.firstInternal + k)).toNat = 256 + k := by
          rw [BitVec.toNat_ofNat]; simp only [Config.firstInternal]; omega
        let next : List Key :=
          ⟨a.weight + b.weight, BitVec.ofNat 9 (Config.firstInternal + k)⟩ :: others
        have hnext : ∀ x ∈ next, storedWeight cnt nodes x.id = x.weight.toNat := by
          intro x hx
          rcases List.mem_cons.mp hx with rfl | hx
          · unfold storedWeight
            simp only [hn]
            rw [if_neg (by omega)]
            simp only [Config.firstInternal, hh.1, mergedNode]
          · exact hw x (hp.symm.subset (by simp [hx]))
        have hsn : (next.map fun x => x.weight.toNat).sum =
            (act.map fun x => x.weight.toNat).sum := by
          simp only [next, List.map_cons, List.sum_cons, hab]; omega
        have := ih (k + 1) next hnext (by omega) (by simp only [next, List.length_cons]; omega)
          hh.2 j (by simpa using hj)
        rw [hsn] at this
        exact this

/-- The weights `ACT` starts with sum to `TOTAL`. -/
theorem keySum_leafKeys (cnt : Table Word 256) :
    ((leafKeys cnt).map fun x => x.weight.toNat).sum = countSum cnt := by
  rw [← leaf_sum, leafKeys, List.map_map]
  refine congrArg List.sum (List.map_congr_left fun sym _ => ?_)
  have := (readCount cnt sym).isLt
  show (leafWeight cnt sym).toNat = _
  rw [leafWeight, BitVec.toNat_setWidth]; omega

theorem leafKeys_weight (cnt : Table Word 256) (nodes : Table Node 255) :
    ∀ x ∈ leafKeys cnt, storedWeight cnt nodes x.id = x.weight.toNat := by
  intro x hx
  obtain ⟨sym, -, rfl⟩ := List.mem_map.mp hx
  have hl : (sym.setWidth 9 : NodeId).toNat = sym.toNat := leaf_id_toNat sym
  have := sym.isLt
  have hb : ((sym.setWidth 9 : NodeId).setWidth 8) = sym := by
    apply BitVec.eq_of_toNat_eq; rw [BitVec.toNat_setWidth, hl]; omega
  unfold storedWeight
  rw [if_pos (by simp only [hl]; omega)]
  simp only [hb, leafWeight]
  have := (readCount cnt sym).isLt
  rw [BitVec.toNat_setWidth]; omega

theorem leafKeys_length (cnt : Table Word 256) : (leafKeys cnt).length = (leafSymbols cnt).length := by
  simp [leafKeys]

theorem leafKeys_id_lt (cnt : Table Word 256) : ∀ x ∈ leafKeys cnt, x.id.toNat < 256 := by
  intro x hx
  obtain ⟨sym, -, rfl⟩ := List.mem_map.mp hx
  have hl : (sym.setWidth 9 : NodeId).toNat = sym.toNat := leaf_id_toNat sym
  have := sym.isLt
  simp only [hl]; omega

/-- The members of `ACT` have distinct ids (R133). -/
theorem leafKeys_nodup (cnt : Table Word 256) : ((leafKeys cnt).map Key.id).Nodup := by
  rw [leafKeys, List.map_map]
  apply List.Nodup.map_on _ (leafSymbols_nodup cnt)
  intro x _ y _ h
  have := congrArg BitVec.toNat h
  apply BitVec.eq_of_toNat_eq
  have h1 := leaf_id_toNat x; have h2 := leaf_id_toNat y
  simp only [HTree.id] at h1 h2
  simp only [Function.comp, h1, h2] at this
  exact this

/-- the nodes BUILD creates: children smaller, weights exact -/
theorem treeNodes_nodes (cnt : Table Word 256) (nodes : Table Node 255)
    (hh : Holds nodes 0 (treeNodes cnt)) (j : Nat) (hj : j < (treeNodes cnt).length) :
    (treeNodes cnt)[j].left.toNat < 256 + j ∧
      ((treeNodes cnt)[j].right.toNat < 256 + j ∨
        ((leafSymbols cnt).length = 1 ∧ j = 0 ∧ (treeNodes cnt)[j].right = Config.nil)) ∧
      ((leafSymbols cnt).length = 1 → (treeNodes cnt)[j].right = Config.nil) ∧
      (treeNodes cnt)[j].weight.toNat =
        (if (leafSymbols cnt).length = 1 then storedWeight cnt nodes (treeNodes cnt)[j].left
        else storedWeight cnt nodes (treeNodes cnt)[j].left +
          storedWeight cnt nodes (treeNodes cnt)[j].right) ∧
      (treeNodes cnt)[j].weight.toNat ≤ countSum cnt := by
  by_cases h2 : 2 ≤ (leafKeys cnt).length
  · have he := treeNodes_many h2
    have hle := leafSymbols_length_le cnt
    have hll := leafKeys_length cnt
    have hw := mergeRounds_weights cnt nodes (leafKeys cnt).length 0 (leafKeys cnt)
      (leafKeys_weight cnt nodes) (by rw [keySum_leafKeys]; exact countSum_lt cnt) (by omega)
      (by rw [← he]; exact hh) j (by rw [← he]; exact hj)
    have hc := mergeRounds_children (leafKeys cnt).length 0 (leafKeys cnt) (leafKeys_id_lt cnt)
      (by omega) j (by rw [← he]; exact hj)
    rw [keySum_leafKeys] at hw
    have hne : ¬ (leafSymbols cnt).length = 1 := by omega
    simp only [he, hne, if_false]
    exact ⟨hc.1, .inl hc.2, fun h => absurd h id, hw.1.symm, hw.2⟩
  · rcases hk : leafKeys cnt with _ | ⟨x, _ | ⟨y, ys⟩⟩
    · simp [treeNodes, hk, mergeRounds] at hj
    · have he := treeNodes_single hk
      have hl1 : (leafSymbols cnt).length = 1 := by rw [← leafKeys_length, hk]; rfl
      have hj0 : j = 0 := by rw [he] at hj; simpa using hj
      subst hj0
      have hx := leafKeys_weight cnt nodes x (by simp [hk])
      have hs := keySum_leafKeys cnt
      simp only [hk, List.map_cons, List.map_nil, List.sum_cons, List.sum_nil] at hs
      simp only [he, List.getElem_cons_zero, hl1, if_true]
      refine ⟨leafKeys_id_lt cnt x (by simp [hk]), .inr ⟨by simp, by simp, by simp⟩, by simp,
        hx.symm, by omega⟩
    · simp [hk] at h2

/-- in a valid state -/
theorem treeOk_nodes {s : State} (h : TreeOk s) (hv : s.treeValid = true) :
    Holds s.nodes 0 (treeNodes s.cnt) ∧ s.nint.toNat = (treeNodes s.cnt).length ∧
      (treeNodes s.cnt).length ≤ 255 := by
  obtain ⟨hne, hi⟩ := treeOk_of_valid h hv
  obtain ⟨t, -, -, h1, h255, -⟩ := treeNodes_forest s.cnt hne
  have hst := storeNodes_holds (treeNodes s.cnt) s.nodes h255
  have hn := congrArg State.nodes hi
  have hk := congrArg (fun t => t.nint.toNat) hi
  simp only [installTree] at hn hk
  rw [hn] at hst
  refine ⟨hst, ?_, h255⟩
  rw [← hk, BitVec.toNat_ofNat]; omega

end Sys2Proof.Machine
end

