-- ==== Sys2Proof/Laws/Outcome.lean ====
section
/-! SUPPORT. What a command and a step can do, said once: every command faults, holds or completes
with one named change of the state (spec/60_exceptions.md R181). -/

namespace Sys2Proof.Machine

/-- A response on top of a change that leaves the ports alone. -/
theorem answered_respond {s s' : State} (hr : s'.rsp = s.rsp) (hc : s'.cmdq = s.cmdq)
    (ha : s'.agenda = s.agenda) (st aux : Byte) (data : Word) :
    Answered s (respond st aux data s') st aux data := by
  simp [Answered, hr, hc, ha]

/-- Two answers to the same command are the same word. -/
theorem answered_unique {s t : State} {st st' aux aux' : Byte} {data data' : Word}
    (h : Answered s t st aux data) (h' : Answered s t st' aux' data') :
    responseWord st aux data = responseWord st' aux' data' := by
  have := h.1.symm.trans h'.1
  simpa using this

/-- The status of a response word, bits 63:56 (R84). -/
theorem responseWord_status (st aux : Byte) (data : Word) :
    (responseWord st aux data).extractLsb' 56 8 = st := by
  apply BitVec.eq_of_toNat_eq
  simp only [responseWord, BitVec.extractLsb'_toNat, BitVec.toNat_append, Nat.shiftRight_eq_div_pow]
  have h₁ : st.toNat <<< 8 ||| aux.toNat = st.toNat * 2 ^ 8 + aux.toNat := by
    rw [← Nat.shiftLeft_add_eq_or_of_lt aux.isLt, Nat.shiftLeft_eq]
  have h₂ : (st.toNat * 2 ^ 8 + aux.toNat) <<< 16 ||| (0#16).toNat =
      (st.toNat * 2 ^ 8 + aux.toNat) * 2 ^ 16 := by
    rw [Nat.shiftLeft_eq]
    simp
  rw [h₁, h₂, ← Nat.shiftLeft_add_eq_or_of_lt data.isLt, Nat.shiftLeft_eq]
  have := st.isLt; have := aux.isLt; have := data.isLt
  omega

theorem answered_status {s t : State} {st st' aux aux' : Byte} {data data' : Word}
    (h : Answered s t st aux data) (h' : Answered s t st' aux' data') : st = st' := by
  have := congrArg (fun w : CmdWord => w.extractLsb' 56 8) (answered_unique h h')
  simpa only [responseWord_status] using this

/-- What a fault leaves (R182 to R184). -/
theorem raise_leaves (f : Cause) (s : State) : Faulted s (raise f s) f := by
  have hr := raise_record f s
  refine ⟨by simp [Answered], ?_, by simp [SameCounters], by simp [SameTree],
    by simp [SamePacker], by simp [SameUnpacker]⟩
  unfold Recorded SameRecord
  by_cases h : s.err = 0#8
  · rw [if_pos h] at hr ⊢
    exact ⟨hr.1, by rw [hr.2, if_pos h]⟩
  · rw [if_neg h] at hr ⊢
    exact ⟨hr.1, by rw [hr.2, if_neg h]⟩

/-- The state FCLR answers from (R120). -/
def clearedTable (s : State) : State :=
  { s with cnt := Table.fill 256 0#32, treeValid := false, degen := false, root := Config.nil,
           nint := 0#9 }

/-- The state a command completes from: its own writes, before the response. -/
def Effect (i : Instr) (s s' : State) : Prop :=
  match i with
  | .nop | .rdreg _ | .rdcnt _ => s' = s
  | .rdlen _ | .rdcode _ _ | .rdnode _ _ => s' = s ∧ s.treeValid = true
  | .srst => s' = resetElements s
  | .fclr => s' = clearedTable s
  | .fadd sym =>
    s.treeValid = false ∧ s' = { s with cnt := writeCount s.cnt sym (readCount s.cnt sym + 1#32) }
  | .ldcnt sym count =>
    s.treeValid = false ∧ s' = { s with cnt := writeCount s.cnt sym count }
  | .build => leafSymbols s.cnt ≠ [] ∧ s' = installTree (treeNodes s.cnt) s
  | .wbits _ _ => ∃ bits, s' = packBits bits s
  | .enc _ => s.treeValid = true ∧ ∃ bits, s' = packBits bits s
  | .flush =>
    (s.pcnt = 0#3 ∧ s' = s) ∨
      (s.pcnt ≠ 0#3 ∧ s' = { emit s.pacc s with pacc := 0#8, pcnt := 0#3 })
  | .rbit | .rbits _ =>
    ∃ u : BitSource, s' = s.withBitSource u ∧
      (s.uacc.toNat < 2 ^ s.urem.toNat → u.acc.toNat < 2 ^ u.rem.toNat)
  | .dec =>
    s.treeValid = true ∧ ∃ u : BitSource, s' = s.withBitSource u ∧
      (s.uacc.toNat < 2 ^ s.urem.toNat → u.acc.toNat < 2 ^ u.rem.toNat)
  | .ualign => s' = { s with uacc := 0#8, urem := 0#3 }

/-- The commands that read the source (R11, R112). -/
def readsSource : Instr → Bool
  | .rbit | .rbits _ | .dec => true
  | _ => false

/-- The faults a command can raise beside those of the decoder (R187). -/
def ownFaults : Instr → List Cause
  | .fadd _ => [.tableFrozen, .countOverflow]
  | .ldcnt _ _ => [.tableFrozen]
  | .build => [.emptyTable]
  | .rdlen _ | .rdcode _ _ | .rdnode _ _ => [.noTree]
  | .enc _ => [.noTree, .symbolNotCoded]
  | .rbit | .rbits _ => [.truncated]
  | .dec => [.noTree, .badPath, .truncated]
  | .nop | .srst | .rdreg _ | .fclr | .rdcnt _ | .wbits _ _ | .flush | .ualign => []

theorem underrun_cases (s : State) :
    (s.srcEos = true ∧ underrun s = raise .truncated s) ∨
      (s.srcEos = false ∧ underrun s = hold s) := by
  unfold underrun
  cases s.srcEos <;> simp

theorem statusRegOf_none {idx : Byte} (h : statusRegOf idx = none) : 11 < idx.toNat := by
  revert h
  revert idx
  decide

theorem statusRegOf_some {idx : Byte} {r : StatusReg} (h : statusRegOf idx = some r) :
    idx.toNat ≤ 11 := by
  by_contra hc
  have : ∀ x : Byte, 11 < x.toNat → statusRegOf x = none := by decide
  rw [this idx (by omega)] at h
  simp at h

theorem nodeViewOf_none {sel : Byte} (h : nodeViewOf sel = none) : 2 < sel.toNat := by
  revert h
  revert sel
  decide

/-- Every command faults, holds, or completes with its effect (R181, R187).  A fault is one of the
command's own, or ILLEGAL_OPERAND on an ill-formed term. -/
theorem exec_cases (i : Instr) (s : State) :
    (∃ f, exec i s = .next (raise f s) ∧
        (f ∈ ownFaults i ∨ (f = .illegalOperand ∧ i.wellFormed = false))) ∨
      (exec i s = .next (hold s) ∧ readsSource i = true ∧ s.srcEos = false) ∨
      ∃ aux data s', exec i s = .next (respond 0#8 aux data s') ∧ Effect i s s' := by
  cases i with
  | nop => exact .inr (.inr ⟨_, _, s, rfl, rfl⟩)
  | srst => exact .inr (.inr ⟨_, _, _, rfl, rfl⟩)
  | rdreg idx =>
    simp only [exec, execRdreg]
    rcases h : statusRegOf idx with _ | r
    · refine .inl ⟨_, rfl, .inr ⟨rfl, ?_⟩⟩
      have := statusRegOf_none h
      simp [Instr.wellFormed]
      omega
    · exact .inr (.inr ⟨_, _, s, rfl, rfl⟩)
  | fclr => exact .inr (.inr ⟨_, _, _, rfl, rfl⟩)
  | fadd sym =>
    simp only [exec, execFadd]
    by_cases hv : s.treeValid = true
    · exact .inl ⟨.tableFrozen, by rw [if_pos hv]; rfl, .inl (by simp [ownFaults])⟩
    · rw [if_neg hv]
      by_cases hc : readCount s.cnt sym = Config.cmax
      · exact .inl ⟨.countOverflow, by rw [if_pos hc]; rfl, .inl (by simp [ownFaults])⟩
      · exact .inr (.inr ⟨_, _, _, by rw [if_neg hc]; rfl, by simpa using hv, rfl⟩)
  | ldcnt sym count =>
    simp only [exec, execLdcnt]
    by_cases hv : s.treeValid = true
    · exact .inl ⟨.tableFrozen, by rw [if_pos hv]; rfl, .inl (by simp [ownFaults])⟩
    · exact .inr (.inr ⟨_, _, _, by rw [if_neg hv]; rfl, by simpa using hv, rfl⟩)
  | rdcnt sym => exact .inr (.inr ⟨_, _, s, rfl, rfl⟩)
  | build =>
    simp only [exec, execBuild]
    rcases hl : leafSymbols s.cnt with _ | ⟨x, xs⟩
    · exact .inl ⟨.emptyTable, rfl, .inl (by simp [ownFaults])⟩
    · exact .inr (.inr ⟨_, _, _, rfl, by simp [hl], rfl⟩)
  | rdlen sym =>
    simp only [exec, execRdlen]
    rcases hv : s.treeValid with _ | _
    · exact .inl ⟨.noTree, rfl, .inl (by simp [ownFaults])⟩
    · exact .inr (.inr ⟨_, _, s, rfl, rfl, hv⟩)
  | rdcode sym w =>
    simp only [exec, execRdcode, patternWordOf]
    by_cases hw : w.toNat ≤ 7
    · rw [if_pos hw]
      rcases hv : s.treeValid with _ | _
      · exact .inl ⟨.noTree, rfl, .inl (by simp [ownFaults])⟩
      · exact .inr (.inr ⟨_, _, s, rfl, rfl, hv⟩)
    · rw [if_neg hw]
      exact .inl ⟨.illegalOperand, rfl, .inr ⟨rfl, by simp [Instr.wellFormed]; omega⟩⟩
  | rdnode sel id =>
    simp only [exec, execRdnode]
    by_cases hid : id = Config.nil
    · rw [if_pos hid]
      exact .inl ⟨.illegalOperand, rfl, .inr ⟨rfl, by simp [Instr.wellFormed, hid]⟩⟩
    · rw [if_neg hid]
      rcases hs : nodeViewOf sel with _ | v
      · have := nodeViewOf_none hs
        exact .inl ⟨.illegalOperand, rfl, .inr ⟨rfl, by simp [Instr.wellFormed]; omega⟩⟩
      · rcases hv : s.treeValid with _ | _
        · exact .inl ⟨.noTree, rfl, .inl (by simp [ownFaults])⟩
        · exact .inr (.inr ⟨_, _, s, rfl, rfl, hv⟩)
  | wbits n value =>
    simp only [exec, execWbits, bitCountOf]
    by_cases hn : n.toNat ≤ Config.nbmax
    · rw [if_pos hn]
      exact .inr (.inr ⟨_, _, _, rfl, _, rfl⟩)
    · rw [if_neg hn]
      exact .inl ⟨.illegalOperand, rfl, .inr ⟨rfl, by simp [Instr.wellFormed] at hn ⊢; omega⟩⟩
  | flush =>
    simp only [exec, execFlush]
    by_cases hp : s.pcnt = 0#3
    · rw [if_pos hp]
      exact .inr (.inr ⟨_, _, s, rfl, .inl ⟨hp, rfl⟩⟩)
    · rw [if_neg hp]
      exact .inr (.inr ⟨_, _, _, rfl, .inr ⟨hp, rfl⟩⟩)
  | enc sym =>
    simp only [exec, execEnc]
    rcases hv : s.treeValid with _ | _
    · exact .inl ⟨.noTree, rfl, .inl (by simp [ownFaults])⟩
    · by_cases hl : (readCode s.code sym).len = 0#8
      · exact .inl ⟨.symbolNotCoded, by simp [hl, trap], .inl (by simp [ownFaults])⟩
      · exact .inr (.inr ⟨_, _, _, by simp only [hl, if_true, if_false]; rfl, hv, _, rfl⟩)
  | rbit =>
    simp only [exec, execRbit]
    rcases unpackBit_spec s.bitSource with ⟨h, -⟩ | ⟨b, u, h, -, hk⟩
    · rcases underrun_cases s with ⟨he, hu⟩ | ⟨he, hu⟩
      · exact .inl ⟨.truncated, by simp [h, hu], .inl (by simp [ownFaults])⟩
      · exact .inr (.inl ⟨by simp [h, hu], rfl, he⟩)
    · exact .inr (.inr ⟨_, _, _, by rw [h]; rfl, u, rfl, hk⟩)
  | rbits n =>
    simp only [exec, execRbits, bitCountOf]
    by_cases hn : n.toNat ≤ Config.nbmax
    · rw [if_pos hn]
      simp only
      rcases unpackBits_spec n.toNat s.bitSource with ⟨h, -⟩ | ⟨bs, u, h, -, -, hk⟩
      · rcases underrun_cases s with ⟨he, hu⟩ | ⟨he, hu⟩
        · exact .inl ⟨.truncated, by simp [h, hu], .inl (by simp [ownFaults])⟩
        · exact .inr (.inl ⟨by simp [h, hu], rfl, he⟩)
      · exact .inr (.inr ⟨_, _, _, by rw [h]; rfl, u, rfl, hk⟩)
    · rw [if_neg hn]
      exact .inl ⟨.illegalOperand, rfl, .inr ⟨rfl, by simp [Instr.wellFormed] at hn ⊢; omega⟩⟩
  | ualign => exact .inr (.inr ⟨_, _, _, rfl, rfl⟩)
  | dec =>
    simp only [exec, execDec]
    rcases hv : s.treeValid with _ | _
    · exact .inl ⟨.noTree, rfl, .inl (by simp [ownFaults])⟩
    · simp only [if_true]
      rcases walkTree_spec s.nodes (availableBits s.bitSource) s.root 0 s.bitSource
        (by rw [availableBits_eq]) with ⟨n, sym, u, h, -, -, -, -, -, hk⟩ | ⟨n, h, -⟩ | ⟨h, -⟩
      · exact .inr (.inr ⟨_, _, _, by rw [h]; rfl, hv, u, rfl, hk⟩)
      · exact .inl ⟨.badPath, by simp [h, trap], .inl (by simp [ownFaults])⟩
      · rcases underrun_cases s with ⟨he, hu⟩ | ⟨he, hu⟩
        · exact .inl ⟨.truncated, by simp [h, hu], .inl (by simp [ownFaults])⟩
        · exact .inr (.inl ⟨by simp [h, hu], rfl, he⟩)

/-- An effect leaves the ports alone: only the response and the agents touch them. -/
theorem effect_ports {i : Instr} {s s' : State} (h : Effect i s s') :
    s'.cmdq = s.cmdq ∧ s'.rsp = s.rsp ∧ s'.agenda = s.agenda := by
  cases i <;> simp only [Effect] at h
  case nop | rdreg | rdcnt => subst h; exact ⟨rfl, rfl, rfl⟩
  case rdlen | rdcode | rdnode => obtain ⟨rfl, -⟩ := h; exact ⟨rfl, rfl, rfl⟩
  case srst | fclr | ualign => subst h; exact ⟨rfl, rfl, rfl⟩
  case fadd | ldcnt | build => obtain ⟨-, rfl⟩ := h; exact ⟨rfl, rfl, rfl⟩
  case wbits => obtain ⟨bits, rfl⟩ := h; simp
  case enc => obtain ⟨-, bits, rfl⟩ := h; simp
  case flush => rcases h with ⟨-, rfl⟩ | ⟨-, rfl⟩ <;> exact ⟨rfl, rfl, rfl⟩
  case rbit | rbits => obtain ⟨u, rfl, -⟩ := h; exact ⟨rfl, rfl, rfl⟩
  case dec => obtain ⟨-, u, rfl, -⟩ := h; exact ⟨rfl, rfl, rfl⟩

/-- What one step does (R20, R87): an agent acts, the lock turns the word away, the decoder rejects
it, or the command it decodes to is executed. -/
theorem step_cases (s : State) :
    (Waiting s ∧ step s = .next (deliver s)) ∨
      ∃ c, AtHead s c ∧
        ((lockRefuses c s = true ∧ step s = .next (respondLocked s)) ∨
          (lockRefuses c s = false ∧
            ((∃ r, decode c = .error r ∧ step s = .next (raise (rejectCause r) s)) ∨
              ∃ i, decode c = .ok i ∧ step s = exec i s))) := by
  unfold step nextCommand
  rcases hh : s.held with _ | _
  · rcases hq : s.cmdq with _ | ⟨c, rest⟩
    · exact .inl ⟨.inr hq, rfl⟩
    · refine .inr ⟨c, ⟨hh, by simp [hq]⟩, ?_⟩
      simp only [Bool.false_eq_true, if_false, List.head?_cons, runWord, judge]
      rcases hl : lockRefuses c s with _ | _
      · rcases hd : decode c with r | i
        · exact .inr ⟨rfl, .inl ⟨r, rfl, rfl⟩⟩
        · exact .inr ⟨rfl, .inr ⟨i, rfl, rfl⟩⟩
      · exact .inl ⟨rfl, rfl⟩
  · exact .inl ⟨.inl hh, rfl⟩

/-- A word at the head and a waiting block exclude each other. -/
theorem not_waiting_of_atHead {s : State} {c : CmdWord} (h : AtHead s c) : ¬ Waiting s := by
  rintro (hw | hw)
  · rw [h.1] at hw
    exact absurd hw (by decide)
  · have := h.2
    rw [hw] at this
    simp at this

/-- The word at the head is unique. -/
theorem atHead_unique {s : State} {c c' : CmdWord} (h : AtHead s c) (h' : AtHead s c') : c = c' :=
  Option.some.inj (h.2.symm.trans h'.2)

/-- A response alone answers the command. -/
theorem answered_self (st aux : Byte) (d : Word) (s : State) :
    Answered s (respond st aux d s) st aux d := by
  simp [Answered]

/-- A response changes nothing of the block. -/
theorem sameBlock_respond (st aux : Byte) (d : Word) (s : State) :
    SameBlock s (respond st aux d s) := by
  simp [SameBlock, SameCounters, SameTree, SamePacker, SameUnpacker, SameRecord]

theorem causeCode_inj {f g : Cause} (h : causeCode f = causeCode g) : f = g := by
  cases f <;> cases g <;> first | rfl | (exact absurd h (by decide))

/-- Only SRST changes the fault record without a fault (R33). -/
theorem effect_record {i : Instr} {s s' : State} (h : Effect i s s') :
    i = .srst ∨ (s'.err = s.err ∧ s'.errcmd = s.errcmd) := by
  cases i <;> simp only [Effect] at h
  case nop | rdreg | rdcnt => subst h; exact .inr ⟨rfl, rfl⟩
  case rdlen | rdcode | rdnode => obtain ⟨rfl, -⟩ := h; exact .inr ⟨rfl, rfl⟩
  case srst => exact .inl rfl
  case fclr | ualign => subst h; exact .inr ⟨rfl, rfl⟩
  case fadd | ldcnt | build => obtain ⟨-, rfl⟩ := h; exact .inr ⟨rfl, rfl⟩
  case wbits => obtain ⟨bits, rfl⟩ := h; simp
  case enc => obtain ⟨-, bits, rfl⟩ := h; simp
  case flush => rcases h with ⟨-, rfl⟩ | ⟨-, rfl⟩ <;> exact .inr ⟨rfl, rfl⟩
  case rbit | rbits => obtain ⟨u, rfl, -⟩ := h; exact .inr ⟨rfl, rfl⟩
  case dec => obtain ⟨-, u, rfl, -⟩ := h; exact .inr ⟨rfl, rfl⟩

/-- With a valid tree, only FCLR and SRST change the counters, and they drop it (R24, R121). -/
theorem effect_cnt {i : Instr} {s s' : State} (h : Effect i s s') (hv : s.treeValid = true) :
    ((i = .srst ∨ i = .fclr) ∧ s'.treeValid = false) ∨ (s'.cnt = s.cnt) := by
  cases i <;> simp only [Effect] at h
  case nop | rdreg | rdcnt => subst h; exact .inr rfl
  case rdlen | rdcode | rdnode => obtain ⟨rfl, -⟩ := h; exact .inr rfl
  case srst => subst h; exact .inl ⟨.inl rfl, rfl⟩
  case fclr => subst h; exact .inl ⟨.inr rfl, rfl⟩
  case ualign => subst h; exact .inr rfl
  case fadd | ldcnt => rw [hv] at h; exact absurd h.1 (by decide)
  case build => obtain ⟨-, rfl⟩ := h; exact .inr rfl
  case wbits => obtain ⟨bits, rfl⟩ := h; simp
  case enc => obtain ⟨-, bits, rfl⟩ := h; simp
  case flush => rcases h with ⟨-, rfl⟩ | ⟨-, rfl⟩ <;> exact .inr rfl
  case rbit | rbits => obtain ⟨u, rfl, -⟩ := h; exact .inr rfl
  case dec => obtain ⟨-, u, rfl, -⟩ := h; exact .inr rfl

/-- Only BUILD changes the code table (R156). -/
theorem effect_code {i : Instr} {s s' : State} (h : Effect i s s') :
    (i = .build ∧ s'.treeValid = true) ∨ (s'.code = s.code) := by
  cases i <;> simp only [Effect] at h
  case nop | rdreg | rdcnt => subst h; exact .inr rfl
  case rdlen | rdcode | rdnode => obtain ⟨rfl, -⟩ := h; exact .inr rfl
  case srst => subst h; exact .inr rfl
  case fclr => subst h; exact .inr rfl
  case ualign => subst h; exact .inr rfl
  case fadd | ldcnt => obtain ⟨-, rfl⟩ := h; exact .inr rfl
  case build => obtain ⟨-, rfl⟩ := h; exact .inl ⟨rfl, rfl⟩
  case wbits => obtain ⟨bits, rfl⟩ := h; simp
  case enc => obtain ⟨-, bits, rfl⟩ := h; simp
  case flush => rcases h with ⟨-, rfl⟩ | ⟨-, rfl⟩ <;> exact .inr rfl
  case rbit | rbits => obtain ⟨u, rfl, -⟩ := h; exact .inr rfl
  case dec => obtain ⟨-, u, rfl, -⟩ := h; exact .inr rfl

/-- Only WBITS, FLUSH and ENC add to `SNK` (R101). -/
theorem effect_snk {i : Instr} {s s' : State} (h : Effect i s s') :
    s'.snk = s.snk ∨
      (s.snk <+: s'.snk ∧ ((∃ n v, i = .wbits n v) ∨ i = .flush ∨ ∃ x, i = .enc x)) := by
  cases i <;> simp only [Effect] at h
  case nop | rdreg | rdcnt => subst h; exact .inl rfl
  case rdlen | rdcode | rdnode => obtain ⟨rfl, -⟩ := h; exact .inl rfl
  case srst => subst h; exact .inl rfl
  case fclr => subst h; exact .inl rfl
  case ualign => subst h; exact .inl rfl
  case fadd | ldcnt => obtain ⟨-, rfl⟩ := h; exact .inl rfl
  case build => obtain ⟨-, rfl⟩ := h; exact .inl rfl
  case wbits => obtain ⟨bits, rfl⟩ := h; exact .inr ⟨packBits_snk_prefix _ _, .inl ⟨_, _, rfl⟩⟩
  case enc => obtain ⟨-, bits, rfl⟩ := h; exact .inr ⟨packBits_snk_prefix _ _, .inr (.inr ⟨_, rfl⟩)⟩
  case flush =>
    rcases h with ⟨-, rfl⟩ | ⟨-, rfl⟩
    · exact .inl rfl
    · exact .inr ⟨List.prefix_append _ _, .inr (.inl rfl)⟩
  case rbit | rbits => obtain ⟨u, rfl, -⟩ := h; exact .inl rfl
  case dec => obtain ⟨-, u, rfl, -⟩ := h; exact .inl rfl

/-- `TreeOk` depends on the counters and the tree state only. -/
theorem treeOk_congr {s t : State} (h : TreeOk s) (hc : t.cnt = s.cnt) (hT : SameTree s t) :
    TreeOk t := by
  obtain ⟨a1, a2, a3, a4, a5, a6⟩ := hT
  unfold TreeOk at h ⊢
  rw [a1, hc, a3, a4, a2]
  by_cases hv : s.treeValid = true
  · rw [if_pos hv] at h ⊢
    refine ⟨h.1, ?_⟩
    have hi := h.2
    have e1 := congrArg State.nodes hi
    have e2 := congrArg State.nint hi
    have e3 := congrArg State.root hi
    have e4 := congrArg State.degen hi
    have e5 := congrArg State.code hi
    simp only [installTree] at e1 e2 e3 e4 e5
    rcases t with ⟨⟩
    simp only at hc a1 a2 a3 a4 a5 a6
    subst hc a1 a2 a3 a4 a5 a6
    simp only [installTree, State.mk.injEq, hv, and_true, true_and]
    exact ⟨e4, e3, e2, e1, e5⟩
  · rw [if_neg hv] at h ⊢; exact h

end Sys2Proof.Machine
end

