-- ==== Sys2Proof/Laws/PerInstr.lean ====
section
/-! SUPPORT. The per-instruction family TableRow: the word of a command under its row's mask is its
row's match value (spec/30_encoding.md R90). -/

namespace Sys2Proof.Laws.TableRow

open Sys2Proof

/-- R90: `c & mask = match`, with `match = OPC << 56`, for the word of a well-formed command. -/
def Statement (i : Instr) : Prop :=
  i.wellFormed = true → encode i &&& i.format.mask = i.opcode ++ 0#56

/-- The test the decoder makes on the word's own opcode field. -/
theorem of_shape {i : Instr} (ho : opcField (encode i) = i.opcode)
    (hs : shapeOk i.format (encode i) = true) : encode i &&& i.format.mask = i.opcode ++ 0#56 := by
  rw [← ho]
  exact beq_iff_eq.mp hs

theorem nop : Statement .nop := fun _ =>
  of_shape (by simp [encode, Instr.opcode])
    ((shapeOk_iff _ _).mpr (by simp [encode, Instr.format, unusedZero]))

theorem srst : Statement .srst := fun _ =>
  of_shape (by simp [encode, Instr.opcode])
    ((shapeOk_iff _ _).mpr (by simp [encode, Instr.format, unusedZero]))

theorem rdreg (idx : Byte) : Statement (.rdreg idx) := fun _ =>
  of_shape (by simp [encode, Instr.opcode])
    ((shapeOk_iff _ _).mpr (by simp [encode, Instr.format, unusedZero]))

theorem fclr : Statement .fclr := fun _ =>
  of_shape (by simp [encode, Instr.opcode])
    ((shapeOk_iff _ _).mpr (by simp [encode, Instr.format, unusedZero]))

theorem fadd (sym : Byte) : Statement (.fadd sym) := fun _ =>
  of_shape (by simp [encode, Instr.opcode])
    ((shapeOk_iff _ _).mpr (by simp [encode, Instr.format, unusedZero]))

theorem ldcnt (sym : Byte) (count : Word) : Statement (.ldcnt sym count) := fun _ =>
  of_shape (by simp [encode, Instr.opcode])
    ((shapeOk_iff _ _).mpr (by simp [encode, Instr.format, unusedZero]))

theorem rdcnt (sym : Byte) : Statement (.rdcnt sym) := fun _ =>
  of_shape (by simp [encode, Instr.opcode])
    ((shapeOk_iff _ _).mpr (by simp [encode, Instr.format, unusedZero]))

theorem build : Statement .build := fun _ =>
  of_shape (by simp [encode, Instr.opcode])
    ((shapeOk_iff _ _).mpr (by simp [encode, Instr.format, unusedZero]))

theorem rdlen (sym : Byte) : Statement (.rdlen sym) := fun _ =>
  of_shape (by simp [encode, Instr.opcode])
    ((shapeOk_iff _ _).mpr (by simp [encode, Instr.format, unusedZero]))

theorem rdcode (sym : Byte) (w : Byte) : Statement (.rdcode sym w) := fun _ =>
  of_shape (by simp [encode, Instr.opcode])
    ((shapeOk_iff _ _).mpr (by simp [encode, Instr.format, unusedZero]))

theorem rdnode (sel : Byte) (id : NodeId) : Statement (.rdnode sel id) := fun _ =>
  of_shape (by simp [encode, Instr.opcode]) ((shapeOk_iff _ _).mpr (by
    have := id.isLt
    simp [encode, Instr.format, unusedZero]
    omega))

theorem wbits (n : Byte) (value : Word) : Statement (.wbits n value) := fun _ =>
  of_shape (by simp [encode, Instr.opcode])
    ((shapeOk_iff _ _).mpr (by simp [encode, Instr.format, unusedZero]))

theorem flush : Statement .flush := fun _ =>
  of_shape (by simp [encode, Instr.opcode])
    ((shapeOk_iff _ _).mpr (by simp [encode, Instr.format, unusedZero]))

theorem enc (sym : Byte) : Statement (.enc sym) := fun _ =>
  of_shape (by simp [encode, Instr.opcode])
    ((shapeOk_iff _ _).mpr (by simp [encode, Instr.format, unusedZero]))

theorem rbit : Statement .rbit := fun _ =>
  of_shape (by simp [encode, Instr.opcode])
    ((shapeOk_iff _ _).mpr (by simp [encode, Instr.format, unusedZero]))

theorem rbits (n : Byte) : Statement (.rbits n) := fun _ =>
  of_shape (by simp [encode, Instr.opcode])
    ((shapeOk_iff _ _).mpr (by simp [encode, Instr.format, unusedZero]))

theorem ualign : Statement .ualign := fun _ =>
  of_shape (by simp [encode, Instr.opcode])
    ((shapeOk_iff _ _).mpr (by simp [encode, Instr.format, unusedZero]))

theorem dec : Statement .dec := fun _ =>
  of_shape (by simp [encode, Instr.opcode])
    ((shapeOk_iff _ _).mpr (by simp [encode, Instr.format, unusedZero]))

end Sys2Proof.Laws.TableRow
end

