-- ==== Sys2Proof/Laws/Runs.lean ====
section
/-! SUPPORT. Commands run one after another (spec/20_memory.md R72). -/

namespace Sys2Proof.Machine

/-- Running two lists of commands is running the one and then the other (R72). -/
theorem runAll_append (xs ys : List Instr) (s : State) :
    runAll (xs ++ ys) s = (runAll xs s).bind (runAll ys) := by
  induction xs generalizing s with
  | nil => rfl
  | cons i xs ih =>
    simp only [List.cons_append, runAll]
    rcases exec i s with t | f | r
    · exact ih t
    · rfl
    · rfl

end Sys2Proof.Machine
end

