-- ==== Sys2Proof/Tests/Slice0.lean ====
section
/-! SUPPORT. The model's own tests: the ill-formed terms, each command's word written out from the
spec's encoding, one-step vectors of spec/95_test_vectors.md, and for each statement with hypotheses
a concrete state and operands that meet them. -/

-- One theorem at a time: side by side the kernel evaluations exceed the memory limit.
set_option Elab.async false

namespace Sys2Proof.Tests

open Sys2Proof Sys2Proof.Machine Sys2Proof.Spec

/-! ### Well-formedness: one ill-formed term for each check (R83, R89) -/

theorem test_rdreg_index_12 : (Instr.rdreg 12#8).wellFormed = false := by decide

theorem test_rdcode_word_8 : (Instr.rdcode 0x42#8 8#8).wellFormed = false := by decide

theorem test_rdnode_view_3 : (Instr.rdnode 3#8 256#9).wellFormed = false := by decide

theorem test_rdnode_nil : (Instr.rdnode 0#8 511#9).wellFormed = false := by decide

theorem test_wbits_33 : (Instr.wbits 33#8 0#32).wellFormed = false := by decide

theorem test_rbits_33 : (Instr.rbits 33#8).wellFormed = false := by decide

/-! ### Decoding: words written out from R81 and R86 (95_test_vectors.md) -/

theorem test_decode_nop : decode 0x0000000000000000#64 = .ok .nop := by decide

theorem test_decode_srst : decode 0x0100000000000000#64 = .ok .srst := by decide

theorem test_decode_rdreg : decode 0x020B000000000000#64 = .ok (.rdreg 11#8) := by decide

theorem test_decode_fclr : decode 0x1000000000000000#64 = .ok .fclr := by decide

theorem test_decode_fadd : decode 0x1141000000000000#64 = .ok (.fadd 0x41#8) := by decide

theorem test_decode_ldcnt :
    decode 0x12100000FFFFFFFE#64 = .ok (.ldcnt 0x10#8 0xFFFFFFFE#32) := by decide

theorem test_decode_rdcnt : decode 0x1302000000000000#64 = .ok (.rdcnt 2#8) := by decide

theorem test_decode_build : decode 0x2000000000000000#64 = .ok .build := by decide

theorem test_decode_rdlen : decode 0x2146000000000000#64 = .ok (.rdlen 0x46#8) := by decide

theorem test_decode_rdcode :
    decode 0x2242070000000000#64 = .ok (.rdcode 0x42#8 7#8) := by decide

theorem test_decode_rdnode :
    decode 0x23010000000001FE#64 = .ok (.rdnode 1#8 510#9) := by decide

theorem test_decode_wbits :
    decode 0x30200000DEADBEEF#64 = .ok (.wbits 32#8 0xDEADBEEF#32) := by decide

theorem test_decode_flush : decode 0x3100000000000000#64 = .ok .flush := by decide

theorem test_decode_enc : decode 0x3203000000000000#64 = .ok (.enc 3#8) := by decide

theorem test_decode_rbit : decode 0x4000000000000000#64 = .ok .rbit := by decide

theorem test_decode_rbits : decode 0x410C000000000000#64 = .ok (.rbits 12#8) := by decide

theorem test_decode_ualign : decode 0x4200000000000000#64 = .ok .ualign := by decide

theorem test_decode_dec : decode 0x4300000000000000#64 = .ok .dec := by decide

/-- K6 to K9, F7, S2, S3 and section 2.4: the malformed words of the vectors. -/
theorem test_decode_malformed :
    [0x3021000000000000#64, 0x3003010000000005#64, 0x3003000100000005#64, 0x3100000000000001#64,
      0x1241010000000005#64, 0x1141000000000001#64, 0x0000000000000001#64, 0x0100000100000000#64,
      0x020C000000000000#64, 0x2242080000000000#64, 0x23000000000001FF#64, 0x2303000000000100#64,
      0x2300000000000300#64, 0x2000000000000001#64, 0x4121000000000000#64].all
      (fun c => decide (decode c = .error .illegalOperand)) = true := by decide

/-- X1, X2: illegal opcodes, whatever the other fields hold. -/
theorem test_decode_illegal :
    [0x0300000000000000#64, 0xFF00000000000000#64, 0x4400000000000000#64, 0x14FFFFFFFFFFFFFF#64].all
      (fun c => decide (decode c = .error .illegalOpcode)) = true := by decide

theorem test_table_word :
    decodeTableWord 64 0x2301000000000103 = some (.rdnode 1#8 259#9) := by decide

/-! ### Small states -/

/-- A counter file with the listed counters and zeros elsewhere. -/
def counters (l : List (Byte × Word)) : Table Word 256 :=
  l.foldl (fun t p => writeCount t p.1 p.2) (Table.fill 256 0#32)

/-- The reset state with a table loaded. -/
def loaded (l : List (Byte × Word)) : State := { State.reset with cnt := counters l }

/-- A valid tree over a loaded table, its nodes and codes as the vectors write them. -/
def withTree (l : List (Byte × Word)) (nodes : List Node) (codes : List (Byte × Code)) : State :=
  { loaded l with
    treeValid := true
    degen := decide (l.length = 1)
    root := BitVec.ofNat 9 (255 + nodes.length)
    nint := BitVec.ofNat 9 nodes.length
    nodes := storeNodes 0 nodes State.reset.nodes
    code := codes.foldl (fun t p => writeCell t p.1.toNat p.2) State.reset.code }

/-- Vector T3's counters. -/
def countsT3 : List (Byte × Word) := [(0#8, 1#32), (1#8, 1#32), (2#8, 2#32)]

/-- Vector T3's tree. -/
def treeT3 : State :=
  withTree countsT3 [⟨2#40, 0#9, 1#9⟩, ⟨4#40, 2#9, 256#9⟩]
    [(0#8, ⟨2#8, 1#256⟩), (1#8, ⟨2#8, 3#256⟩), (2#8, ⟨1#8, 0#256⟩)]

/-- Vector T5's counters. -/
def countsT5 : List (Byte × Word) := [(0x41#8, 10#32)]

/-- Vector T5's tree (one symbol). -/
def treeT5 : State := withTree countsT5 [⟨10#40, 65#9, 511#9⟩] [(0x41#8, ⟨1#8, 0#256⟩)]

/-- The word alone at the head of port CMD. -/
def present (s : State) (c : CmdWord) : State := { s with cmdq := [c] }

/-- The next state of an outcome. -/
def nextOf (o : Result) : Option State :=
  match o with
  | .next t => some t
  | .fault _ => none
  | .refused _ => none

/-- The state after one step on that word. -/
def after (s : State) (c : CmdWord) : State := (nextOf (step (present s c))).getD s

/-- What the agents do, waiting to be delivered. -/
def arriving (s : State) (l : List PortEvent) : State := { s with agenda := l }

/-- One step in which an agent acts. -/
def delivered (s : State) : State := (nextOf (step s)).getD s

theorem next_of {o : Result} {t : State} (h : nextOf o = some t) : o = .next t := by
  cases o <;> simp_all [nextOf]

theorem exists_next {o : Result} (h : (nextOf o).isSome = true) : ∃ t, o = .next t := by
  cases o <;> simp_all [nextOf]

theorem step_after {s : State} {c : CmdWord} (h : (nextOf (step (present s c))).isSome = true) :
    step (present s c) = .next (after s c) := by
  obtain ⟨t, ht⟩ := exists_next h
  simp [after, ht, nextOf]

theorem step_delivered {s : State} (h : (nextOf (step s)).isSome = true) :
    step s = .next (delivered s) := by
  obtain ⟨t, ht⟩ := exists_next h
  simp [delivered, ht, nextOf]

/-- The response of one step on the word. -/
def answer (s : State) (c : CmdWord) : List CmdWord := (after s c).rsp

/-! ### One step per command (95_test_vectors.md) -/

/-- S1. -/
theorem test_nop : answer State.reset 0x0000000000000000#64 = [0x0000000000000000#64] := by
  decide +kernel

/-- S4, S5: SRST drops pending packer bits; `SNK` is unchanged. -/
theorem test_srst :
    (fun t => (t.pacc, t.pcnt, t.snk, t.rsp))
      (after { State.reset with pacc := 5#8, pcnt := 3#3, snk := [0x76#8], err := 4#8 }
        0x0100000000000000#64) = (0#8, 0#3, [0x76#8], [0#64]) := by decide +kernel

/-- Section 2.7: the twelve registers in the reset state. -/
theorem test_rdreg_reset :
    [0x0200000000000000#64, 0x0201000000000000#64, 0x0202000000000000#64, 0x0203000000000000#64,
      0x0204000000000000#64, 0x0205000000000000#64, 0x0206000000000000#64, 0x0207000000000000#64,
      0x0208000000000000#64, 0x0209000000000000#64, 0x020A000000000000#64,
      0x020B000000000000#64].flatMap (answer State.reset) =
    [0x48544231#64, 0x20#64, 0#64, 0#64, 0#64, 0#64, 0#64, 0#64, 0x1FF#64, 0#64, 0#64, 0#64] := by
  decide +kernel

/-- T5, T11: STATUS of a degenerate tree; the high half of TOTAL. -/
theorem test_rdreg_values :
    answer treeT5 0x0201000000000000#64 = [0x25#64] ∧
      answer (loaded [(0#8, 0xFFFFFFFF#32), (1#8, 0xFFFFFFFF#32), (255#8, 1#32)])
        0x0206000000000000#64 = [1#64] := by decide +kernel

/-- F4: FCLR drops the tree. -/
theorem test_fclr :
    (fun t => (t.treeValid, t.root, readCount t.cnt 2#8)) (after treeT3 0x1000000000000000#64) =
      (false, 511#9, 0#32) := by decide +kernel

/-- F2: the last legal increment, then COUNT_OVERFLOW with `ERRCMD` recorded. -/
theorem test_fadd :
    readCount (after (loaded [(0x10#8, 0xFFFFFFFE#32)]) 0x1110000000000000#64).cnt 0x10#8 =
        0xFFFFFFFF#32 ∧
      (fun t => (readCount t.cnt 0x10#8, t.err, t.errcmd, t.rsp))
        (after (loaded [(0x10#8, 0xFFFFFFFF#32)]) 0x1110000000000000#64) =
      (0xFFFFFFFF#32, 3#8, 0x1110000000000000#64, [0x0300000000000000#64]) := by decide +kernel

/-- F5, X4: the freeze is tested before the overflow. -/
theorem test_fadd_frozen :
    answer { loaded [(0x10#8, 0xFFFFFFFF#32)] with treeValid := true } 0x1110000000000000#64 =
      [0x0400000000000000#64] := by decide +kernel

/-- F2, F3: a load, and a load turned away. -/
theorem test_ldcnt :
    readCount (after State.reset 0x12100000FFFFFFFE#64).cnt 0x10#8 = 0xFFFFFFFE#32 ∧
      (fun t => (readCount t.cnt 7#8, t.rsp))
        (after { loaded [(7#8, 3#32)] with treeValid := true } 0x1207000000000004#64) =
      (3#32, [0x0400000000000000#64]) := by decide +kernel

/-- F1. -/
theorem test_rdcnt :
    answer (loaded [(0x41#8, 5#32)]) 0x1341000000000000#64 = [5#64] := by decide +kernel

/-- T1: the response, and node 260. -/
theorem test_build_t1 :
    (fun t => (t.rsp, nodeRecord t.nodes 260#9))
      (after (loaded [(0x41#8, 5#32), (0x42#8, 9#32), (0x43#8, 12#32), (0x44#8, 13#32),
        (0x45#8, 16#32), (0x46#8, 45#32)]) 0x2000000000000000#64) =
      ([0x0005000000000104#64], ⟨100#40, 70#9, 259#9⟩) := by decide +kernel

theorem step_build_t3 :
    step (present (loaded countsT3) 0x2000000000000000#64) =
      .next { treeT3 with rsp := [0x0002000000000101#64] } := next_of (by decide +kernel)

/-- T3 (a tie between a leaf and an internal node): the whole state after BUILD. -/
theorem test_build_t3 :
    after (loaded countsT3) 0x2000000000000000#64 =
      { treeT3 with rsp := [0x0002000000000101#64] } := by
  rw [after, step_build_t3, nextOf, Option.getD_some]

/-- T5 (one symbol): the whole state after BUILD. -/
theorem test_build_t5 :
    after (loaded countsT5) 0x2000000000000000#64 =
      { treeT5 with rsp := [0x0001000000000100#64] } := by decide +kernel

/-- Section 2.5: a length, and no tree. -/
theorem test_rdlen :
    answer treeT3 0x2101000000000000#64 = [2#64] ∧
      answer State.reset 0x2105000000000000#64 = [0x0600000000000000#64] := by decide +kernel

/-- T12: the second word of a code longer than 32 bits (here as `PAT` holds it). -/
theorem test_rdcode :
    answer { treeT3 with code := writeCell treeT3.code 0 ⟨46#8, 0x1FFFFFFFFFFF#256⟩ }
      0x2200010000000000#64 = [0x002E000000001FFF#64] := by decide +kernel

/-- T5: `RDNODE 0, 256`; an id that is not live. -/
theorem test_rdnode :
    answer treeT5 0x2300000000000100#64 = [0x000BFE41#64] ∧
      answer treeT5 0x2300000000000105#64 = [0x0003FFFF#64] ∧
      answer treeT5 0x2300000000000041#64 = [0x000FFFFF#64] := by decide +kernel

/-- K2: 32 bits, and a first byte completed across two commands (K3). -/
theorem test_wbits :
    (after State.reset 0x30200000DEADBEEF#64).snk = [0xEF#8, 0xBE#8, 0xAD#8, 0xDE#8] ∧
      (fun t => (t.snk, t.pacc, t.pcnt))
        (after { State.reset with pacc := 5#8, pcnt := 3#3 } 0x300700000000007F#64) =
      ([0xFD#8], 3#8, 2#3) := by decide +kernel

/-- K3: pad, then nothing to pad. -/
theorem test_flush :
    (fun t => (t.snk, t.pacc, t.pcnt, t.rsp))
        (after { State.reset with pacc := 3#8, pcnt := 2#3 } 0x3100000000000000#64) =
      ([3#8], 0#8, 0#3, [0x0006000000000000#64]) ∧
    (fun t => (t.snk, t.rsp)) (after State.reset 0x3100000000000000#64) = ([], [0#64]) := by
  decide +kernel

/-- D3: the first code bits; D6: a symbol with no code. -/
theorem test_enc :
    (fun t => (t.pacc, t.pcnt, t.rsp)) (after treeT3 0x3201000000000000#64) =
        (3#8, 2#3, [0x0002000000000000#64]) ∧
      answer treeT3 0x3203000000000000#64 = [0x0700000000000000#64] ∧
      answer State.reset 0x3205000000000000#64 = [0x0600000000000000#64] := by decide +kernel

/-- U1: bit 0 first; U7: an ended empty source. -/
theorem test_rbit :
    (fun t => (t.uacc, t.urem, t.srcq, t.rsp))
        (after { State.reset with srcq := [0xD9#8] } 0x4000000000000000#64) =
      (0x6C#8, 7#3, [], [1#64]) ∧
    answer { State.reset with srcEos := true } 0x4000000000000000#64 =
      [0x0900000000000000#64] := by decide +kernel

/-- U3: twelve bits of two bytes. -/
theorem test_rbits :
    (fun t => (t.uacc, t.urem, t.srcq, t.rsp))
      (after { State.reset with srcq := [0x76#8, 0x51#8] } 0x410C000000000000#64) =
      (5#8, 4#3, [], [0x176#64]) := by decide +kernel

/-- U8, U9: too few bits fault after the end of the source and hold before it. -/
theorem test_rbits_underrun :
    (fun t => (t.srcq, t.err, t.rsp))
        (after { State.reset with srcq := [0xAB#8], srcEos := true } 0x4109000000000000#64) =
      ([0xAB#8], 9#8, [0x0900000000000000#64]) ∧
    (fun t => (t.srcq, t.held, t.cmdq, t.rsp))
        (after { State.reset with srcq := [0x34#8] } 0x4110000000000000#64) =
      ([0x34#8], true, [0x4110000000000000#64], []) := by decide +kernel

/-- U4. -/
theorem test_ualign :
    (fun t => (t.uacc, t.urem, t.rsp))
      (after { State.reset with uacc := 5#8, urem := 4#3 } 0x4200000000000000#64) =
      (0#8, 0#3, [0x0004000000000005#64]) := by decide +kernel

/-- P5 part b: the second DEC of the message `0x1A`. -/
theorem test_dec :
    (fun t => (t.uacc, t.urem, t.rsp))
      (after { treeT3 with uacc := 0x0D#8, urem := 7#3 } 0x4300000000000000#64) =
      (3#8, 5#3, [0x0002000000000000#64]) := by decide +kernel

/-- D10: a 1 bit at a degenerate root; D11: no bit at all. -/
theorem test_dec_faults :
    (fun t => (t.uacc, t.urem, t.err, t.rsp))
        (after { treeT5 with uacc := 1#8, urem := 7#3 } 0x4300000000000000#64) =
      (1#8, 7#3, 8#8, [0x0800000000000000#64]) ∧
    answer { treeT5 with srcEos := true } 0x4300000000000000#64 =
      [0x0900000000000000#64] := by decide +kernel

/-- U9: the second push lifts the hold; the command then runs from the start. -/
theorem test_hold_lifted :
    (fun t => (t.held, t.srcq, (delivered t).rsp))
      (delivered { State.reset with
        srcq := [0x34#8], cmdq := [0x4110000000000000#64], held := true,
        agenda := [.srcPush 0x12#8] }) =
      (false, [0x34#8, 0x12#8], [0x1234#64]) := by decide +kernel

/-- X4, X5: the lock; a malformed system command reports and does not overwrite. -/
theorem test_lock :
    [0x1302000000000000#64, 0x9900000000000000#64, 0x1000000000000000#64, 0x020C000000000000#64,
      0x0000000000000000#64, 0x0202000000000000#64].flatMap
        (answer { treeT5 with err := 4#8, errcmd := 0x1102000000000000#64 }) =
      [0xFF00000000000000#64, 0xFF00000000000000#64, 0xFF00000000000000#64,
        0x0200000000000000#64, 0#64, 4#64] := by decide +kernel

/-- The host's fetch: the word is the next command after reset. -/
theorem test_fetch :
    (delivered (State.reset.withFetchWord 64 0x0200000000000000)).rsp = [0x48544231#64] := by
  decide +kernel

/-! ### Witnesses: states and operands that meet the statements' hypotheses -/

/-- A state of the invariant with a valid tree of three symbols. -/
theorem inv_treeT3 : Inv treeT3 where
  packer := by unfold PackerOk; decide +kernel
  unpacker := by unfold UnpackerOk; decide +kernel
  tree := by rw [TreeOk, if_pos (by decide +kernel)]; decide +kernel
  record := by unfold RecordOk; decide +kernel
  held := by unfold HeldOk; decide +kernel

/-- A state of the invariant with a valid one-symbol tree. -/
theorem inv_treeT5 : Inv treeT5 where
  packer := by unfold PackerOk; decide +kernel
  unpacker := by unfold UnpackerOk; decide +kernel
  tree := by rw [TreeOk, if_pos (by decide +kernel)]; decide +kernel
  record := by unfold RecordOk; decide +kernel
  held := by unfold HeldOk; decide +kernel

/-- The same with bits to read. -/
theorem inv_source {s : State} (h : Inv s) (hz : s.uacc = 0#8) (q : List Byte) :
    Inv { s with srcq := q } where
  packer := h.packer
  unpacker := by simp [UnpackerOk, hz]
  tree := treeOk_congr h.tree rfl ⟨rfl, rfl, rfl, rfl, rfl, rfl⟩
  record := h.record
  held := h.held

theorem atHead_present (s : State) (c : CmdWord) (h : s.held = false) : AtHead (present s c) c :=
  ⟨h, rfl⟩

theorem witness_EncodedCommandsDecodeBack :
    [Instr.rdreg 11#8, .rdcode 255#8 7#8, .rdnode 2#8 510#9, .wbits 32#8 0xFFFFFFFF#32,
      .rbits 32#8, .rbits 0#8, .ldcnt 255#8 0xFFFFFFFF#32].all Instr.wellFormed = true := by decide

theorem witness_DecodedWordsEncodeBack :
    decode 0x23020000000001FE#64 = .ok (.rdnode 2#8 510#9) := by decide

theorem witness_OperandsAreTheFields :
    decode 0x22FF070000000000#64 = .ok (.rdcode 255#8 7#8) := by decide

/-- Both ends of every range of illegal opcodes. -/
theorem witness_IllegalOpcodeRaises (c : CmdWord)
    (hc : c ∈ [0x0300000000000000#64, 0x0F00000000000000#64, 0x1400000000000000#64,
      0x1FFFFFFFFFFFFFFF#64, 0x2400000000000000#64, 0x2F00000000000000#64, 0x3300000000000000#64,
      0x3F00000000000000#64, 0x4400000000000000#64, 0xFFFFFFFFFFFFFFFF#64]) :
    AtHead (present State.reset c) c ∧ (present State.reset c).err = 0#8 ∧ illegalOpc (opc c) := by
  refine ⟨atHead_present _ _ rfl, rfl, ?_⟩
  unfold illegalOpc opc
  simp only [List.mem_cons, List.not_mem_nil, or_false] at hc
  rcases hc with rfl | rfl | rfl | rfl | rfl | rfl | rfl | rfl | rfl | rfl <;>
    decide +kernel

/-- One word for each field and operand check; the last three are system words. -/
theorem witness_BadFieldsRaise (c : CmdWord)
    (hc : c ∈ [0x3003000100000005#64, 0x3003010000000005#64, 0x3021000000000000#64,
      0x4121000000000000#64, 0x2242080000000000#64, 0x2303000000000000#64, 0x23000000000001FF#64,
      0x2300000000000200#64, 0x2300010000000000#64, 0x1241010000000005#64, 0x1141000000000001#64,
      0x2001000000000000#64, 0x020C000000000000#64, 0x0100000100000000#64,
      0x0000000000000001#64]) :
    AtHead (present State.reset c) c ∧ ¬ illegalOpc (opc c) ∧ ¬ operandsLegal c := by
  refine ⟨atHead_present _ _ rfl, ?_⟩
  unfold illegalOpc operandsLegal fieldRsv fieldA fieldB fieldData opc
  simp only [List.mem_cons, List.not_mem_nil, or_false] at hc
  rcases hc with rfl | rfl | rfl | rfl | rfl | rfl | rfl | rfl | rfl | rfl |
    rfl | rfl | rfl | rfl | rfl <;> decide +kernel

/-- The greatest legal operands. -/
theorem witness_BadFieldsRaise_legal (c : CmdWord)
    (hc : c ∈ [0x020B000000000000#64, 0x3020000000000000#64, 0x4120000000000000#64,
      0x2242070000000000#64, 0x23020000000001FE#64]) :
    ¬ illegalOpc (opc c) ∧ operandsLegal c := by
  unfold illegalOpc operandsLegal fieldRsv fieldA fieldB fieldData opc
  simp only [List.mem_cons, List.not_mem_nil, or_false] at hc
  rcases hc with rfl | rfl | rfl | rfl | rfl <;> decide +kernel

/-- A locked block. -/
def locked : State := { State.reset with err := 4#8, errcmd := 0x1102000000000000#64 }

theorem witness_StepRunsDecodedCommand :
    (AtHead (present State.reset 0x2000000000000000#64) 0x2000000000000000#64 ∧
        State.reset.err = 0#8 ∧ decode 0x2000000000000000#64 = .ok .build) ∧
      (AtHead (present locked 0x0202000000000000#64) 0x0202000000000000#64 ∧
        systemWord 0x0202000000000000#64 ∧ decode 0x0202000000000000#64 = .ok (.rdreg 2#8)) :=
  ⟨⟨atHead_present _ _ rfl, rfl, by decide⟩, atHead_present _ _ rfl,
    by unfold systemWord opc; decide +kernel, by decide⟩

theorem witness_LockTurnsCommandsAway :
    (∀ c ∈ [0x0300000000000000#64, 0x2000000000000001#64, 0x4300000000000000#64],
        AtHead (present locked c) c ∧ (present locked c).err ≠ 0#8 ∧ ¬ systemWord c) ∧
      ∀ c ∈ [0x0000000000000000#64, 0x0100000000000000#64, 0x020B000000000000#64],
        AtHead (present locked c) c ∧ systemWord c ∧ ∃ i, decode c = .ok i := by
  unfold systemWord opc
  refine ⟨fun c hc => ⟨atHead_present _ _ rfl, by simp [present, locked], ?_⟩,
    fun c hc => ⟨atHead_present _ _ rfl, ?_, ?_⟩⟩
  · simp only [List.mem_cons, List.not_mem_nil, or_false] at hc
    rcases hc with rfl | rfl | rfl <;> decide +kernel
  · simp only [List.mem_cons, List.not_mem_nil, or_false] at hc
    rcases hc with rfl | rfl | rfl <;> decide +kernel
  · simp only [List.mem_cons, List.not_mem_nil, or_false] at hc
    rcases hc with rfl | rfl | rfl
    · exact ⟨.nop, by decide⟩
    · exact ⟨.srst, by decide⟩
    · exact ⟨.rdreg 11#8, by decide⟩

theorem witness_RaiseRecordsAndResponds : State.reset.err = 0#8 ∧ locked.err ≠ 0#8 := by decide

theorem witness_FirstFaultIsKept :
    locked.err ≠ 0#8 ∧ ¬ systemWord 0x2000000000000000#64 ∧
      (systemWord 0x020C000000000000#64 ∧ ¬ operandsLegal 0x020C000000000000#64) ∧
      (systemWord 0x0202000000000000#64 ∧ operandsLegal 0x0202000000000000#64 ∧
        opc 0x0202000000000000#64 ≠ 0x01) := by
  unfold systemWord operandsLegal fieldRsv fieldA fieldB fieldData opc
  decide +kernel

/-- The four outcomes, each on a word at the head. -/
theorem witness_EveryCommandHasAnOutcome :
    answer State.reset 0x0000000000000000#64 = [0#64] ∧
      answer State.reset 0x2000000000000000#64 = [0x0500000000000000#64] ∧
      answer locked 0x2000000000000000#64 = [0xFF00000000000000#64] ∧
      (after State.reset 0x4000000000000000#64).held = true := by decide +kernel

/-- A fault, and a hold. -/
theorem witness_FaultsOfEachCommand :
    (exec (.enc 5#8) State.reset = .next (raise .noTree State.reset) ∧
        Answered State.reset (raise .noTree State.reset) (causeCode .noTree) 0#8 0#32) ∧
      exec .rbit State.reset = .next (hold State.reset) ∧ (hold State.reset).held = true :=
  ⟨⟨rfl, (raise_leaves _ _).1⟩, rfl, rfl⟩

theorem witness_ReadsChangeNothing :
    onlyReads (.rdreg 12#8) ∧ onlyReads (.rdnode 2#8 510#9) ∧ onlyReads (.rdcode 255#8 7#8) ∧
      onlyReads (.rdcnt 255#8) ∧ onlyReads (.rdlen 0#8) :=
  ⟨trivial, trivial, trivial, trivial, trivial⟩

/-- SRST ends the fault; so does hardware reset. -/
theorem witness_FaultEndsOnlyByReset :
    locked.err ≠ 0#8 ∧
      step (present locked 0x0100000000000000#64) =
        .next (after locked 0x0100000000000000#64) ∧
      (after locked 0x0100000000000000#64).err ≠ locked.err ∧
      step (arriving locked [.hwReset]) = .next (delivered (arriving locked [.hwReset])) ∧
      (delivered (arriving locked [.hwReset])).err ≠ locked.err :=
  ⟨by decide +kernel, step_after (by decide +kernel), by decide +kernel,
    step_delivered (by decide +kernel), by decide +kernel⟩

theorem witness_StatusRegistersRead :
    (11#8).toNat ≤ 11 ∧ 11 < (12#8).toNat ∧ 11 < (255#8).toNat := by decide

theorem witness_CountOneOccurrence :
    (State.reset.treeValid = false ∧ readCount State.reset.cnt 0#8 ≠ 0xFFFFFFFF#32) ∧
      (loaded countsT3).treeValid = false ∧
      readCount (loaded [(0xFF#8, 0xFFFFFFFE#32)]).cnt 0xFF#8 ≠ 0xFFFFFFFF#32 ∧
      treeT3.treeValid = true ∧
      readCount (loaded [(0xFF#8, 0xFFFFFFFF#32)]).cnt 0xFF#8 = 0xFFFFFFFF#32 := by
  decide +kernel

theorem witness_LoadOneCounter :
    State.reset.treeValid = false ∧ treeT3.treeValid = true := by decide +kernel

theorem witness_FrozenTableRefusesWrites : treeT5.treeValid = true := by decide +kernel

/-- A step that keeps the counters, and one that clears them. -/
theorem witness_ValidTreeFreezesCounters :
    treeT3.treeValid = true ∧
      step (present treeT3 0x1101000000000000#64) = .next (after treeT3 0x1101000000000000#64) ∧
      (after treeT3 0x1101000000000000#64).cnt = treeT3.cnt ∧
      step (present treeT3 0x1000000000000000#64) = .next (after treeT3 0x1000000000000000#64) ∧
      (after treeT3 0x1000000000000000#64).cnt ≠ treeT3.cnt :=
  ⟨by decide +kernel, step_after (by decide +kernel), by decide +kernel,
    step_after (by decide +kernel), by decide +kernel⟩

theorem witness_BuildCompletes : ∃ sym, readCount (loaded countsT3).cnt sym ≠ 0#32 :=
  ⟨0#8, by decide +kernel⟩

theorem witness_BuildOnEmptyTableFaults : ∀ sym, readCount State.reset.cnt sym = 0#32 := fun sym =>
  readCount_fill 0#32 sym

/-- Two nodes of equal weight, a leaf and an internal node. -/
theorem witness_LeastKeysAreTaken :
    (([⟨2#40, 256#9⟩, ⟨2#40, 2#9⟩] : List Key).map Key.id).Nodup ∧
      2 ≤ ([⟨2#40, 256#9⟩, ⟨2#40, 2#9⟩] : List Key).length ∧
      keyLt ⟨2#40, 2#9⟩ ⟨2#40, 256#9⟩ = true := by decide

theorem build_t3 :
    exec .build (present (loaded countsT3) 0x2000000000000000#64) =
      .next { treeT3 with rsp := [0x0002000000000101#64] } := next_of (by decide +kernel)

theorem witness_BuildIsTheGreedyMerge :
    2 ≤ distinctCount (present (loaded countsT3) 0x2000000000000000#64) ∧
      ∃ t, exec .build (present (loaded countsT3) 0x2000000000000000#64) = .next t :=
  ⟨by decide +kernel, _, build_t3⟩

theorem witness_OneSymbolTree :
    readCount (loaded countsT5).cnt 0x41#8 ≠ 0#32 ∧
      ∀ x, x ≠ 0x41#8 → readCount (loaded countsT5).cnt x = 0#32 := by
  refine ⟨by decide +kernel, fun x hx => ?_⟩
  simp only [loaded, countsT5, counters, List.foldl_cons, List.foldl_nil]
  rw [readCount_writeCount, if_neg (fun h => hx h.symm), readCount_fill]

/-- For every statement about a valid tree: one of several symbols, one of a single symbol. -/
theorem witness_ValidTreeStructure :
    (Inv treeT3 ∧ treeT3.treeValid = true ∧ treeT3.degen = false) ∧
      (Inv treeT5 ∧ treeT5.treeValid = true ∧ treeT5.degen = true) :=
  ⟨⟨inv_treeT3, by decide +kernel, by decide +kernel⟩, inv_treeT5, by decide +kernel,
    by decide +kernel⟩

theorem witness_WeightsAreExactSums :
    Inv treeT3 ∧ treeT3.treeValid = true ∧ 256 ≤ (257#9).toNat ∧
      (257#9).toNat < 256 + treeT3.nint.toNat :=
  ⟨inv_treeT3, by decide +kernel, by decide, by decide +kernel⟩

/-- Two states with the same counters that differ in the cells a former tree left. -/
theorem witness_BuildDependsOnCountersOnly :
    (loaded countsT3).cnt = treeT3.cnt ∧
      (∃ sym, readCount (loaded countsT3).cnt sym ≠ 0#32) ∧
      (∃ t, exec .build (loaded countsT3) = .next t) ∧ (∃ t, exec .build treeT3 = .next t) ∧
      (loaded countsT3).nodes ≠ treeT3.nodes := by
  have hb : ∀ s : State, ∃ t, exec .build s = .next t := fun s => by
    simp only [exec, execBuild]
    split <;> exact ⟨_, rfl⟩
  exact ⟨rfl, ⟨0#8, by decide +kernel⟩, hb _, hb _, by decide +kernel⟩

theorem witness_RebuildGivesTheSameTree : Inv treeT5 ∧ treeT5.treeValid = true :=
  ⟨inv_treeT5, by decide +kernel⟩

/-- The last legal view and id, without and with a tree; ids where the node kinds meet. -/
theorem witness_NodeViewsRead :
    ((2#8).toNat ≤ 2 ∧ 510#9 ≠ 511#9) ∧ State.reset.treeValid = false ∧ treeT3.treeValid = true ∧
      (255#9).toNat < 256 ∧ 256 ≤ (256#9).toNat ∧ (257#9).toNat < 256 + treeT3.nint.toNat ∧
      ¬ (258#9).toNat < 256 + treeT3.nint.toNat := by decide +kernel

theorem witness_CodeLengthRead : treeT3.treeValid = true ∧ State.reset.treeValid = false := by
  decide +kernel

theorem witness_CodePatternRead :
    (7#8).toNat ≤ 7 ∧ treeT3.treeValid = true ∧ State.reset.treeValid = false := by decide +kernel

theorem witness_PatternsAreTreePaths :
    Inv treeT3 ∧ treeT3.treeValid = true ∧ readCount treeT3.cnt 1#8 ≠ 0#32 ∧
      readCount treeT3.cnt 3#8 = 0#32 ∧ (readCode treeT3.code 1#8).len.toNat ≤ 255 :=
  ⟨inv_treeT3, by decide +kernel, by decide +kernel, by decide +kernel, by decide +kernel⟩

theorem witness_CodesArePrefixFree :
    (Inv treeT3 ∧ treeT3.treeValid = true ∧ treeT3.degen = false ∧
        readCount treeT3.cnt 0#8 ≠ 0#32 ∧ readCount treeT3.cnt 1#8 ≠ 0#32) ∧
      (Inv treeT5 ∧ treeT5.treeValid = true ∧ treeT5.degen = true) ∧
      (Inv { treeT3 with srcq := [7#8] } ∧
        ({ treeT3 with srcq := [7#8] } : State).cnt = treeT3.cnt) :=
  ⟨⟨inv_treeT3, by decide +kernel, by decide +kernel, by decide +kernel, by decide +kernel⟩,
    ⟨inv_treeT5, by decide +kernel, by decide +kernel⟩,
    inv_source inv_treeT3 rfl _, rfl⟩

theorem witness_OnlyBuildWritesCodes :
    ∃ t, step (present (loaded countsT3) 0x2000000000000000#64) = .next t ∧
      t.code ≠ (loaded countsT3).code :=
  ⟨_, step_build_t3, by decide +kernel⟩

theorem witness_WriteBitsAppends :
    (32#8).toNat ≤ 32 ∧ PackerOk { State.reset with pacc := 0x7F#8, pcnt := 7#3 } := by
  unfold PackerOk; decide

theorem witness_FlushPadsWithZeros :
    PackerOk State.reset ∧ State.reset.pcnt = 0#3 ∧
      PackerOk { State.reset with pacc := 0x7F#8, pcnt := 7#3 } ∧ (7#3) ≠ 0#3 := by
  unfold PackerOk; decide

theorem witness_PackingRunFillsBytes :
    PackerOk treeT3 ∧ treeT3.pcnt = 0#3 ∧
      ∀ i ∈ [Instr.wbits 3#8 5#32, .enc 1#8, .wbits 32#8 0xFFFFFFFF#32, .wbits 0#8 1#32],
        (packs treeT3 i).isSome = true := by
  refine ⟨inv_treeT3.packer, rfl, ?_⟩
  unfold packs
  decide +kernel

/-- A step that emits a byte, and a hardware reset. -/
theorem witness_SinkOnlyGrows :
    step (present State.reset 0x3008000000000004#64) =
        .next (after State.reset 0x3008000000000004#64) ∧
      (after State.reset 0x3008000000000004#64).snk ≠ State.reset.snk ∧
      step (arriving { State.reset with snk := [4#8] } [.hwReset]) =
        .next (delivered (arriving { State.reset with snk := [4#8] } [.hwReset])) ∧
      (delivered (arriving { State.reset with snk := [4#8] } [.hwReset])).snk ≠ [4#8] :=
  ⟨step_after (by decide +kernel), by decide +kernel, step_delivered (by decide +kernel),
    by decide +kernel⟩

/-- The widest read, with exactly enough bits; the widest read from mid-byte; no bit at all. -/
theorem witness_ReadBitsInOrder :
    ((32#8).toNat ≤ 32 ∧ (32#8).toNat ≤ (0#3).toNat + 8 * [1#8, 2#8, 3#8, 4#8].length) ∧
      (32#8).toNat ≤ (7#3).toNat + 8 * [1#8, 2#8, 3#8, 4#8].length ∧
      (0#8).toNat ≤ (0#3).toNat + 8 * ([] : List Byte).length := by decide

theorem witness_ReadBitIsReadBitsOne :
    unreadBits { State.reset with uacc := 1#8, urem := 1#3 } = true :: [] := by decide

/-- A tree, and one bit that leads to an internal node. -/
def midWalk : State := { treeT3 with uacc := 1#8, urem := 1#3 }

theorem witness_UnderrunHoldsOrFaults :
    unreadBits State.reset = [] ∧
      ((32#8).toNat ≤ 32 ∧ (unreadBits State.reset).length < (32#8).toNat) ∧
      (midWalk.treeValid = true ∧
        staysInternal midWalk (unreadBits midWalk) ((unreadBits midWalk).length + 1)) ∧
      State.reset.srcEos = false ∧ ({ midWalk with srcEos := true } : State).srcEos = true := by
  refine ⟨rfl, by decide, ⟨by decide +kernel, fun m h1 h2 => ?_⟩, rfl, rfl⟩
  have hl : (unreadBits midWalk).length = 1 := by decide +kernel
  obtain rfl : m = 1 := by omega
  decide +kernel

/-- Three values of 35 bits, their five bytes, and a block whose source holds exactly those. -/
theorem witness_UnpackerMirrorsPacker :
    let bytes : List Byte := [0x7D#8, 0xF7#8, 0x6D#8, 0xF5#8, 0x06#8]
    let d : State := { State.reset with srcq := bytes }
    (∀ p ∈ [((3#8 : Byte), (5#32 : Word)), (32#8, 0xDEADBEEF#32), (0#8, 1#32)], p.1.toNat ≤ 32) ∧
      PackerOk State.reset ∧ State.reset.pcnt = 0#3 ∧ UnpackerOk d ∧ d.urem = 0#3 ∧
      (runAll [.wbits 3#8 5#32, .wbits 32#8 0xDEADBEEF#32, .wbits 0#8 1#32, .flush]
        State.reset).map State.snk = some (State.reset.snk ++ bytes) ∧
      d.srcq = bytes := by
  unfold PackerOk UnpackerOk
  exact ⟨by simp, by decide +kernel⟩

theorem witness_EncodePacksTheCode :
    (treeT3.treeValid = true ∧ (readCode treeT3.code 1#8).len ≠ 0#8 ∧ PackerOk treeT3) ∧
      State.reset.treeValid = false ∧ (readCode treeT3.code 3#8).len = 0#8 :=
  ⟨⟨by decide +kernel, by decide +kernel, inv_treeT3.packer⟩, rfl, by decide +kernel⟩

/-- D3: the bits 1, 0 are the code of symbol 0. -/
theorem witness_DecodeWalksToFirstLeaf :
    let s : State := { treeT3 with uacc := 1#8, urem := 2#3 }
    s.treeValid = true ∧ 1 ≤ 2 ∧ 2 ≤ (unreadBits s).length ∧ staysInternal s (unreadBits s) 2 ∧
      pathEnd s.nodes s.root ((unreadBits s).take 2) = (0#8).setWidth 9 := by
  refine ⟨by decide +kernel, by decide, by decide +kernel, fun m h1 h2 => ?_, by decide +kernel⟩
  obtain rfl : m = 1 := by omega
  decide +kernel

/-- D10: the bit 1 at a one-symbol root. -/
theorem witness_DecodeWalksToFirstLeaf_badPath :
    let s : State := { treeT5 with uacc := 1#8, urem := 7#3 }
    s.treeValid = true ∧ 1 ≤ (unreadBits s).length ∧ staysInternal s (unreadBits s) 1 ∧
      pathEnd s.nodes s.root ((unreadBits s).take 1) = 511#9 := by
  refine ⟨by decide +kernel, by decide +kernel, fun m h1 h2 => by omega, by decide +kernel⟩

theorem witness_DecodeReturnsCodedSymbol :
    let s : State := { treeT3 with srcq := [0x1A#8] }
    Inv s ∧ s.treeValid = true ∧ readCount s.cnt 2#8 ≠ 0#32 ∧
      unreadBits s = codeBits s 2#8 ++ [true, false, true, true, false, false, false] :=
  ⟨inv_source inv_treeT3 rfl _, by decide +kernel, by decide +kernel, by decide +kernel⟩

/-- A DEC that completes, and one that raises BAD_PATH. -/
theorem witness_BadPathOnlyInOneSymbolTree :
    (Inv { treeT3 with srcq := [0x1A#8] } ∧
        ∃ t, exec .dec { treeT3 with srcq := [0x1A#8] } = .next t) ∧
      Inv { treeT5 with srcq := [1#8] } ∧ ({ treeT5 with srcq := [1#8] } : State).degen = true ∧
      (unreadBits { treeT5 with srcq := [1#8] }).head? = some true :=
  ⟨⟨inv_source inv_treeT3 rfl _, exists_next (by decide +kernel)⟩, inv_source inv_treeT5 rfl _,
    by decide +kernel, by decide +kernel⟩

/-- D3: the message of four symbols, its body, and a block that reads it. -/
theorem witness_SegmentRoundTrip :
    let d : State := { treeT3 with srcq := [0x1A#8] }
    (Inv treeT3 ∧ treeT3.treeValid = true ∧ treeT3.pcnt = 0#3 ∧
        ∀ x ∈ [2#8, 0#8, 1#8, 2#8], readCount treeT3.cnt x ≠ 0#32) ∧
      (Inv d ∧ d.treeValid = true ∧ d.cnt = treeT3.cnt ∧ d.urem = 0#3) ∧
      (runAll [.enc 2#8, .enc 0#8, .enc 1#8, .enc 2#8, .flush] treeT3).map State.snk =
        some d.srcq :=
  ⟨⟨inv_treeT3, by decide +kernel, by decide +kernel, by decide +kernel⟩,
    ⟨inv_source inv_treeT3 rfl _, by decide +kernel, by decide +kernel, by decide +kernel⟩,
    by decide +kernel⟩

/-- A held RBITS, with each act of the agents. -/
def heldState (l : List PortEvent) : State :=
  { State.reset with cmdq := [0x4110000000000000#64], held := true, agenda := l }

theorem witness_HeldCommandWaitsForSource (l : List PortEvent) :
    (heldState l).held = true ∧ (heldState l).cmdq.head? = some 0x4110000000000000#64 ∧
      (heldState l).srcEos = false ∧ (heldState l).agenda = l := ⟨rfl, rfl, rfl, rfl⟩

/-- A block that waits with a command held, and one that waits without any; before and after the end
of the source. -/
theorem witness_SourceActsOnQueueOnly (b : Byte) :
    Waiting (heldState [.srcPush b]) ∧ Waiting (arriving State.reset [.srcEnd]) ∧
      (heldState [.srcPush b]).agenda = [.srcPush b] ∧
      (arriving State.reset [.srcEnd]).agenda = [.srcEnd] ∧
      Waiting (arriving { State.reset with srcEos := true } [.srcPush b]) :=
  ⟨.inl rfl, .inr rfl, rfl, rfl, .inr rfl⟩

theorem witness_IssuedCommandsQueueInOrder (c : CmdWord) :
    Waiting (heldState [.issue c]) ∧ (heldState [.issue c]).agenda = [.issue c] ∧
      Waiting State.reset ∧ State.reset.agenda = [] := ⟨.inl rfl, rfl, .inr rfl, rfl⟩

theorem witness_HardwareResetValues :
    Waiting (heldState [.hwReset]) ∧ (heldState [.hwReset]).agenda = [.hwReset] :=
  ⟨.inl rfl, rfl⟩

theorem witness_EveryStepKeepsInvariant :
    Inv { treeT3 with cmdq := [0x1000000000000000#64] } ∧
      step (present treeT3 0x1000000000000000#64) = .next (after treeT3 0x1000000000000000#64) :=
  ⟨⟨inv_treeT3.packer, inv_treeT3.unpacker,
    treeOk_congr inv_treeT3.tree rfl ⟨rfl, rfl, rfl, rfl, rfl, rfl⟩, inv_treeT3.record,
    by simp [HeldOk]⟩, step_after (by decide +kernel)⟩

end Sys2Proof.Tests
end

section
/-! SUPPORT. One step as a relation on states: an agent acts, or the word at the head of port CMD is
turned away, faults, is held or completes (spec/10_state.md R20, spec/60_exceptions.md R181). -/

namespace Sys2Proof.Machine

/-! ### The agents -/

theorem deliver_idle {s : State} (h : s.agenda = []) : deliver s = s := by
  simp only [deliver, h]

theorem deliver_event {s : State} {e : PortEvent} {rest : List PortEvent}
    (h : s.agenda = e :: rest) : deliver s = arrive e { s with agenda := rest } := by
  simp only [deliver, h]

/-- With no command to run the step is an agent's (R20). -/
theorem step_of_waiting {s : State} (h : Waiting s) : step s = .next (deliver s) := by
  rcases step_cases s with ⟨-, hs⟩ | ⟨c, hc, -⟩
  · exact hs
  · exact absurd h (not_waiting_of_atHead hc)

theorem step_idle {s : State} (hw : Waiting s) (h : s.agenda = []) : step s = .next s := by
  rw [step_of_waiting hw, deliver_idle h]

theorem step_event {s : State} {e : PortEvent} {rest : List PortEvent} (hw : Waiting s)
    (h : s.agenda = e :: rest) : step s = .next (arrive e { s with agenda := rest }) := by
  rw [step_of_waiting hw, deliver_event h]

/-- Before the end of the source a byte is queued and a held command looked at again (R48, R112). -/
theorem pushSource_before_end (b : Byte) {s : State} (h : s.srcEos = false) :
    pushSource b s = { s with srcq := s.srcq ++ [b], held := false } := by
  rw [pushSource, h]
  exact if_neg Bool.false_ne_true

/-- After the end no byte is taken (R48, log entry 2). -/
theorem pushSource_after_end (b : Byte) {s : State} (h : s.srcEos = true) : pushSource b s = s := by
  rw [pushSource, if_pos h]

theorem step_push_before_end {s : State} {b : Byte} {rest : List PortEvent} (hw : Waiting s)
    (ha : s.agenda = .srcPush b :: rest) (he : s.srcEos = false) :
    step s = .next { s with agenda := rest, srcq := s.srcq ++ [b], held := false } :=
  (step_event hw ha).trans (congrArg _ (pushSource_before_end b he))

theorem step_push_after_end {s : State} {b : Byte} {rest : List PortEvent} (hw : Waiting s)
    (ha : s.agenda = .srcPush b :: rest) (he : s.srcEos = true) :
    step s = .next { s with agenda := rest } :=
  (step_event hw ha).trans (congrArg _ (pushSource_after_end b he))

/-! ### The step relation -/

/-- The next states of `s`, each with why it is one. -/
inductive Transition (s : State) : State → Prop where
  /-- No command can run, and an agent acts (R20). -/
  | agents (hw : Waiting s) : Transition s (deliver s)
  /-- The lock turns the word away (R185). -/
  | locked (c : CmdWord) (hc : AtHead s c) (hl : lockRefuses c s = true) :
      Transition s (respondLocked s)
  /-- The decoder rejects the word (R88, R89). -/
  | rejected (c : CmdWord) (r : Reject) (hc : AtHead s c) (hl : lockRefuses c s = false)
      (hd : decode c = .error r) : Transition s (raise (rejectCause r) s)
  /-- The command faults (R187). -/
  | faulted (c : CmdWord) (i : Instr) (f : Cause) (hc : AtHead s c)
      (hl : lockRefuses c s = false) (hd : decode c = .ok i) (hf : f ∈ ownFaults i) :
      Transition s (raise f s)
  /-- The command waits for the source (R112). -/
  | held (c : CmdWord) (i : Instr) (hc : AtHead s c) (hl : lockRefuses c s = false)
      (hd : decode c = .ok i) (hr : readsSource i = true) (he : s.srcEos = false) :
      Transition s (hold s)
  /-- The command completes with its effect (R11). -/
  | completed (c : CmdWord) (i : Instr) (aux : Byte) (data : Word) (s' : State)
      (hc : AtHead s c) (hl : lockRefuses c s = false) (hd : decode c = .ok i)
      (he : Effect i s s') : Transition s (respond 0#8 aux data s')

theorem wellFormed_of_decode {c : CmdWord} {i : Instr} (h : decode c = .ok i) :
    i.wellFormed = true := by
  obtain ⟨-, -, -, hw⟩ := (decode_ok_iff c i).mp h
  exact hw

/-- The opcode of a decoded command is the word's (R86). -/
theorem opcField_of_decode {c : CmdWord} {i : Instr} (h : decode c = .ok i) :
    opcField c = i.opcode := by
  obtain ⟨f, hm, -, -⟩ := (decode_ok_iff c i).mp h
  exact (opcodeMap_fields c f i hm).2.1

/-- Every next state of a step is one of the relation's. -/
theorem transition_of_step {s t : State} (h : step s = .next t) : Transition s t := by
  rcases step_cases s with ⟨hw, hs⟩ | ⟨c, hc, ⟨hl, hs⟩ | ⟨hl, ⟨r, hd, hs⟩ | ⟨i, hd, hs⟩⟩⟩
  · cases hs.symm.trans h
    exact .agents hw
  · cases hs.symm.trans h
    exact .locked c hc hl
  · cases hs.symm.trans h
    exact .rejected c r hc hl hd
  · rw [hs] at h
    rcases exec_cases i s with ⟨f, hx, hf | ⟨-, hill⟩⟩ | ⟨hx, hr, he⟩ | ⟨aux, data, s', hx, he⟩
    · cases hx.symm.trans h
      exact .faulted c i f hc hl hd hf
    · rw [wellFormed_of_decode hd] at hill
      cases hill
    · cases hx.symm.trans h
      exact .held c i hc hl hd hr he
    · cases hx.symm.trans h
      exact .completed c i aux data s' hc hl hd he

/-- The agents leave the counters alone, but for hardware reset (R24, R51). -/
theorem deliver_cnt (s : State) :
    (deliver s).cnt = s.cnt ∨ (s.agenda.head? = some .hwReset ∧ (deliver s).treeValid = false) := by
  rcases ha : s.agenda with _ | ⟨e, rest⟩
  · exact .inl (by rw [deliver_idle ha])
  · rw [deliver_event ha]
    cases e with
    | issue c => exact .inl rfl
    | srcPush b => exact .inl (pushSource_cnt b _)
    | srcEnd => exact .inl rfl
    | hwReset => exact .inr ⟨rfl, rfl⟩

/-- The agents leave `SNK` alone, but for hardware reset (R32, R211). -/
theorem deliver_snk (s : State) :
    (deliver s).snk = s.snk ∨ s.agenda.head? = some .hwReset := by
  rcases ha : s.agenda with _ | ⟨e, rest⟩
  · exact .inl (by rw [deliver_idle ha])
  · rw [deliver_event ha]
    cases e with
    | issue c => exact .inl rfl
    | srcPush b => exact .inl (pushSource_snk b _)
    | srcEnd => exact .inl rfl
    | hwReset => exact .inr rfl

end Sys2Proof.Machine
end

section
/-! SUPPORT. The invariant under each thing a step can do (spec/10_state.md R25 to R30, R40,
R41). -/

namespace Sys2Proof.Machine

/-- The invariant reads these elements and no others; each is unchanged by computation where a step
does not write it. -/
theorem inv_congr {s t : State} (h : Inv s) (hh : HeldOk t) (hc : t.cnt = s.cnt := by rfl)
    (hT : SameTree s t := by exact ⟨rfl, rfl, rfl, rfl, rfl, rfl⟩)
    (hp : t.pacc = s.pacc ∧ t.pcnt = s.pcnt := by exact ⟨rfl, rfl⟩)
    (hu : t.uacc = s.uacc ∧ t.urem = s.urem := by exact ⟨rfl, rfl⟩)
    (hr : SameRecord s t := by exact ⟨rfl, rfl⟩) : Inv t where
  packer := by rw [PackerOk, hp.1, hp.2]; exact h.packer
  unpacker := by rw [UnpackerOk, hu.1, hu.2]; exact h.unpacker
  tree := treeOk_congr h.tree hc hT
  record := by rw [RecordOk, hr.1, hr.2]; exact h.record
  held := hh

/-- A command that is not held cannot be held wrongly. -/
theorem heldOk_of_not_held {s : State} (h : s.held = false) : HeldOk s := by
  intro hh
  rw [h] at hh
  cases hh

/-- Without a tree, the tree state is cleared (R25, R27). -/
theorem treeOk_iff_cleared {s : State} (h : s.treeValid = false) :
    TreeOk s ↔ s.root = Config.nil ∧ s.nint = 0#9 ∧ s.degen = false := by
  rw [TreeOk, h]
  exact Iff.rfl

/-- The tree of a BUILD is the tree of the present counters (R25, R131). -/
theorem treeOk_installTree {s : State} (hne : leafSymbols s.cnt ≠ []) :
    TreeOk (installTree (treeNodes s.cnt) s) := by
  rw [TreeOk, if_pos (installTree_treeValid _ s), installTree_cnt]
  exact ⟨hne, installTree_idem _ s⟩

/-! ### What each effect keeps -/

/-- Pending packer bits stay below `2^PCNT` (R29). -/
theorem effect_packerOk {i : Instr} {s s' : State} (h : Effect i s s') (hp : PackerOk s) :
    PackerOk s' := by
  cases i <;> simp only [Effect] at h
  case nop | rdreg | rdcnt => subst h; exact hp
  case rdlen | rdcode | rdnode => obtain ⟨rfl, -⟩ := h; exact hp
  case srst => subst h; exact Nat.one_pos
  case fclr | ualign => subst h; exact hp
  case fadd | ldcnt | build => obtain ⟨-, rfl⟩ := h; exact hp
  case wbits => obtain ⟨bits, rfl⟩ := h; exact (packBits_spec bits hp).2
  case enc => obtain ⟨-, bits, rfl⟩ := h; exact (packBits_spec bits hp).2
  case flush =>
    rcases h with ⟨-, rfl⟩ | ⟨-, rfl⟩
    · exact hp
    · exact Nat.one_pos
  case rbit | rbits => obtain ⟨u, rfl, -⟩ := h; exact hp
  case dec => obtain ⟨-, u, rfl, -⟩ := h; exact hp

/-- Unread bits of the current byte stay below `2^UREM` (R30). -/
theorem effect_unpackerOk {i : Instr} {s s' : State} (h : Effect i s s') (hu : UnpackerOk s) :
    UnpackerOk s' := by
  cases i <;> simp only [Effect] at h
  case nop | rdreg | rdcnt => subst h; exact hu
  case rdlen | rdcode | rdnode => obtain ⟨rfl, -⟩ := h; exact hu
  case srst | ualign => subst h; exact Nat.one_pos
  case fclr => subst h; exact hu
  case fadd | ldcnt | build => obtain ⟨-, rfl⟩ := h; exact hu
  case wbits => obtain ⟨bits, rfl⟩ := h; simpa [UnpackerOk] using hu
  case enc => obtain ⟨-, bits, rfl⟩ := h; simpa [UnpackerOk] using hu
  case flush => rcases h with ⟨-, rfl⟩ | ⟨-, rfl⟩ <;> exact hu
  case rbit | rbits => obtain ⟨u, rfl, hk⟩ := h; exact hk hu
  case dec => obtain ⟨-, u, rfl, hk⟩ := h; exact hk hu

/-- A tree is never valid over counters it was not built from: the counters change only while none
is valid, or the tree goes with them (R25, R121). -/
theorem effect_treeOk {i : Instr} {s s' : State} (h : Effect i s s') (ht : TreeOk s) :
    TreeOk s' := by
  cases i <;> simp only [Effect] at h
  case nop | rdreg | rdcnt => subst h; exact ht
  case rdlen | rdcode | rdnode => obtain ⟨rfl, -⟩ := h; exact ht
  case srst | fclr => subst h; exact (treeOk_iff_cleared rfl).mpr ⟨rfl, rfl, rfl⟩
  case fadd | ldcnt =>
    obtain ⟨hv, rfl⟩ := h
    exact (treeOk_iff_cleared (by exact hv)).mpr ((treeOk_iff_cleared hv).mp ht)
  case build => obtain ⟨hne, rfl⟩ := h; exact treeOk_installTree hne
  case wbits => obtain ⟨bits, rfl⟩ := h; exact treeOk_congr ht (by simp) (by simp [SameTree])
  case enc => obtain ⟨-, bits, rfl⟩ := h; exact treeOk_congr ht (by simp) (by simp [SameTree])
  case flush =>
    rcases h with ⟨-, rfl⟩ | ⟨-, rfl⟩
    · exact ht
    · exact treeOk_congr ht rfl ⟨rfl, rfl, rfl, rfl, rfl, rfl⟩
  case rbit | rbits =>
    obtain ⟨u, rfl, -⟩ := h
    exact treeOk_congr ht rfl ⟨rfl, rfl, rfl, rfl, rfl, rfl⟩
  case dec =>
    obtain ⟨-, u, rfl, -⟩ := h
    exact treeOk_congr ht rfl ⟨rfl, rfl, rfl, rfl, rfl, rfl⟩
  case ualign => subst h; exact treeOk_congr ht rfl ⟨rfl, rfl, rfl, rfl, rfl, rfl⟩

/-- No effect writes the fault record, but SRST's clears it (R33). -/
theorem effect_recordOk {i : Instr} {s s' : State} (h : Effect i s s') (hr : RecordOk s) :
    RecordOk s' := by
  rcases effect_record h with rfl | ⟨he, hc⟩
  · cases (show s' = resetElements s from h)
    exact ⟨Nat.zero_le _, fun _ => rfl⟩
  · rw [RecordOk, he, hc]
    exact hr

/-! ### What a step keeps -/

theorem inv_respond_effect {i : Instr} {s s' : State} (hi : Inv s) (h : Effect i s s')
    (st aux : Byte) (data : Word) : Inv (respond st aux data s') where
  packer := show PackerOk s' from effect_packerOk h hi.packer
  unpacker := show UnpackerOk s' from effect_unpackerOk h hi.unpacker
  tree := treeOk_congr (effect_treeOk h hi.tree) rfl ⟨rfl, rfl, rfl, rfl, rfl, rfl⟩
  record := show RecordOk s' from effect_recordOk h hi.record
  held := heldOk_of_not_held rfl

theorem inv_respondLocked {s : State} (h : Inv s) : Inv (respondLocked s) :=
  inv_congr h (heldOk_of_not_held rfl)

/-- A fault records its code with the command word, or keeps the first record (R183, R184). -/
theorem recordOk_raise (f : Cause) {s : State} (h : RecordOk s) : RecordOk (raise f s) := by
  obtain ⟨he, hc⟩ := raise_record f s
  rw [RecordOk, he, hc]
  by_cases h0 : s.err = 0#8
  · rw [if_pos h0]
    exact ⟨causeCode_le f, fun hz => absurd hz (causeCode_ne_zero f)⟩
  · rw [if_neg h0, if_neg h0]
    exact h

theorem inv_raise (f : Cause) {s : State} (h : Inv s) : Inv (raise f s) where
  packer := by simpa [PackerOk] using h.packer
  unpacker := by simpa [UnpackerOk] using h.unpacker
  tree := treeOk_congr h.tree (by simp) (by simp [SameTree])
  record := recordOk_raise f h.record
  held := heldOk_of_not_held (raise_held f s)

theorem inv_hold {s : State} (h : Inv s) (hq : s.cmdq ≠ []) : Inv (hold s) :=
  inv_congr h fun _ => hq

theorem inv_hardReset (s : State) : Inv (hardReset s) where
  packer := Nat.one_pos
  unpacker := Nat.one_pos
  tree := (treeOk_iff_cleared rfl).mpr ⟨rfl, rfl, rfl⟩
  record := ⟨Nat.zero_le _, fun _ => rfl⟩
  held := heldOk_of_not_held rfl

theorem inv_pushSource (b : Byte) {s : State} (h : Inv s) : Inv (pushSource b s) := by
  cases he : s.srcEos with
  | false =>
    rw [pushSource_before_end b he]
    exact inv_congr h (heldOk_of_not_held rfl)
  | true => rwa [pushSource_after_end b he]

theorem inv_arrive (e : PortEvent) {s : State} (h : Inv s) : Inv (arrive e s) := by
  cases e with
  | issue c => exact inv_congr h fun _ => List.concat_ne_nil c s.cmdq
  | srcPush b => exact inv_pushSource b h
  | srcEnd => exact inv_congr h (heldOk_of_not_held rfl)
  | hwReset => exact inv_hardReset s

theorem inv_deliver {s : State} (h : Inv s) : Inv (deliver s) := by
  rcases ha : s.agenda with _ | ⟨e, rest⟩
  · rwa [deliver_idle ha]
  · rw [deliver_event ha]
    exact inv_arrive e (inv_congr h h.held)

theorem cmdq_ne_nil_of_atHead {s : State} {c : CmdWord} (h : AtHead s c) : s.cmdq ≠ [] :=
  fun hq => not_waiting_of_atHead h (.inr hq)

theorem inv_transition {s t : State} (hi : Inv s) (h : Transition s t) : Inv t := by
  cases h with
  | agents _ => exact inv_deliver hi
  | locked c _ _ => exact inv_respondLocked hi
  | rejected c r _ _ _ => exact inv_raise _ hi
  | faulted c i f _ _ _ _ => exact inv_raise f hi
  | held c i hc _ _ _ _ => exact inv_hold hi (cmdq_ne_nil_of_atHead hc)
  | completed c i aux data s' _ _ _ he => exact inv_respond_effect hi he _ aux data

theorem inv_reset : Inv State.reset := inv_hardReset State.reset

end Sys2Proof.Machine
end

section
/-! SUPPORT. The code table entry of a symbol under a valid tree (spec/10_state.md R28,
spec/44_code_table.md R150, R151). -/

namespace Sys2Proof.Machine

/-- The pattern's bits above its length are 0 (R28). -/
theorem BuiltTree.pat_above_len {s : State} {t : HTree} (h : BuiltTree s t) (sym : Byte) {k : Nat}
    (hk : (readCode s.code sym).len.toNat ≤ k) : (readCode s.code sym).pat.getLsbD k = false := by
  by_cases hs : readCount s.cnt sym = 0#32
  · rw [h.code_absent hs]
    exact BitVec.getLsbD_zero
  · obtain ⟨hlen, -, hpat⟩ := h.code_of_path (h.path_exists hs)
    rw [hlen] at hk
    rw [hpat, getLsbD_ofBits, List.getD_eq_default _ _ hk, Bool.and_false]

/-- A symbol has no code exactly when its counter is 0 (R28, R150). -/
theorem BuiltTree.len_eq_zero_iff {s : State} {t : HTree} (h : BuiltTree s t) (sym : Byte) :
    (readCode s.code sym).len = 0#8 ↔ readCount s.cnt sym = 0#32 := by
  refine ⟨fun hl => ?_, fun hs => by rw [h.code_absent hs]⟩
  by_contra hs
  have hpath := h.path_exists hs
  have hpos : 1 ≤ (codeBits s sym).length := (h.path_pos hpath).1
  have hlen := (h.code_of_path hpath).1
  rw [hl] at hlen
  exact absurd hlen.symm (Nat.ne_of_gt hpos)

end Sys2Proof.Machine
end

section
/-! SUPPORT. The statements' own readings of the state (Sys2Proof.Spec): the opcode of an executed
word, the sink after a step, the status registers after reset. -/

namespace Sys2Proof.Spec

open Sys2Proof.Machine

/-- The opcode of a decoded command, as a number (R81, R86). -/
theorem opc_of_decode {c : CmdWord} {i : Instr} (h : decode c = .ok i) :
    opc c = i.opcode.toNat := by
  rw [← opcField_of_decode h, opcField_toNat, opc]
  have := c.isLt
  omega

/-- The sink after one step: as before, but for hardware reset and for a WBITS, FLUSH or ENC, which
append to it (R32, R101). -/
theorem step_snk {s t : State} (h : step s = .next t) :
    t.snk = s.snk ∨ (Waiting s ∧ s.agenda.head? = some .hwReset) ∨
      (s.snk <+: t.snk ∧ ∃ c, AtHead s c ∧ (opc c = 0x30 ∨ opc c = 0x31 ∨ opc c = 0x32)) := by
  cases transition_of_step h with
  | agents hw => exact (deliver_snk s).imp_right fun ha => .inl ⟨hw, ha⟩
  | locked c _ _ => exact .inl rfl
  | rejected c r _ _ _ => exact .inl (raise_snk _ s)
  | faulted c i f _ _ _ _ => exact .inl (raise_snk f s)
  | held c i _ _ _ _ _ => exact .inl rfl
  | completed c i aux data s' hc _ hd he =>
    have ho := opc_of_decode hd
    rcases effect_snk he with hs | ⟨hpre, ⟨n, v, rfl⟩ | rfl | ⟨x, rfl⟩⟩
    · exact .inl hs
    · exact .inr (.inr ⟨hpre, c, hc, .inl ho⟩)
    · exact .inr (.inr ⟨hpre, c, hc, .inr (.inl ho)⟩)
    · exact .inr (.inr ⟨hpre, c, hc, .inr (.inr ho)⟩)

theorem readCount_reset (sym : Byte) : readCount State.reset.cnt sym = 0#32 :=
  readCount_fill 0#32 sym

theorem counterSum_reset : counterSum State.reset = 0 := by
  simp only [counterSum, readCount_reset, BitVec.toNat_zero, List.map_const', List.sum_replicate,
    smul_zero]

theorem distinctCount_reset : distinctCount State.reset = 0 := by
  simp only [distinctCount, readCount_reset, bne_self_eq_false, List.filter_false, List.length_nil]

/-- The twelve registers in the reset state (R36). -/
theorem registerValue_reset : (List.range 12).map (registerValue State.reset) =
    [0x48544231, 0x20, 0, 0, 0, 0, 0, 0, 0x1FF, 0, 0, 0] := by
  have hrange : List.range 12 = [0, 1, 2, 3, 4, 5, 6, 7, 8, 9, 10, 11] := rfl
  simp only [hrange, List.map, registerValue, counterSum_reset, distinctCount_reset]
  decide

end Sys2Proof.Spec
end

section
/-! PROOFS. The statements of the family 10_state.md. -/

namespace Sys2Proof.Proofs.StateRules

open Sys2Proof Sys2Proof.Machine Sys2Proof.Spec

/-- Settles O60: a step is a transition, and each kind of transition keeps the invariant. -/
theorem everyStepKeepsInvariant : Obligations.EveryStepKeepsInvariant := by
  intro s t hi h
  exact inv_transition hi (transition_of_step h)

/-- Settles O24: of the commands that complete only FCLR and SRST, and of the agents' acts only
hardware reset, change a counter under a valid tree. -/
theorem validTreeFreezesCounters : Obligations.ValidTreeFreezesCounters := by
  intro s t hv h
  cases transition_of_step h with
  | agents hw => exact (deliver_cnt s).imp_right fun ⟨ha, ht⟩ => ⟨ht, .inr ⟨hw, ha⟩⟩
  | locked c _ _ => exact .inl rfl
  | rejected c r _ _ _ => exact .inl (raise_cnt _ s)
  | faulted c i f _ _ _ _ => exact .inl (raise_cnt f s)
  | held c i _ _ _ _ _ => exact .inl rfl
  | completed c i aux data s' hc _ hd he =>
    rcases effect_cnt he hv with ⟨rfl | rfl, ht⟩ | hcnt
    · exact .inr ⟨ht, .inl ⟨c, hc, .inr hd⟩⟩
    · exact .inr ⟨ht, .inl ⟨c, hc, .inl hd⟩⟩
    · exact .inl hcnt

/-- Settles O37: a coded symbol's bits are the one path from the root to its leaf. -/
theorem patternsAreTreePaths : Obligations.PatternsAreTreePaths := by
  intro s hi hv sym
  obtain ⟨t, ht⟩ := treeOk_built hi.tree hv
  exact ⟨fun hs => ht.path_unique.mpr ⟨hs, rfl⟩, fun _ => ht.pat_above_len sym,
    (ht.len_eq_zero_iff sym).symm⟩

/-- Settles O43: of what a step can do, only hardware reset drops bytes of `SNK`, and only the three
packing commands add to it. -/
theorem sinkOnlyGrows : Obligations.SinkOnlyGrows := by
  intro s t h
  rcases step_snk h with hs | hreset | ⟨hpre, hword⟩
  · exact ⟨.inl (hs ▸ List.prefix_refl _), fun hne => absurd hs hne⟩
  · exact ⟨.inr hreset, fun _ => .inl hreset⟩
  · exact ⟨.inl hpre, fun _ => .inr hword⟩

/-- Settles O55: the two acts of the source, the push before and after the end. -/
theorem sourceActsOnQueueOnly : Obligations.SourceActsOnQueueOnly := by
  intro s rest hw
  refine ⟨fun b ha => ?_, fun ha => ⟨_, step_event hw ha, ?_⟩⟩
  · cases he : s.srcEos with
    | false =>
      refine ⟨_, step_push_before_end hw ha he, ?_⟩
      simp [SameCounters, SameTree, SamePacker, SameRecord, he]
    | true =>
      refine ⟨_, step_push_after_end hw ha he, ?_⟩
      simp [SameCounters, SameTree, SamePacker, SameRecord, he]
  · simp [arrive, SameCounters, SameTree, SamePacker, SameRecord]

/-- Settles O56: the event at the head of the agenda happens, or none is left. -/
theorem issuedCommandsQueueInOrder : Obligations.IssuedCommandsQueueInOrder := by
  intro s hw
  exact ⟨fun c rest ha => step_event hw ha, step_idle hw⟩

/-- Settles O58: the counters are a filled table, the other elements are stored as they stand. -/
theorem stateAfterReset : Obligations.StateAfterReset :=
  ⟨readCount_reset, rfl, rfl, rfl, rfl, rfl, rfl, rfl, rfl, rfl, rfl, rfl, rfl, rfl,
    registerValue_reset⟩

/-- Settles O59: the reset state is what a hardware reset leaves. -/
theorem resetMeetsInvariant : Obligations.ResetMeetsInvariant := inv_reset

end Sys2Proof.Proofs.StateRules
end

section
/-! SUPPORT. What a read of the indexed spaces can do (spec/20_memory.md R70). -/

namespace Sys2Proof.Spec

open Sys2Proof.Machine

/-- A read completes from the state it found. -/
theorem effect_of_onlyReads {i : Instr} {s s' : State} (hr : onlyReads i) (h : Effect i s s') :
    s' = s := by
  cases i <;> simp only [onlyReads] at hr <;> simp only [Effect] at h
  case rdreg | rdcnt => exact h
  case rdlen | rdcode | rdnode => exact h.1

/-- A read of the indexed spaces takes no bits from the source, so it is never held (R112). -/
theorem readsSource_of_onlyReads {i : Instr} (hr : onlyReads i) : readsSource i = false := by
  cases i <;> simp only [onlyReads] at hr <;> rfl

/-- A read answers from the state it found, or faults. -/
theorem exec_of_onlyReads {i : Instr} (hr : onlyReads i) (s : State) :
    (∃ aux data, exec i s = .next (respond 0#8 aux data s)) ∨
      ∃ f, exec i s = .next (raise f s) := by
  rcases exec_cases i s with ⟨f, hf, -⟩ | ⟨-, hsrc, -⟩ | ⟨aux, data, s', he, heff⟩
  · exact .inr ⟨f, hf⟩
  · rw [readsSource_of_onlyReads hr] at hsrc
    cases hsrc
  · cases effect_of_onlyReads hr heff
    exact .inl ⟨aux, data, he⟩

end Sys2Proof.Spec
end

section
/-! PROOFS. The statements of the family 20_memory.md. -/

namespace Sys2Proof.Proofs.MemoryRules

open Sys2Proof Sys2Proof.Machine Sys2Proof.Spec

/-- Settles O14: a read answers from the state it found, and a response changes nothing of the
block; or it faults, which writes the record only. -/
theorem readsChangeNothing : Obligations.ReadsChangeNothing := by
  intro i s hr
  rcases exec_of_onlyReads hr s with ⟨aux, data, he⟩ | ⟨f, hf⟩
  · obtain ⟨hcnt, htree, hpack, hunpack, hrec⟩ := sameBlock_respond 0#8 aux data s
    exact ⟨_, he, hcnt, htree, hpack, hunpack, .inl ⟨data, aux, answered_self _ _ _ s, hrec⟩⟩
  · obtain ⟨-, -, hcnt, htree, hpack, hunpack⟩ := raise_leaves f s
    exact ⟨_, hf, hcnt, htree, hpack, hunpack, .inr ⟨f, raise_leaves f s⟩⟩

end Sys2Proof.Proofs.MemoryRules
end

section
/-! SUPPORT. Encoding and decoding are inverse to each other (spec/30_encoding.md R81 to R83,
R90). -/

namespace Sys2Proof

/-- The encoder leaves every field its format does not use zero (R82, R90). -/
theorem shapeOk_encode (i : Instr) : shapeOk i.format (encode i) = true := by
  rw [shapeOk_iff]
  cases i
  case rdnode sel id =>
    have hid : id.toNat < 512 := id.isLt
    simpa [encode, Instr.format, unusedZero] using lt_of_le_of_lt (Nat.mod_le _ _) hid
  all_goals simp [encode, Instr.format, unusedZero]

theorem decode_encode {i : Instr} (hw : i.wellFormed = true) : decode (encode i) = .ok i :=
  (decode_ok_iff _ i).mpr ⟨i.format, opcodeMap_encode i, shapeOk_encode i, hw⟩

/-- What a decoded word holds: its command's opcode, the operands in their fields, zeros in the
others. -/
theorem fields_of_decode {c : CmdWord} {i : Instr} (h : decode c = .ok i) :
    opcField c = i.opcode ∧ fieldsOf c i ∧ rsvField c = 0#8 ∧
      unusedZero i.format (aField c) (bField c) (dataField c) := by
  obtain ⟨f, hm, hs, -⟩ := (decode_ok_iff c i).mp h
  obtain ⟨rfl, ho, hf⟩ := opcodeMap_fields c f i hm
  exact ⟨ho, hf, (shapeOk_iff _ c).mp hs⟩

/-- The node id field is all of `DATA` when `DATA[31:9]` is 0 (R82, R83). -/
theorem nodeField_of_data_lt {c : CmdWord} (h : (dataField c).toNat < 512) :
    (nodeField c).toNat = (dataField c).toNat := by
  rw [dataField_toNat] at h ⊢
  rw [nodeField_toNat]
  omega

theorem encode_of_decode {c : CmdWord} {i : Instr} (h : decode c = .ok i) : encode i = c := by
  obtain ⟨ho, hf, hr, hz⟩ := fields_of_decode h
  rw [← rawWord_fields c, ho, hr]
  cases i
  case rdnode sel id =>
    obtain ⟨rfl, rfl⟩ := hf
    obtain ⟨hb, hd⟩ := hz
    have hnode : (nodeField c).setWidth 32 = dataField c := by
      apply BitVec.eq_of_toNat_eq
      rw [BitVec.toNat_setWidth, nodeField_of_data_lt hd, Nat.mod_eq_of_lt (dataField c).isLt]
    simp [encode, hb, hnode]
  all_goals
    simp only [fieldsOf, Instr.format, unusedZero] at hf hz
    simp [encode, hf, hz]

end Sys2Proof
end

section
/-! SUPPORT. The statements' own numeric fields (Sys2Proof.Spec) are the decoder's, and what the
opcode and the fields of a word say of its decoding (spec/30_encoding.md R81, R87 to R89). -/

namespace Sys2Proof.Spec

open Sys2Proof.Machine

theorem opc_eq (c : CmdWord) : opc c = (opcField c).toNat := by
  rw [opcField_toNat, opc]
  have := c.isLt
  omega

theorem fieldA_eq (c : CmdWord) : fieldA c = (aField c).toNat := (aField_toNat c).symm

theorem fieldB_eq (c : CmdWord) : fieldB c = (bField c).toNat := (bField_toNat c).symm

theorem fieldRsv_eq (c : CmdWord) : fieldRsv c = (rsvField c).toNat := (rsvField_toNat c).symm

theorem fieldData_eq (c : CmdWord) : fieldData c = (dataField c).toNat := (dataField_toNat c).symm

/-- The opcode map has a row for every opcode outside the illegal ranges, and for no other (R86,
R88). -/
theorem opcodeMap_eq_none_iff (c : CmdWord) : opcodeMap c = none ↔ illegalOpc (opc c) := by
  rw [opc_eq]
  unfold opcodeMap
  split
  -- The last case is the map's default: the opcode is none of the 18.
  case h_19 =>
    refine iff_of_true rfl ?_
    have := (opcField c).isLt
    simp only [← BitVec.toNat_inj, BitVec.toNat_ofNat, illegalOpc, imp_false] at *
    omega
  all_goals
    rename_i ho
    rw [ho]
    simp [illegalOpc]

theorem decode_illegalOpcode_iff (c : CmdWord) :
    decode c = .error .illegalOpcode ↔ illegalOpc (opc c) := by
  rw [← opcodeMap_eq_none_iff, decode]
  rcases opcodeMap c with _ | ⟨f, i⟩
  · simp
  · cases hs : shapeOk f c && i.wellFormed <;> simp [hs]

/-- A `DATA` field below 511 is a node id other than `NIL` with zeros above it (R82, R83). -/
theorem data_lt_iff_node (c : CmdWord) :
    (dataField c).toNat < 511 ↔ (dataField c).toNat < 512 ∧ nodeField c ≠ Config.nil := by
  simp only [Ne, ← BitVec.toNat_inj, nodeField_toNat, dataField_toNat, BitVec.toNat_ofNat]
  omega

/-- With the operands in their fields, the mask test and the operand ranges are the statement's
own legality of the numeric fields (R82, R83, R89). -/
theorem operandsLegal_iff {c : CmdWord} {i : Instr} (ho : opcField c = i.opcode)
    (hf : fieldsOf c i) :
    operandsLegal c ↔ shapeOk i.format c = true ∧ i.wellFormed = true := by
  rw [shapeOk_iff]
  simp only [operandsLegal, opc_eq, ho, fieldA_eq, fieldB_eq, fieldRsv_eq, fieldData_eq]
  cases i
  case rdnode =>
    obtain ⟨rfl, rfl⟩ := hf
    simp [Instr.opcode, Instr.format, unusedZero, Instr.wellFormed, BitVec.toNat_eq,
      data_lt_iff_node, and_assoc, and_left_comm, and_comm]
  case rdreg | rbits | fadd | rdcnt | rdlen | enc =>
    cases hf
    simp [Instr.opcode, Instr.format, unusedZero, Instr.wellFormed, BitVec.toNat_eq, and_assoc,
      and_comm]
  case wbits | ldcnt | rdcode =>
    obtain ⟨rfl, rfl⟩ := hf
    simp [Instr.opcode, Instr.format, unusedZero, Instr.wellFormed, BitVec.toNat_eq, and_assoc,
      and_comm]
  all_goals
    simp [Instr.opcode, Instr.format, unusedZero, Instr.wellFormed, BitVec.toNat_eq]

/-- A word with a legal opcode decodes exactly when its fields are legal (R87, R89). -/
theorem exists_decode_iff {c : CmdWord} (h : ¬ illegalOpc (opc c)) :
    (∃ i, decode c = .ok i) ↔ operandsLegal c := by
  obtain ⟨⟨f, i⟩, hm⟩ := Option.ne_none_iff_exists'.mp (mt (opcodeMap_eq_none_iff c).mp h)
  obtain ⟨rfl, ho, hf⟩ := opcodeMap_fields c f i hm
  simp [decode_ok_iff, hm, operandsLegal_iff ho hf, and_assoc]

/-- A word with a legal opcode is rejected for its fields or not at all (R87, R89). -/
theorem decode_illegalOperand_iff {c : CmdWord} (h : ¬ illegalOpc (opc c)) :
    decode c = .error .illegalOperand ↔ ¬ operandsLegal c := by
  rw [← exists_decode_iff h]
  rcases hd : decode c with (_ | _) | i
  · exact absurd ((decode_illegalOpcode_iff c).mp hd) h
  · simp
  · simp

/-! ### A step on the word at the head -/

/-- The system commands are the three the lock lets pass (R87 step 1). -/
theorem systemOpcode_iff (c : CmdWord) : systemOpcode (opcField c) = true ↔ systemWord c := by
  simp only [systemOpcode, systemWord, opc_eq, Bool.or_eq_true, beq_iff_eq, BitVec.toNat_eq,
    BitVec.toNat_ofNat]
  omega

theorem lockRefuses_eq_false {s : State} {c : CmdWord} (h : s.err = 0#8 ∨ systemWord c) :
    lockRefuses c s = false := by
  rcases h with he | hsys
  · simp [lockRefuses, he]
  · simp [lockRefuses, (systemOpcode_iff c).mpr hsys]

/-- A step runs the word at the head of port CMD (R20, R46). -/
theorem step_of_atHead {s : State} {c : CmdWord} (h : AtHead s c) : step s = runWord c s := by
  simp [step, nextCommand, h.1, h.2]

theorem headWord_of_atHead {s : State} {c : CmdWord} (h : AtHead s c) : s.headWord = c := by
  rw [State.headWord, List.headD_eq_head?_getD, h.2, Option.getD_some]

/-- A rejected word that the lock lets pass raises the rejection's fault (R87 steps 2 and 3). -/
theorem step_of_decode_error {s : State} {c : CmdWord} {r : Reject} (hc : AtHead s c)
    (hp : s.err = 0#8 ∨ systemWord c) (hd : decode c = .error r) :
    step s = .next (raise (rejectCause r) s) := by
  rw [step_of_atHead hc, runWord, judge, lockRefuses_eq_false hp, hd]
  rfl

/-- A command whose word the lock lets pass is executed (R87 step 4). -/
theorem step_of_decode_ok {s : State} {c : CmdWord} {i : Instr} (hc : AtHead s c)
    (hp : s.err = 0#8 ∨ systemWord c) (hd : decode c = .ok i) : step s = exec i s := by
  rw [step_of_atHead hc, runWord, judge, lockRefuses_eq_false hp, hd]
  rfl

end Sys2Proof.Spec
end

section
/-! PROOFS. The statements of the family 30_encoding.md. -/

namespace Sys2Proof.Proofs.EncodingRules

open Sys2Proof Sys2Proof.Machine Sys2Proof.Spec

/-- Settles O2: the opcode map reads the encoded command under its own format, and the encoder
leaves the unused fields zero. -/
theorem encodedCommandsDecodeBack : Obligations.EncodedCommandsDecodeBack :=
  fun _ hw => decode_encode hw

/-- Settles O3: a word is determined by its fields, and an accepted word's are those the encoder
writes. -/
theorem decodedWordsEncodeBack : Obligations.DecodedWordsEncodeBack :=
  fun _ _ h => ⟨wellFormed_of_decode h, encode_of_decode h⟩

/-- Settles O4: the opcode map takes each operand from its field; RDNODE's id is all of `DATA`, of
which the shape test leaves nine bits. -/
theorem operandsAreTheFields : Obligations.OperandsAreTheFields := by
  intro c i h
  have ho := opc_of_decode h
  obtain ⟨-, hf, -, hz⟩ := fields_of_decode h
  cases i
  case nop | srst | fclr | build | flush | rbit | ualign | dec => exact ho
  case rdreg | fadd | rdcnt | rdlen | enc | rbits =>
    cases hf
    exact ⟨ho, (fieldA_eq c).symm⟩
  case ldcnt | wbits =>
    obtain ⟨rfl, rfl⟩ := hf
    exact ⟨ho, (fieldA_eq c).symm, (fieldData_eq c).symm⟩
  case rdcode =>
    obtain ⟨rfl, rfl⟩ := hf
    exact ⟨ho, (fieldA_eq c).symm, (fieldB_eq c).symm⟩
  case rdnode =>
    obtain ⟨rfl, rfl⟩ := hf
    exact ⟨ho, (fieldA_eq c).symm, (nodeField_of_data_lt hz.2).trans (fieldData_eq c).symm⟩

/-- Settles O5: the opcode map has no row exactly for an illegal opcode, and the rejection raises
the fault, which records the word at the head. -/
theorem illegalOpcodeRaises : Obligations.IllegalOpcodeRaises := by
  refine ⟨decode_illegalOpcode_iff, fun s c hc he hill => ?_⟩
  have hd := (decode_illegalOpcode_iff c).mpr hill
  obtain ⟨hcode, hword⟩ := raise_record .illegalOpcode s
  rw [if_pos he] at hcode hword
  exact ⟨_, step_of_decode_error hc (.inl he) hd, raise_leaves _ s, hcode,
    hword.trans (headWord_of_atHead hc)⟩

/-- Settles O6: with a legal opcode the decoder's tests are the statement's field conditions, and
the rejection raises the fault. -/
theorem badFieldsRaise : Obligations.BadFieldsRaise := by
  refine ⟨fun c hleg => ⟨decode_illegalOperand_iff hleg, exists_decode_iff hleg⟩,
    fun s c hc hp hleg hbad => ?_⟩
  have hd := (decode_illegalOperand_iff hleg).mpr hbad
  exact ⟨_, step_of_decode_error hc hp hd, raise_leaves _ s⟩

/-- Settles O1: each word is the encoding of its command (R94). -/
theorem workedWordsDecode : Obligations.WorkedWordsDecode :=
  ⟨decode_encode (i := .fadd 0x41#8) rfl, decode_encode (i := .ldcnt 0x52#8 2#32) rfl,
    decode_encode (i := .wbits 3#8 5#32) rfl, decode_encode (i := .rdcode 0x42#8 0#8) rfl,
    decode_encode (i := .rdnode 1#8 259#9) rfl, decode_encode (i := .build) rfl,
    decode_encode (i := .dec) rfl, rfl⟩

/-- Settles O7: the word is at the head, the lock lets it pass, and it decodes. -/
theorem stepRunsDecodedCommand : Obligations.StepRunsDecodedCommand :=
  fun _ _ _ hc hp hd => step_of_decode_ok hc hp hd

end Sys2Proof.Proofs.EncodingRules
end

section
/-! SUPPORT. What a packing command does to the bits the packer has accepted, and what FLUSH makes of
those still pending (spec/40_bit_packer.md R100 to R103). -/

namespace Sys2Proof.Machine

/-- `t` has accepted the bits of `s` and then `bits`, the last ones pending, and the rest of the
block is unchanged (R100, R102, R161). -/
structure Appends (s t : State) (bits : List Bool) : Prop where
  packed : packedBits t = packedBits s ++ bits
  snk_prefix : s.snk <+: t.snk
  packerOk : PackerOk t
  counters : SameCounters s t
  tree : SameTree s t
  unpacker : SameUnpacker s t
  record : SameRecord s t

theorem appends_nil {s : State} (h : PackerOk s) : Appends s s [] where
  packed := (List.append_nil _).symm
  snk_prefix := List.prefix_refl _
  packerOk := h
  counters := rfl
  tree := ⟨rfl, rfl, rfl, rfl, rfl, rfl⟩
  unpacker := ⟨rfl, rfl, rfl, rfl⟩
  record := ⟨rfl, rfl⟩

theorem Appends.trans {s t u : State} {bits more : List Bool} (h : Appends s t bits)
    (h' : Appends t u more) : Appends s u (bits ++ more) where
  packed := by rw [h'.packed, h.packed, List.append_assoc]
  snk_prefix := h.snk_prefix.trans h'.snk_prefix
  packerOk := h'.packerOk
  counters := Eq.trans h'.counters h.counters
  tree := by
    obtain ⟨hv, hd, hr, hn, hm, hc⟩ := h.tree
    obtain ⟨hv', hd', hr', hn', hm', hc'⟩ := h'.tree
    exact ⟨hv'.trans hv, hd'.trans hd, hr'.trans hr, hn'.trans hn, hm'.trans hm, hc'.trans hc⟩
  unpacker := by
    obtain ⟨ha, hr, hq, he⟩ := h.unpacker
    obtain ⟨ha', hr', hq', he'⟩ := h'.unpacker
    exact ⟨ha'.trans ha, hr'.trans hr, hq'.trans hq, he'.trans he⟩
  record := ⟨h'.record.1.trans h.record.1, h'.record.2.trans h.record.2⟩

/-- The accepted bits fill whole bytes, and fewer than eight are pending. -/
theorem Appends.counts {s t : State} {bits : List Bool} (h : Appends s t bits) :
    t.snk.length = s.snk.length + (s.pcnt.toNat + bits.length) / 8 ∧
      t.pcnt.toNat = (s.pcnt.toNat + bits.length) % 8 := by
  have hlen := congrArg List.length h.packed
  have hlt : t.pcnt.toNat < 8 := t.pcnt.isLt
  simp only [packedBits_length, List.length_append] at hlen
  omega

theorem appends_respond_packBits (bits : List Bool) {s : State} (h : PackerOk s) (st aux : Byte)
    (data : Word) : Appends s (respond st aux data (packBits bits s)) bits where
  packed := (packBits_spec bits h).1
  snk_prefix := packBits_snk_prefix bits s
  packerOk := (packBits_spec bits h).2
  counters := packBits_cnt bits s
  tree := by simp [SameTree]
  unpacker := by simp [SameUnpacker]
  record := by simp [SameRecord]

theorem answered_respond_packBits (bits : List Bool) (s : State) (st aux : Byte) (data : Word) :
    Answered s (respond st aux data (packBits bits s)) st aux data :=
  answered_respond (packBits_rsp bits s) (packBits_cmdq bits s) (packBits_agenda bits s) st aux data

/-! ### The packing commands, where they complete -/

theorem exec_wbits {n : Byte} (hn : n.toNat ≤ 32) (value : Word) (s : State) :
    exec (.wbits n value) s =
      .next (respond 0#8 0#8 0#32 (packBits (lowBits value n.toNat) s)) := by
  simp [exec, execWbits, bitCountOf, complete, hn]

theorem exec_enc_coded {s : State} {sym : Byte} (hv : s.treeValid = true)
    (hl : (readCode s.code sym).len ≠ 0#8) :
    exec (.enc sym) s =
      .next (respond 0#8 (readCode s.code sym).len 0#32 (packBits (codeBits s sym) s)) := by
  simp [exec, execEnc, complete, codeBits, hv, hl]

/-! ### FLUSH -/

/-- At a byte boundary every accepted bit is in `SNK`. -/
theorem packedBits_of_pcnt_eq_zero {s : State} (h : s.pcnt = 0#3) :
    packedBits s = streamBits s.snk := by
  simp [packedBits, h]

/-- At a byte boundary the partial byte is empty (R29). -/
theorem pacc_of_pcnt_eq_zero {s : State} (h : PackerOk s) (h0 : s.pcnt = 0#3) : s.pacc = 0#8 := by
  rw [PackerOk, h0] at h
  exact BitVec.eq_of_toNat_eq (Nat.lt_one_iff.mp h)

/-- The byte FLUSH emits is the pending bits and zeros (R103). -/
theorem streamBits_snk_pacc {s : State} (h : PackerOk s) :
    streamBits (s.snk ++ [s.pacc]) =
      packedBits s ++ List.replicate (8 - s.pcnt.toNat) false := by
  simp [packedBits, byteBits_pacc h]

/-- At a byte boundary FLUSH only answers (R103). -/
theorem exec_flush_aligned {s : State} (h : s.pcnt = 0#3) :
    exec .flush s = .next (respond 0#8 0#8 0#32 s) := by
  simp [exec, execFlush, complete, h]

/-- With bits pending FLUSH emits the partial byte (R103). -/
theorem exec_flush_pending {s : State} (h : s.pcnt ≠ 0#3) :
    exec .flush s = .next (respond 0#8 (BitVec.ofNat 8 (padBits s.pcnt)) 0#32
      { emit s.pacc s with pacc := 0#8, pcnt := 0#3 }) := by
  simp [exec, execFlush, complete, h]

/-- With bits pending, the pad reaches the end of the byte. -/
theorem padBits_of_pending {pcnt : BitVec 3} (h : pcnt ≠ 0#3) : padBits pcnt = 8 - pcnt.toNat := by
  have hpos : pcnt.toNat ≠ 0 := fun hz => h (BitVec.eq_of_toNat_eq hz)
  rw [padBits]
  omega

theorem padBits_byte (pcnt : BitVec 3) : (BitVec.ofNat 8 (padBits pcnt)).toNat = padBits pcnt := by
  rw [BitVec.toNat_ofNat, padBits]
  omega

end Sys2Proof.Machine
end

section
/-! SUPPORT. A run of packing commands (spec/40_bit_packer.md R104): each appends the bits the
statements' own `packs` gives it, and none changes what the next one packs. -/

namespace Sys2Proof.Spec

open Sys2Proof.Machine

/-- The bits of a packing command depend on the tree only. -/
theorem packs_congr {s t : State} (h : SameTree s t) (i : Instr) : packs t i = packs s i := by
  obtain ⟨hv, -, -, -, -, hc⟩ := h
  cases i
  case enc sym => simp only [packs, codeBits, hv, hc]
  all_goals rfl

/-- A command with bits to pack completes and packs them. -/
theorem exec_of_packs {s : State} {i : Instr} {bits : List Bool} (h : packs s i = some bits) :
    ∃ aux, exec i s = .next (respond 0#8 aux 0#32 (packBits bits s)) := by
  cases i <;> simp only [packs, Option.ite_none_right_eq_some, Option.some.injEq] at h
  case wbits n value =>
    obtain ⟨hn, rfl⟩ := h
    exact ⟨_, exec_wbits hn value s⟩
  case enc sym =>
    obtain ⟨⟨hv, hl⟩, rfl⟩ := h
    exact ⟨_, exec_enc_coded hv hl⟩
  all_goals cases h

/-- A run of packing commands completes and appends its bits in order (R104). -/
theorem runAll_of_packs {s : State} {run : List Instr} (hp : PackerOk s)
    (h : ∀ i ∈ run, (packs s i).isSome = true) :
    ∃ t, runAll run s = some t ∧ Appends s t (run.flatMap fun i => (packs s i).getD []) := by
  induction run generalizing s with
  | nil => exact ⟨s, rfl, appends_nil hp⟩
  | cons i run ih =>
    obtain ⟨hi, hrun⟩ := List.forall_mem_cons.mp h
    obtain ⟨bits, hbits⟩ := Option.isSome_iff_exists.mp hi
    obtain ⟨aux, hexec⟩ := exec_of_packs hbits
    have hfirst := appends_respond_packBits bits hp 0#8 aux 0#32
    have hpacks := packs_congr hfirst.tree
    obtain ⟨t, ht, hrest⟩ := ih hfirst.packerOk fun j hj => by rw [hpacks]; exact hrun j hj
    refine ⟨t, by simpa only [runAll, hexec] using ht, ?_⟩
    simp only [hpacks] at hrest
    simpa only [List.flatMap_cons, hbits, Option.getD_some] using hfirst.trans hrest

end Sys2Proof.Spec
end

section
/-! PROOFS. The statements of the family 40_bit_packer.md. -/

namespace Sys2Proof.Proofs.PackerRules

open Sys2Proof Sys2Proof.Machine Sys2Proof.Spec

/-- Settles O40: WBITS completes and appends its bits, whose number fixes how many bytes are
emitted. -/
theorem writeBitsAppends : Obligations.WriteBitsAppends := by
  intro s n value hn hp
  have happ := appends_respond_packBits (lowBits value n.toNat) hp 0#8 0#8 0#32
  obtain ⟨hsnk, hpcnt⟩ := happ.counts
  rw [lowBits_length] at hsnk hpcnt
  exact ⟨_, exec_wbits hn value s, answered_respond_packBits _ s _ _ _, happ.packed, hsnk,
    happ.snk_prefix, hpcnt, happ.packerOk, happ.counters, happ.tree, happ.unpacker, happ.record⟩

/-- Settles O41: at a byte boundary FLUSH only answers; else it emits the pending bits, which zeros
fill up to a byte. -/
theorem flushPadsWithZeros : Obligations.FlushPadsWithZeros := by
  intro s hp
  by_cases h : s.pcnt = 0#3
  · refine ⟨_, _, exec_flush_aligned h, answered_self _ _ _ s, ?_⟩
    simp [h, packedBits_of_pcnt_eq_zero h, SameCounters, SameTree, SameUnpacker, SameRecord]
  · have hbits := streamBits_snk_pacc hp
    rw [← padBits_of_pending h, ← padBits_byte] at hbits
    exact ⟨_, _, exec_flush_pending h, answered_respond rfl rfl rfl _ _ _, padBits_byte _, hbits,
      (if_neg h).symm, fun _ => rfl, fun hz => absurd hz h, rfl, rfl, ⟨rfl, rfl, rfl, rfl, rfl, rfl⟩,
      ⟨rfl, rfl, rfl, rfl⟩, rfl, rfl⟩

/-- Settles O42: the run appends its bits to the accepted ones and FLUSH pads them; what `SNK` held
before is cancelled, and counting the bits gives the number of bytes. -/
theorem packingRunFillsBytes : Obligations.PackingRunFillsBytes := by
  intro s run hp h0 hrun
  obtain ⟨t, ht, happ⟩ := runAll_of_packs hp hrun
  obtain ⟨u, aux, hu, -, haux, hpadded, hsnk, hpend, haligned, hpcnt, -⟩ :=
    flushPadsWithZeros t happ.packerOk
  have hgrows : t.snk <+: u.snk := by
    rw [hsnk]
    split
    · exact List.prefix_refl _
    · exact List.prefix_append _ _
  obtain ⟨bytes, hbytes⟩ := happ.snk_prefix.trans hgrows
  rw [happ.packed, packedBits_of_pcnt_eq_zero h0, ← hbytes, streamBits_append, List.append_assoc,
    List.append_cancel_left_eq] at hpadded
  have hlen := congrArg List.length hpadded
  simp only [streamBits_length, List.length_append, List.length_replicate] at hlen
  obtain ⟨-, htp⟩ := happ.counts
  rw [h0, BitVec.toNat_zero, Nat.zero_add] at htp
  refine ⟨u, bytes, by simp [runAll_append, ht, runAll, hu], hbytes.symm, by omega, ?_, ?_, hpcnt⟩
  · rw [hpadded]
    congr 2
    omega
  · by_cases hz : t.pcnt = 0#3
    · exact (haligned hz).trans (pacc_of_pcnt_eq_zero happ.packerOk hz)
    · exact hpend hz

end Sys2Proof.Proofs.PackerRules
end

section
/-! SUPPORT. What a reading command takes from the unread bits, where it completes and where the
bits run out (spec/41_bit_unpacker.md R110 to R115). -/

namespace Sys2Proof.Machine

theorem unreadBits_length (s : State) :
    (unreadBits s).length = s.urem.toNat + 8 * s.srcq.length :=
  bits_length s.bitSource

/-! ### UnpackBit repeated -/

/-- With fewer than `n` bits left, UnpackBit underruns before the last (R111). -/
theorem unpackBits_of_lt {n : Nat} {u : BitSource} (h : u.bits.length < n) :
    unpackBits n u = none := by
  rcases unpackBits_spec n u with ⟨hu, -⟩ | ⟨bs, v, -, hb, hl, -⟩
  · exact hu
  · rw [hb, List.length_append] at h
    omega

/-- With the bits `bs` in front, UnpackBit repeated takes exactly these (R110, R111). -/
theorem unpackBits_of_append {u : BitSource} {bs rest : List Bool} (h : u.bits = bs ++ rest) :
    ∃ v, unpackBits bs.length u = some (bs, v) ∧ v.bits = rest ∧
      (u.acc.toNat < 2 ^ u.rem.toNat → v.acc.toNat < 2 ^ v.rem.toNat) := by
  rcases unpackBits_spec bs.length u with ⟨-, hlt⟩ | ⟨cs, v, hu, hb, hl, hk⟩
  · rw [h, List.length_append] at hlt
    omega
  · obtain ⟨rfl, rfl⟩ := List.append_inj (h.symm.trans hb) hl.symm
    exact ⟨v, hu, rfl, hk⟩

/-! ### A reading command that completes -/

/-- `t` has taken `bits` from the front of the unread bits of `s`, and the rest of the block is
unchanged (R111). -/
structure Consumes (s t : State) (bits : List Bool) : Prop where
  unread : unreadBits s = bits ++ unreadBits t
  unpackerOk : UnpackerOk s → UnpackerOk t
  srcEos : t.srcEos = s.srcEos
  counters : SameCounters s t
  tree : SameTree s t
  packer : SamePacker s t
  record : SameRecord s t

theorem SameTree.trans {s t u : State} (h : SameTree s t) (h' : SameTree t u) :
    SameTree s u := by
  obtain ⟨hv, hd, hr, hn, hm, hc⟩ := h
  obtain ⟨hv', hd', hr', hn', hm', hc'⟩ := h'
  exact ⟨hv'.trans hv, hd'.trans hd, hr'.trans hr, hn'.trans hn, hm'.trans hm, hc'.trans hc⟩

theorem consumes_nil (s : State) : Consumes s s [] where
  unread := rfl
  unpackerOk := id
  srcEos := rfl
  counters := rfl
  tree := ⟨rfl, rfl, rfl, rfl, rfl, rfl⟩
  packer := ⟨rfl, rfl, rfl⟩
  record := ⟨rfl, rfl⟩

theorem Consumes.trans {s t u : State} {bits more : List Bool} (h : Consumes s t bits)
    (h' : Consumes t u more) : Consumes s u (bits ++ more) where
  unread := by rw [h.unread, h'.unread, List.append_assoc]
  unpackerOk := h'.unpackerOk ∘ h.unpackerOk
  srcEos := h'.srcEos.trans h.srcEos
  counters := Eq.trans h'.counters h.counters
  tree := h.tree.trans h'.tree
  packer := by
    obtain ⟨ha, hp, hk⟩ := h.packer
    obtain ⟨ha', hp', hk'⟩ := h'.packer
    exact ⟨ha'.trans ha, hp'.trans hp, hk'.trans hk⟩
  record := ⟨h'.record.1.trans h.record.1, h'.record.2.trans h.record.2⟩

theorem Consumes.rest {s t : State} {bits rest : List Bool} (h : Consumes s t bits)
    (hs : unreadBits s = bits ++ rest) : unreadBits t = rest :=
  List.append_cancel_left (h.unread.symm.trans hs)

/-- The copy becomes the state when the command completes (R111). -/
theorem consumes_respond {s : State} {u : BitSource} {bits : List Bool}
    (hb : unreadBits s = bits ++ u.bits)
    (hk : s.uacc.toNat < 2 ^ s.urem.toNat → u.acc.toNat < 2 ^ u.rem.toNat) (st aux : Byte)
    (data : Word) : Consumes s (respond st aux data (s.withBitSource u)) bits where
  unread := hb
  unpackerOk := hk
  srcEos := rfl
  counters := rfl
  tree := ⟨rfl, rfl, rfl, rfl, rfl, rfl⟩
  packer := ⟨rfl, rfl, rfl⟩
  record := ⟨rfl, rfl⟩

/-- RBITS with its bits available (R114). -/
theorem exec_rbits_available {s : State} {n : Byte} {bs rest : List Bool} (hn : n.toNat ≤ 32)
    (h : unreadBits s = bs ++ rest) (hl : bs.length = n.toNat) :
    ∃ t, exec (.rbits n) s = .next t ∧ Answered s t 0#8 0#8 (ofBits 32 bs) ∧ Consumes s t bs ∧
      t.srcq = s.srcq.drop ((n.toNat - s.urem.toNat + 7) / 8) ∧
      t.urem.toNat = (s.urem.toNat + 7 * n.toNat) % 8 := by
  obtain ⟨u, hu, rfl, hk⟩ := unpackBits_of_append (u := s.bitSource) h
  rw [hl] at hu
  obtain ⟨hqueue, hrem⟩ := unpackBits_queue hu
  refine ⟨respond 0#8 0#8 (ofBits 32 bs) (s.withBitSource u), ?_,
    answered_respond rfl rfl rfl _ _ _, consumes_respond h hk _ _ _, hqueue, hrem⟩
  simp [exec, execRbits, bitCountOf, hn, hu, complete]

/-- RBIT is one UnpackBit, and so is RBITS 1 (R113). -/
theorem exec_rbit_eq (s : State) : exec .rbit s = exec (.rbits 1#8) s := by
  rcases h : unpackBit s.bitSource with _ | ⟨b, u⟩ <;>
    simp [exec, execRbit, execRbits, bitCountOf, unpackBits, ofBits, h]

/-! ### Running out of bits (R112) -/

theorem exec_rbits_underrun {s : State} {n : Byte} (hn : n.toNat ≤ 32)
    (h : (unreadBits s).length < n.toNat) : exec (.rbits n) s = .next (underrun s) := by
  simp [exec, execRbits, bitCountOf, hn, unpackBits_of_lt h]

theorem exec_rbit_underrun {s : State} (h : unreadBits s = []) :
    exec .rbit s = .next (underrun s) := by
  rw [exec_rbit_eq]
  exact exec_rbits_underrun (by decide) (by simp [h])

/-- A walk whose bits all stay on internal nodes ends without bits (R112, R164). -/
theorem exec_dec_underrun {s : State} (hv : s.treeValid = true)
    (h : Passes s.nodes s.root (unreadBits s) ((unreadBits s).length + 1)) :
    exec .dec s = .next (underrun s) := by
  rcases walkTree_spec s.nodes (availableBits s.bitSource) s.root 0 s.bitSource
    (availableBits_eq _).ge with
    ⟨n, sym, u, -, h1, hn, -, hend, -, -⟩ | ⟨n, -, h1, hn, -, hend⟩ | ⟨hw, -⟩
  · have hleaf : (pathEnd s.nodes s.root ((unreadBits s).take n)).toNat < 256 := by
      rw [unreadBits, hend]
      exact (leaf_id_toNat sym).trans_lt sym.isLt
    exact absurd (h n h1 (Nat.lt_succ_of_le hn)).1 (Nat.not_le_of_gt hleaf)
  · exact absurd hend (h n h1 (Nat.lt_succ_of_le hn)).2
  · simp [exec, execDec, hv, hw]

/-- An underrun faults after the end of the source and holds before it (R112). -/
theorem underrun_holds_or_faults {i : Instr} {s : State} (h : exec i s = .next (underrun s)) :
    (s.srcEos = true → ∃ t, exec i s = .next t ∧ Faulted s t .truncated) ∧
      (s.srcEos = false → exec i s = .next { s with held := true }) := by
  rw [h]
  rcases underrun_cases s with ⟨he, hu⟩ | ⟨he, hu⟩ <;> rw [hu]
  · exact ⟨fun _ => ⟨_, rfl, raise_leaves .truncated s⟩,
      fun hf => absurd (hf.symm.trans he) Bool.false_ne_true⟩
  · exact ⟨fun ht => absurd (he.symm.trans ht) Bool.false_ne_true, fun _ => rfl⟩

/-! ### UALIGN (R115) -/

theorem exec_ualign (s : State) : exec .ualign s =
    .next (respond 0#8 (s.urem.setWidth 8) (s.uacc.setWidth 32)
      { s with uacc := 0#8, urem := 0#3 }) := rfl

end Sys2Proof.Machine
end

section
/-! SUPPORT. Reading back what the packer wrote (spec/41_bit_unpacker.md R116): the bits of a list
of values, and a run of RBITS over them. -/

namespace Sys2Proof.Spec

open Sys2Proof.Machine

/-- The low `n` bits of a value, reassembled, are the value modulo `2^n` (R64, R83). -/
theorem ofBits_lowBits_eq (v : Word) (n : Nat) :
    ofBits 32 (lowBits v n) = BitVec.ofNat 32 (v.toNat % 2 ^ n) := by
  apply BitVec.eq_of_getLsbD_eq
  intro i hi
  rw [ofBits_lowBits, BitVec.getLsbD_ofNat, Nat.testBit_mod_two_pow, decide_eq_true hi,
    Bool.true_and]
  rfl

/-- The bits a run of WBITS packs: of each value the low `n`, in order (R102). -/
def valueBits (vals : List (Byte × Word)) : List Bool :=
  vals.flatMap fun p => lowBits p.2 p.1.toNat

theorem valueBits_length (vals : List (Byte × Word)) :
    (valueBits vals).length = (vals.map fun p => p.1.toNat).sum := by
  simp [valueBits, List.length_flatMap]

theorem packs_wbits (s : State) {n : Byte} (hn : n.toNat ≤ 32) (value : Word) :
    packs s (.wbits n value) = some (lowBits value n.toNat) := if_pos hn

/-- A run of WBITS packs the bits of its values. -/
theorem packs_valueBits (s : State) {vals : List (Byte × Word)}
    (h : ∀ p ∈ vals, p.1.toNat ≤ 32) :
    ((vals.map fun p => Instr.wbits p.1 p.2).flatMap fun i => (packs s i).getD []) =
      valueBits vals := by
  rw [List.flatMap_map, valueBits]
  exact List.flatMap_congr fun p hp => by rw [packs_wbits s (h p hp), Option.getD_some]

/-- With the bits of the values in front, the reads of their widths answer the values and consume
exactly their bits (R114, R116). -/
theorem runAll_rbits {s : State} {vals : List (Byte × Word)} {rest : List Bool}
    (hn : ∀ p ∈ vals, p.1.toNat ≤ 32) (h : unreadBits s = valueBits vals ++ rest) :
    ∃ t, runAll (vals.map fun p => .rbits p.1) s = some t ∧ Consumes s t (valueBits vals) ∧
      t.rsp = s.rsp ++ vals.map fun p =>
        responseWord 0#8 0#8 (BitVec.ofNat 32 (p.2.toNat % 2 ^ p.1.toNat)) := by
  induction vals generalizing s with
  | nil => exact ⟨s, rfl, consumes_nil s, (List.append_nil _).symm⟩
  | cons p vals ih =>
    obtain ⟨hp, hvals⟩ := List.forall_mem_cons.mp hn
    have hfront : unreadBits s = lowBits p.2 p.1.toNat ++ (valueBits vals ++ rest) := by
      rw [h, valueBits, List.flatMap_cons, List.append_assoc]
      rfl
    obtain ⟨t, hexec, ⟨hrsp, -⟩, hfirst, -⟩ := exec_rbits_available hp hfront (lowBits_length _ _)
    obtain ⟨u, hrun, hrest, hrsp'⟩ := ih hvals (hfirst.rest hfront)
    refine ⟨u, by simpa only [List.map_cons, runAll, hexec] using hrun, hfirst.trans hrest, ?_⟩
    rw [hrsp', hrsp, ofBits_lowBits_eq, List.map_cons, List.append_assoc, List.singleton_append]

/-- At a byte boundary the unread bits are those of the source (R30). -/
theorem unreadBits_of_urem_eq_zero {s : State} (h : s.urem = 0#3) :
    unreadBits s = streamBits s.srcq := by
  simp [unreadBits, BitSource.bits, State.bitSource, h]

/-- When fewer than eight unread bits are left, all zeros, the source is empty and the current byte
holds that many zeros (R30). -/
theorem unpacker_of_zeros {s : State} (hok : UnpackerOk s) {k : Nat} (hk : k < 8)
    (h : unreadBits s = List.replicate k false) :
    s.srcq = [] ∧ s.urem.toNat = k ∧ s.uacc = 0#8 := by
  have hlen := congrArg List.length h
  rw [unreadBits_length, List.length_replicate] at hlen
  have hq : s.srcq = [] := List.eq_nil_of_length_eq_zero (by omega)
  refine ⟨hq, by rw [hq] at hlen; simpa using hlen, BitVec.eq_of_getLsbD_eq fun i _ => ?_⟩
  rw [BitVec.getLsbD_zero]
  by_cases hi : i < s.urem.toNat
  · have hmem : s.uacc.getLsbD i ∈ unreadBits s :=
      List.mem_append_left _ (List.mem_map_of_mem (List.mem_range.mpr hi))
    rw [h] at hmem
    exact List.eq_of_mem_replicate hmem
  · exact getLsbD_of_toNat_lt hok (Nat.le_of_not_lt hi)

end Sys2Proof.Spec
end

section
/-! PROOFS. The statements of the family 41_bit_unpacker.md. -/

namespace Sys2Proof.Proofs.UnpackerRules

open Sys2Proof Sys2Proof.Machine Sys2Proof.Spec

/-- Settles O44: the first `n` unread bits are taken and assembled, the first into bit 0. -/
theorem readBitsInOrder : Obligations.ReadBitsInOrder := by
  intro s n hn hbits
  rw [← unreadBits_length] at hbits
  have hsplit := (List.take_append_drop n.toNat (unreadBits s)).symm
  obtain ⟨t, hexec, hans, hread, hsrcq, hurem⟩ :=
    exec_rbits_available hn hsplit (List.length_take_of_le hbits)
  refine ⟨t, _, hexec, hans, fun i => ?_, hread.rest hsplit, hsrcq, by omega, hread.srcEos,
    hread.unpackerOk, hread.counters, hread.tree, hread.packer, hread.record⟩
  rw [getLsbD_ofBits]
  by_cases hi : i < n.toNat
  · simp [hi, hi.trans_le hn]
  · simp [hi]

/-- Settles O45: both are one UnpackBit, so RBIT reads as RBITS 1 does. -/
theorem readBitIsReadBitsOne : Obligations.ReadBitIsReadBitsOne := by
  intro s
  refine ⟨exec_rbit_eq s, fun b rest h => ?_⟩
  obtain ⟨t, hexec, hans, hread, -⟩ := exec_rbits_available (n := 1#8) (bs := [b]) (by decide) h rfl
  refine ⟨t, _, (exec_rbit_eq s).trans hexec, hans, by cases b <;> rfl, hread.rest h,
    hread.srcEos, hread.counters, hread.tree, hread.packer, hread.record⟩

/-- Settles O46: each of the three commands ends in an underrun, which the end of the source turns
from a hold into a fault. -/
theorem underrunHoldsOrFaults : Obligations.UnderrunHoldsOrFaults := by
  rintro i s (⟨rfl, h⟩ | ⟨n, rfl, hn, h⟩ | ⟨rfl, hv, h⟩)
  · exact underrun_holds_or_faults (exec_rbit_underrun h)
  · exact underrun_holds_or_faults (exec_rbits_underrun hn h)
  · exact underrun_holds_or_faults (exec_dec_underrun hv h)

/-- Settles O48: the bytes hold the bits of the values and the pad, the reads take the former, and
what is left is fewer than eight zeros. -/
theorem unpackerMirrorsPacker : Obligations.UnpackerMirrorsPacker := by
  intro e d vals hn hp h0 hu hd0
  obtain ⟨e', bytes, hrun, hsnk, hlen, hbits, -⟩ :=
    PackerRules.packingRunFillsBytes e (vals.map fun p => .wbits p.1 p.2) hp h0
      (List.forall_mem_map.mpr fun p hm => by rw [packs_wbits e (hn p hm), Option.isSome_some])
  rw [packs_valueBits e hn] at hlen hbits
  refine ⟨e', bytes, hrun, hsnk, fun hsrc => ?_⟩
  rw [← hsrc, ← unreadBits_of_urem_eq_zero hd0] at hbits
  obtain ⟨d', hrun', hread, hrsp⟩ := runAll_rbits hn hbits
  have hpad := hread.rest hbits
  rw [hsrc, hlen] at hpad
  rw [valueBits_length] at hlen hpad
  obtain ⟨hsrcq, hurem, huacc⟩ := unpacker_of_zeros (hread.unpackerOk hu) (by omega) hpad
  have haux : d'.urem.setWidth 8 =
      BitVec.ofNat 8 ((8 - (vals.map fun p => p.1.toNat).sum % 8) % 8) := by
    apply BitVec.eq_of_toNat_eq
    rw [BitVec.toNat_setWidth, BitVec.toNat_ofNat, hurem]
    omega
  have hdata : d'.uacc.setWidth 32 = 0#32 := by
    rw [huacc]
    rfl
  refine ⟨d', _, hrun', hrsp, hsrcq, hlen, by omega, exec_ualign d', ?_, rfl, hsrcq⟩
  rw [← haux, ← hdata]
  exact answered_respond rfl rfl rfl _ _ _

/-- Settles O47: UALIGN answers the current byte and clears it. -/
theorem alignDiscardsPartialByte : Obligations.AlignDiscardsPartialByte := by
  intro s
  exact ⟨_, exec_ualign s, answered_respond rfl rfl rfl _ _ _, rfl, rfl, rfl, rfl, rfl,
    ⟨rfl, rfl, rfl, rfl, rfl, rfl⟩, ⟨rfl, rfl, rfl⟩, rfl, rfl⟩

/-- Settles O54: the block waits, so the step is an agent's; an act of the source lifts the hold, a
word of the host goes to the end of the port. -/
theorem heldCommandWaitsForSource : Obligations.HeldCommandWaitsForSource := by
  intro s c hh hc
  have hw : Waiting s := .inl hh
  refine ⟨fun e rest ha hsrc => ?_, fun c' rest ha => ?_, step_idle hw⟩
  · rcases hsrc with ⟨he, b, rfl⟩ | rfl
    · exact ⟨_, step_push_before_end hw ha he, ⟨rfl, hc⟩, rfl, rfl⟩
    · exact ⟨_, step_event hw ha, ⟨rfl, hc⟩, rfl, rfl⟩
  · refine ⟨_, step_event hw ha, hh, ?_, rfl, rfl, ⟨rfl, rfl, rfl, rfl, rfl, rfl⟩,
      ⟨rfl, rfl, rfl⟩, ⟨rfl, rfl, rfl, rfl⟩, rfl, rfl⟩
    rw [arrive, issueCommand_cmdq, List.head?_append, hc, Option.some_or]

end Sys2Proof.Proofs.UnpackerRules
end

section
/-! SUPPORT. What writing one counter does to the counter file, to `TOTAL` and to `NDIST`, and how
the frequency table commands end (spec/42_frequency_table.md R120 to R125). -/

namespace Sys2Proof.Machine

open Sys2Proof.Spec

/-- The counter file around one counter: writing that counter replaces its cell only (R60). -/
theorem cells_around_counter (cnt : Table Word 256) (sym : Byte) :
    ∃ before after, cnt.cells = before ++ readCount cnt sym :: after ∧
      ∀ v, (writeCount cnt sym v).cells = before ++ v :: after := by
  have hi : sym.toNat < cnt.cells.length := sym.isLt.trans_eq cnt.size.symm
  refine ⟨cnt.cells.take sym.toNat, cnt.cells.drop (sym.toNat + 1), ?_, fun v => ?_⟩
  · rw [readCount, readCell, List.getElem_cons_drop, List.take_append_drop]
  · exact (List.set_eq_take_append_cons_drop ..).trans (if_pos hi)

/-- Writing a counter moves `TOTAL` from the old value to the new one (R42). -/
theorem countSum_writeCount (cnt : Table Word 256) (sym : Byte) (v : Word) :
    countSum (writeCount cnt sym v) + (readCount cnt sym).toNat = countSum cnt + v.toNat := by
  obtain ⟨before, after, hcells, hwrite⟩ := cells_around_counter cnt sym
  rw [countSum, countSum, hcells, hwrite]
  simp only [List.map_append, List.map_cons, List.sum_append, List.sum_cons]
  omega

/-- Writing a counter moves `NDIST` as the old and the new value are zero or not (R43). -/
theorem distinct_writeCount (cnt : Table Word 256) (sym : Byte) (v : Word) :
    distinct (writeCount cnt sym v) + (if readCount cnt sym = 0#32 then 0 else 1) =
      distinct cnt + (if v = 0#32 then 0 else 1) := by
  obtain ⟨before, after, hcells, hwrite⟩ := cells_around_counter cnt sym
  rw [distinct, distinct, hcells, hwrite]
  simp only [List.countP_append, List.countP_cons, bne_iff_ne, ne_eq, ite_not]
  omega

theorem counterSum_eq_countSum (s : State) : counterSum s = countSum s.cnt :=
  (countSum_eq s.cnt).symm

theorem distinctCount_eq_distinct (s : State) : distinctCount s = distinct s.cnt :=
  (distinct_eq s.cnt).symm

/-- A counter below `CMAX` is raised without wrapping (R123). -/
theorem toNat_succ_of_ne_cmax {v : Word} (h : v ≠ Config.cmax) :
    (v + 1#32).toNat = v.toNat + 1 := by
  have hv : v.toNat ≠ 0xFFFFFFFF := fun hv => h (BitVec.eq_of_toNat_eq hv)
  have := v.isLt
  rw [BitVec.toNat_add, BitVec.toNat_ofNat]
  omega

/-! ### One counter written -/

/-- `t` is `s` after a command that completed with zeros and wrote `v` to the counter of `sym`, the
rest of the block unchanged (R122, R124). -/
structure LoadsCounter (s t : State) (sym : Byte) (v : Word) : Prop where
  answered : Answered s t 0#8 0#8 0#32
  written : t.cnt = writeCount s.cnt sym v
  tree : SameTree s t
  packer : SamePacker s t
  unpacker : SameUnpacker s t
  record : SameRecord s t

theorem loadsCounter_respond (s : State) (sym : Byte) (v : Word) :
    LoadsCounter s (respond 0#8 0#8 0#32 { s with cnt := writeCount s.cnt sym v }) sym v where
  answered := answered_respond rfl rfl rfl _ _ _
  written := rfl
  tree := ⟨rfl, rfl, rfl, rfl, rfl, rfl⟩
  packer := ⟨rfl, rfl, rfl⟩
  unpacker := ⟨rfl, rfl, rfl, rfl⟩
  record := ⟨rfl, rfl⟩

theorem LoadsCounter.read_same {s t : State} {sym : Byte} {v : Word} (h : LoadsCounter s t sym v) :
    readCount t.cnt sym = v := by
  rw [h.written, readCount_writeCount, if_pos rfl]

theorem LoadsCounter.read_other {s t : State} {sym x : Byte} {v : Word}
    (h : LoadsCounter s t sym v) (hx : x ≠ sym) : readCount t.cnt x = readCount s.cnt x := by
  rw [h.written, readCount_writeCount, if_neg hx.symm]

/-- `TOTAL` follows the counter that was raised (R42, R122). -/
theorem LoadsCounter.counterSum_raised {s t : State} {sym : Byte} {v : Word}
    (h : LoadsCounter s t sym v) (hv : v.toNat = (readCount s.cnt sym).toNat + 1) :
    counterSum t = counterSum s + 1 := by
  have hsum := countSum_writeCount s.cnt sym v
  rw [counterSum_eq_countSum, counterSum_eq_countSum, h.written]
  omega

/-- `NDIST` grows when the counter that was raised stood at 0 (R43, R122). -/
theorem LoadsCounter.distinctCount_raised {s t : State} {sym : Byte} {v : Word}
    (h : LoadsCounter s t sym v) (hv : v.toNat = (readCount s.cnt sym).toNat + 1) :
    distinctCount t = distinctCount s + (if readCount s.cnt sym = 0#32 then 1 else 0) := by
  have hne : v ≠ 0#32 := by
    rintro rfl
    simp at hv
  have hcount := distinct_writeCount s.cnt sym v
  rw [if_neg hne] at hcount
  rw [distinctCount_eq_distinct, distinctCount_eq_distinct, h.written]
  split_ifs at hcount ⊢ <;> omega

/-! ### The commands, case by case -/

theorem exec_fclr (s : State) :
    exec .fclr s = .next (respond 0#8 0#8 0#32 (clearedTable s)) := rfl

theorem exec_rdcnt (s : State) (sym : Byte) :
    exec (.rdcnt sym) s = .next (respond 0#8 0#8 (readCount s.cnt sym) s) := rfl

theorem exec_fadd_frozen {s : State} (h : s.treeValid = true) (sym : Byte) :
    ∃ t, exec (.fadd sym) s = .next t ∧ Faulted s t .tableFrozen :=
  ⟨_, if_pos h, raise_leaves .tableFrozen s⟩

theorem exec_ldcnt_frozen {s : State} (h : s.treeValid = true) (sym : Byte) (count : Word) :
    ∃ t, exec (.ldcnt sym count) s = .next t ∧ Faulted s t .tableFrozen :=
  ⟨_, if_pos h, raise_leaves .tableFrozen s⟩

theorem exec_fadd_overflow {s : State} {sym : Byte} (h : s.treeValid = false)
    (hmax : readCount s.cnt sym = Config.cmax) :
    ∃ t, exec (.fadd sym) s = .next t ∧ Faulted s t .countOverflow :=
  ⟨_, (if_neg (ne_true_of_eq_false h)).trans (if_pos hmax), raise_leaves .countOverflow s⟩

theorem exec_fadd_counts {s : State} {sym : Byte} (h : s.treeValid = false)
    (hmax : readCount s.cnt sym ≠ Config.cmax) :
    ∃ t, exec (.fadd sym) s = .next t ∧ LoadsCounter s t sym (readCount s.cnt sym + 1#32) :=
  ⟨_, (if_neg (ne_true_of_eq_false h)).trans (if_neg hmax), loadsCounter_respond s sym _⟩

theorem exec_ldcnt_loads {s : State} (h : s.treeValid = false) (sym : Byte) (count : Word) :
    ∃ t, exec (.ldcnt sym count) s = .next t ∧ LoadsCounter s t sym count :=
  ⟨_, if_neg (ne_true_of_eq_false h), loadsCounter_respond s sym count⟩

end Sys2Proof.Machine
end

section
/-! PROOFS. The statements of the family 42_frequency_table.md. -/

namespace Sys2Proof.Proofs.FrequencyRules

open Sys2Proof Sys2Proof.Machine Sys2Proof.Spec

/-- Settles O20: below `CMAX` the counter takes its value plus one, which does not wrap, and `TOTAL`
and `NDIST` follow that one cell; the freeze and the overflow fault. -/
theorem countOneOccurrence : Obligations.CountOneOccurrence := by
  intro s sym
  refine ⟨fun hv hmax => ?_, fun hv => exec_fadd_frozen hv sym, exec_fadd_overflow⟩
  obtain ⟨t, hexec, hload⟩ := exec_fadd_counts hv hmax
  have hsucc := toNat_succ_of_ne_cmax hmax
  exact ⟨t, hexec, hload.answered, (congrArg BitVec.toNat hload.read_same).trans hsucc,
    fun _ => hload.read_other, hload.counterSum_raised hsucc, hload.distinctCount_raised hsucc,
    hload.tree, hload.packer, hload.unpacker, hload.record⟩

/-- Settles O21: without a valid tree LDCNT writes its one cell, under one it faults. -/
theorem loadOneCounter : Obligations.LoadOneCounter := by
  intro s sym count
  refine ⟨fun hv => ?_, fun hv => exec_ldcnt_frozen hv sym count⟩
  obtain ⟨t, hexec, hload⟩ := exec_ldcnt_loads hv sym count
  exact ⟨t, hexec, hload.answered, hload.read_same, fun _ => hload.read_other, hload.tree,
    hload.packer, hload.unpacker, hload.record⟩

/-- Settles O19: FCLR answers from the cleared table, whose counters are a table filled with 0. -/
theorem clearTableDropsTree : Obligations.ClearTableDropsTree := by
  intro s
  exact ⟨_, exec_fclr s, answered_respond rfl rfl rfl _ _ _, readCount_fill 0#32, rfl, rfl, rfl,
    rfl, rfl, rfl, ⟨rfl, rfl, rfl⟩, ⟨rfl, rfl, rfl, rfl⟩, rfl, rfl⟩

/-- Settles O22: the freeze is the first test of both commands. -/
theorem frozenTableRefusesWrites : Obligations.FrozenTableRefusesWrites := by
  intro s sym count hv
  exact ⟨exec_fadd_frozen hv sym, exec_ldcnt_frozen hv sym count⟩

/-- Settles O23: RDCNT answers from the state it found, and a response changes nothing of the
block. -/
theorem readOneCounter : Obligations.ReadOneCounter := by
  intro s sym
  exact ⟨_, exec_rdcnt s sym, answered_self _ _ _ s, sameBlock_respond _ _ _ s⟩

end Sys2Proof.Proofs.FrequencyRules
end

section
/-! SUPPORT. What the present tree of a state is, from its counters alone (spec/10_state.md R25 to
R28, spec/43_tree_builder.md R138, R139, R142): the facts hold in every state of the invariant with
a valid tree, so after every BUILD too. -/

namespace Sys2Proof.Machine

open Sys2Proof.Spec

theorem leafSymbols_ne_nil_iff (cnt : Table Word 256) :
    leafSymbols cnt ≠ [] ↔ ∃ sym, readCount cnt sym ≠ 0#32 := by
  rw [ne_eq, List.eq_nil_iff_forall_not_mem, not_forall_not]
  exact exists_congr (mem_leafSymbols cnt)

/-- The table of one symbol (R136). -/
theorem leafSymbols_eq_singleton {cnt : Table Word 256} {sym : Byte}
    (h : readCount cnt sym ≠ 0#32) (ho : ∀ x, x ≠ sym → readCount cnt x = 0#32) :
    leafSymbols cnt = [sym] := by
  have hn := List.nodup_singleton sym
  refine List.perm_singleton.mp
    ((List.perm_ext_iff_of_nodup (leafSymbols_nodup cnt) hn).mpr fun x => ?_)
  rw [mem_leafSymbols, List.mem_singleton]
  exact ⟨fun hx => by_contra fun hne => hx (ho x hne), fun hx => hx ▸ h⟩

theorem leafSymbols_length_eq_distinctCount (s : State) :
    (leafSymbols s.cnt).length = distinctCount s := by
  rw [leafSymbols_length, distinctCount_eq_distinct]

theorem internal_id {id : NodeId} (h : 256 ≤ id.toNat) :
    BitVec.ofNat 9 (256 + (id.toNat - 256)) = id := by
  rw [Nat.add_sub_cancel' h, BitVec.ofNat_toNat, BitVec.setWidth_eq]

/-- The records written begin at id 256; the records above them stay (R131). -/
theorem nodeRecord_storeNodes_above {created : List Node} {nodes : Table Node 255} {id : NodeId}
    (h : 256 + created.length ≤ id.toNat) :
    nodeRecord (storeNodes 0 created nodes) id = nodeRecord nodes id := by
  unfold nodeRecord
  split
  · rw [storeNodes_read, dif_neg (by omega)]
  · rfl

section ValidTree

variable {s : State} (hok : TreeOk s) (hv : s.treeValid = true)
include hok hv

/-- `NINT` from the number of distinct symbols (R134, R136). -/
theorem nint_of_valid :
    s.nint.toNat = if distinctCount s = 1 then 1 else distinctCount s - 1 := by
  obtain ⟨tree, hb⟩ := treeOk_built hok hv
  obtain ⟨hne, -⟩ := treeOk_of_valid hok hv
  have hpos := List.length_pos_iff.mpr hne
  rw [hb.nint]
  rw [leafSymbols_length_eq_distinctCount] at hpos ⊢
  split <;> omega

theorem distinctCount_of_valid : 1 ≤ distinctCount s ∧ distinctCount s ≤ 256 := by
  rw [← leafSymbols_length_eq_distinctCount]
  exact ⟨List.length_pos_iff.mpr (treeOk_of_valid hok hv).1, leafSymbols_length_le s.cnt⟩

theorem degen_of_valid : s.degen = decide (distinctCount s = 1) := by
  obtain ⟨tree, hb⟩ := treeOk_built hok hv
  rw [hb.degen, leafSymbols_length_eq_distinctCount]

theorem degen_iff_of_valid : s.degen = true ↔ (leafSymbols s.cnt).length = 1 := by
  rw [degen_of_valid hok hv, decide_eq_true_iff, leafSymbols_length_eq_distinctCount]

/-- The record of live node `256 + j` is the `j`-th the builder creates (R134, R139). -/
theorem nodeRecord_of_valid {id : NodeId} (h : 256 ≤ id.toNat)
    (hlt : id.toNat < 256 + s.nint.toNat) :
    ∃ hj : id.toNat - 256 < (treeNodes s.cnt).length,
      nodeRecord s.nodes id = (treeNodes s.cnt)[id.toNat - 256] := by
  obtain ⟨hholds, hlen, -⟩ := treeOk_nodes hok hv
  have hj : id.toNat - 256 < (treeNodes s.cnt).length := by omega
  refine ⟨hj, ?_⟩
  have := holds_get hholds _ hj
  rwa [Nat.add_zero, internal_id h] at this

/-- Children have smaller ids, but for the `NIL` of the one-symbol tree (R142). -/
theorem children_of_valid {id : NodeId} (h : 256 ≤ id.toNat)
    (hlt : id.toNat < 256 + s.nint.toNat) :
    (nodeRecord s.nodes id).left.toNat < id.toNat ∧
      ((nodeRecord s.nodes id).right.toNat < id.toNat ∨
        (s.degen = true ∧ id = 256#9 ∧ (nodeRecord s.nodes id).right = Config.nil)) := by
  obtain ⟨hholds, -, -⟩ := treeOk_nodes hok hv
  obtain ⟨hj, hrec⟩ := nodeRecord_of_valid hok hv h hlt
  obtain ⟨hleft, hright, -, -, -⟩ := treeNodes_nodes s.cnt s.nodes hholds _ hj
  rw [Nat.add_sub_cancel' h, ← hrec] at hleft hright
  refine ⟨hleft, hright.imp_right fun ⟨hone, hj0, hnil⟩ => ?_⟩
  exact ⟨(degen_iff_of_valid hok hv).mpr hone, BitVec.eq_of_toNat_eq (by simp; omega), hnil⟩

/-- The one-symbol tree has no right child (R136). -/
theorem right_of_degen (hd : s.degen = true) :
    (nodeRecord s.nodes 256#9).right = Config.nil := by
  obtain ⟨hholds, hlen, -⟩ := treeOk_nodes hok hv
  obtain ⟨tree, hb⟩ := treeOk_built hok hv
  obtain ⟨hone, -⟩ := hb.nintRange
  obtain ⟨hj, hrec⟩ := nodeRecord_of_valid hok hv (id := 256#9) (by decide)
    (show 256 < 256 + s.nint.toNat by omega)
  obtain ⟨-, -, hnil, -, -⟩ := treeNodes_nodes s.cnt s.nodes hholds _ hj
  rw [hrec]
  exact hnil ((degen_iff_of_valid hok hv).mp hd)

/-- The weight of a live internal node is the sum of its children's (R138). -/
theorem weight_of_valid {id : NodeId} (h : 256 ≤ id.toNat)
    (hlt : id.toNat < 256 + s.nint.toNat) :
    (nodeWeight s id =
      if s.degen then nodeWeight s (nodeRecord s.nodes id).left
      else nodeWeight s (nodeRecord s.nodes id).left +
        nodeWeight s (nodeRecord s.nodes id).right) ∧
      nodeWeight s id ≤ counterSum s := by
  obtain ⟨hholds, -, -⟩ := treeOk_nodes hok hv
  obtain ⟨hj, hrec⟩ := nodeRecord_of_valid hok hv h hlt
  obtain ⟨-, -, -, hsum, hle⟩ := treeNodes_nodes s.cnt s.nodes hholds _ hj
  have hw : nodeWeight s id = (nodeRecord s.nodes id).weight.toNat := if_neg (by omega)
  rw [hw, counterSum_eq_countSum, hrec]
  simp only [degen_iff_of_valid hok hv]
  exact ⟨hsum, hle⟩

/-- The root weighs `TOTAL` (R138, R142). -/
theorem root_weight_of_valid : nodeWeight s s.root = counterSum s := by
  obtain ⟨tree, hb⟩ := treeOk_built hok hv
  have hroot := hb.rootNumber
  obtain ⟨hone, -⟩ := hb.nintRange
  have hw : nodeWeight s s.root = (nodeRecord s.nodes s.root).weight.toNat := if_neg (by omega)
  have htotal : tree.weight s.cnt = countSum s.cnt := hb.weight.trans (leaf_sum s.cnt)
  have hlt := countSum_lt s.cnt
  obtain ⟨id, l, r, rfl⟩ := hb.root_fork
  obtain ⟨-, -, hrec, -, -⟩ := hb.stored
  rw [hw, hb.root, HTree.id, hrec, counterSum_eq_countSum, BitVec.toNat_ofNat, ← htotal]
  exact Nat.mod_eq_of_lt (htotal.trans_lt hlt)

end ValidTree

/-- Two valid trees over the same counters agree in everything a command can read (R139). -/
theorem valid_trees_agree {s s' : State} (hok : TreeOk s) (hv : s.treeValid = true)
    (hok' : TreeOk s') (hv' : s'.treeValid = true) (hc : s.cnt = s'.cnt) :
    s.root = s'.root ∧ s.nint = s'.nint ∧ s.degen = s'.degen ∧ s.code = s'.code ∧
      ∀ id : NodeId, 256 ≤ id.toNat → id.toNat < 256 + s.nint.toNat →
        nodeRecord s.nodes id = nodeRecord s'.nodes id := by
  obtain ⟨hholds, hlen, hle⟩ := treeOk_nodes hok hv
  obtain ⟨hholds', hlen', -⟩ := treeOk_nodes hok' hv'
  obtain ⟨tree, hb⟩ := treeOk_built hok hv
  obtain ⟨tree', hb'⟩ := treeOk_built hok' hv'
  rw [← hc] at hholds' hlen'
  have hnint : s.nint = s'.nint := BitVec.eq_of_toNat_eq (hlen.trans hlen'.symm)
  have hroot : s.root = s'.root :=
    BitVec.eq_of_toNat_eq (by rw [hb.rootNumber, hb'.rootNumber, hnint])
  refine ⟨hroot, hnint, ?_, ?_, fun id h hlt => ?_⟩
  · rw [hb.degen, hb'.degen, hc]
  · obtain ⟨ghost, -, -, -, -, -, hid, hdepth, -, -, hstored⟩ :=
      treeNodes_forest s.cnt (treeOk_of_valid hok hv).1
    have hgroot : ghost.id = s.root := BitVec.eq_of_toNat_eq (by
      rw [hid, hb.rootNumber, hlen, BitVec.toNat_ofNat]; omega)
    rw [hb.code, hb'.code, ← hroot, ← hgroot]
    exact deriveCodes_congr (hstored _ hholds) (hstored _ hholds') (by omega)
  · obtain ⟨hj, hrec⟩ := nodeRecord_of_valid hok hv h hlt
    obtain ⟨hj', hrec'⟩ := nodeRecord_of_valid hok' hv' h (hnint ▸ hlt)
    rw [hrec, hrec']
    simp only [hc]

end Sys2Proof.Machine
end

section
/-! SUPPORT. How BUILD ends (spec/43_tree_builder.md R131, R137). -/

namespace Sys2Proof.Machine

theorem exec_build_empty {s : State} (h : leafSymbols s.cnt = []) :
    exec .build s = .next (raise .emptyTable s) :=
  if_pos (List.isEmpty_iff.mpr h)

theorem exec_build_installs {s : State} (h : leafSymbols s.cnt ≠ []) :
    exec .build s = complete ((installTree (treeNodes s.cnt) s).nint.setWidth 8)
      ((installTree (treeNodes s.cnt) s).root.setWidth 32) (installTree (treeNodes s.cnt) s) :=
  if_neg (by rwa [List.isEmpty_iff])

/-- `t` is `s` after a BUILD that completed: it answers `NINT` and `ROOT`, the tree of the counters
is installed, and the rest of the block is unchanged (R131). -/
structure Builds (s t : State) : Prop where
  nonempty : leafSymbols s.cnt ≠ []
  answered : Answered s t 0#8 (t.nint.setWidth 8) (t.root.setWidth 32)
  tree : SameTree (installTree (treeNodes s.cnt) s) t
  counters : SameCounters s t
  packer : SamePacker s t
  unpacker : SameUnpacker s t
  record : SameRecord s t

theorem exec_build_builds {s : State} (h : leafSymbols s.cnt ≠ []) :
    ∃ t, exec .build s = .next t ∧ Builds s t :=
  ⟨_, exec_build_installs h, h, answered_respond rfl rfl rfl _ _ _,
    ⟨rfl, rfl, rfl, rfl, rfl, rfl⟩, rfl, ⟨rfl, rfl, rfl⟩, ⟨rfl, rfl, rfl, rfl⟩, rfl, rfl⟩

theorem builds_of_exec {s t : State} (h : leafSymbols s.cnt ≠ []) (ht : exec .build s = .next t) :
    Builds s t := by
  obtain ⟨u, hu, hb⟩ := exec_build_builds h
  cases hu.symm.trans ht
  exact hb

theorem Builds.treeValid {s t : State} (h : Builds s t) : t.treeValid = true := h.tree.1

/-- After a BUILD the tree is the tree of the present counters (R25). -/
theorem Builds.treeOk {s t : State} (h : Builds s t) : TreeOk t :=
  treeOk_congr (treeOk_installTree h.nonempty) h.counters h.tree

/-- The node records above the tree stay as they were (R131). -/
theorem Builds.nodes_above {s t : State} (h : Builds s t) {id : NodeId}
    (hid : 256 + t.nint.toNat ≤ id.toNat) : nodeRecord t.nodes id = nodeRecord s.nodes id := by
  obtain ⟨-, -, -, -, hnodes, -⟩ := h.tree
  obtain ⟨-, hlen, -⟩ := treeOk_nodes h.treeOk h.treeValid
  rw [h.counters] at hlen
  rw [hnodes]
  exact nodeRecord_storeNodes_above (by rwa [← hlen])

/-- The live node records in the order of their ids are the nodes created (R134). -/
theorem Builds.records {s t : State} (h : Builds s t) :
    ((List.range t.nint.toNat).map fun k => nodeRecord t.nodes (BitVec.ofNat 9 (256 + k))) =
      treeNodes s.cnt := by
  obtain ⟨hholds, hlen, -⟩ := treeOk_nodes h.treeOk h.treeValid
  rw [h.counters] at hholds hlen
  refine List.ext_getElem (by simpa using hlen) fun k _ hk => ?_
  rw [List.getElem_map, List.getElem_range]
  exact holds_get hholds k hk

end Sys2Proof.Machine
end

section
/-! SUPPORT. The merge loop removes the two least keys in each round, so it is the loop the spec
words (spec/43_tree_builder.md R133 to R135, R138). -/

namespace Sys2Proof.Machine

open Sys2Proof.Spec

theorem keyLt_asymm {a b : Key} (h : keyLt a b = true) : keyLt b a = false := by
  rw [Bool.eq_false_iff, ne_eq, keyLt_iff]
  rw [keyLt_iff] at h
  omega

theorem keyLt_trans {a b c : Key} (hab : keyLt a b = true) (hbc : keyLt b c = true) :
    keyLt a c = true := by
  rw [keyLt_iff] at *
  omega

theorem keyLt_total {a b : Key} (h : a.id ≠ b.id) : keyLt a b = true ∨ keyLt b a = true := by
  have hid : a.id.toNat ≠ b.id.toNat := fun he => h (BitVec.eq_of_toNat_eq he)
  rw [keyLt_iff, keyLt_iff]
  omega

/-- The first removal is below all others, the second below all but the first (R134). -/
theorem takeTwo_least {act others : List Key} {a b : Key} (hn : (act.map Key.id).Nodup)
    (h : takeTwo act = some (a, b, others)) :
    (∀ x ∈ b :: others, keyBelow a x) ∧ ∀ x ∈ others, keyBelow b x := by
  rcases act with _ | ⟨x, xs⟩
  · cases h
  have hfirst := takeLeast_least x xs hn
  have hperm := takeLeast_perm x xs
  simp only [takeTwo] at h
  rcases hl : takeLeast x xs with ⟨least, _ | ⟨y, ys⟩⟩ <;> rw [hl] at h hfirst hperm
  · cases h
  · cases h
    have hrest := ((hperm.map Key.id).nodup_iff.mpr hn).of_cons
    have hsecond := takeLeast_least y ys hrest
    exact ⟨fun z hz => (keyLt_iff _ _).mp (hfirst z ((takeLeast_perm y ys).subset hz)),
      fun z hz => (keyLt_iff _ _).mp (hsecond z hz)⟩

/-- Of two or more keys a round takes the two least (R134). -/
theorem takeTwo_two_least {act : List Key} (hn : (act.map Key.id).Nodup) (hl : 2 ≤ act.length) :
    ∃ a b others, takeTwo act = some (a, b, others) ∧ act.Perm (a :: b :: others) ∧
      (∀ x ∈ b :: others, keyBelow a x) ∧ ∀ x ∈ others, keyBelow b x := by
  rcases takeTwo_spec act with ⟨-, hlt⟩ | ⟨a, b, others, h, hp⟩
  · omega
  · exact ⟨a, b, others, h, hp, takeTwo_least hn h⟩

/-- The key of the node round `k` creates (R134). -/
def mergedKey (k : Nat) (a b : Key) : Key :=
  ⟨a.weight + b.weight, BitVec.ofNat 9 (Config.firstInternal + k)⟩

theorem mergeRounds_round {rounds k : Nat} {act others : List Key} {a b : Key}
    (h : takeTwo act = some (a, b, others)) :
    mergeRounds (rounds + 1) k act =
      mergedNode a b :: mergeRounds rounds (k + 1) (mergedKey k a b :: others) := by
  simp only [mergeRounds, h, mergedKey]

theorem mergedKey_id {k : Nat} (hk : k < 256) (a b : Key) :
    (mergedKey k a b).id.toNat = 256 + k := by
  simp only [mergedKey, Config.firstInternal, BitVec.toNat_ofNat]
  omega

/-- What is in `ACT` before round `k`: nodes that exist, each once, that fit the ids and the weights
left (R134, R138). -/
structure ActOk (k : Nat) (act : List Key) : Prop where
  distinct : (act.map Key.id).Nodup
  exist : ∀ x ∈ act, x.id.toNat < 256 + k
  room : k + act.length ≤ 256
  weight : (act.map fun x => x.weight.toNat).sum < 2 ^ 40

theorem ActOk.of_perm {k : Nat} {act act' : List Key} (h : ActOk k act) (hp : act.Perm act') :
    ActOk k act' where
  distinct := (hp.map Key.id).nodup_iff.mp h.distinct
  exist x hx := h.exist x (hp.symm.subset hx)
  room := hp.length_eq ▸ h.room
  weight := (hp.map fun x => x.weight.toNat).sum_eq ▸ h.weight

/-- 40 bits hold the weight of the new node (R138). -/
theorem ActOk.merged_weight {k : Nat} {a b : Key} {others : List Key}
    (h : ActOk k (a :: b :: others)) :
    (mergedKey k a b).weight.toNat = a.weight.toNat + b.weight.toNat := by
  have hsum := h.weight
  simp only [List.map_cons, List.sum_cons] at hsum
  rw [mergedKey, BitVec.toNat_add, Nat.mod_eq_of_lt (by omega)]

theorem ActOk.round {k : Nat} {a b : Key} {others : List Key} (h : ActOk k (a :: b :: others)) :
    ActOk (k + 1) (mergedKey k a b :: others) := by
  have hroom := h.room
  have hsum := h.weight
  have hid := h.distinct
  simp only [List.length_cons] at hroom
  simp only [List.map_cons, List.sum_cons] at hsum
  have hnew := mergedKey_id (k := k) (by omega) a b
  have hold : ∀ x ∈ others, x.id.toNat < 256 + k := fun x hx => h.exist x (by simp [hx])
  refine ⟨?_, ?_, ?_, ?_⟩
  · refine List.nodup_cons.mpr ⟨fun hmem => ?_, hid.of_cons.of_cons⟩
    obtain ⟨x, hx, he⟩ := List.mem_map.mp hmem
    have := hold x hx
    rw [he] at this
    omega
  · intro x hx
    rcases List.mem_cons.mp hx with rfl | hx
    · omega
    · have := hold x hx
      omega
  · simp only [List.length_cons]
    omega
  · simp only [List.map_cons, List.sum_cons, h.merged_weight]
    omega

theorem actOk_leafKeys (cnt : Table Word 256) : ActOk 0 (leafKeys cnt) where
  distinct := leafKeys_nodup cnt
  exist := leafKeys_id_lt cnt
  room := by rw [Nat.zero_add, leafKeys_length]; exact leafSymbols_length_le cnt
  weight := keySum_leafKeys cnt ▸ countSum_lt cnt

/-- With a round for each member of `ACT` but one, the bounded loop is the spec's (R131, R134). -/
theorem greedyMerge_mergeRounds {rounds k : Nat} {act : List Key} (h : ActOk k act)
    (hr : act.length ≤ rounds + 1) : GreedyMerge k act (mergeRounds rounds k act) := by
  induction rounds generalizing k act with
  | zero => exact .done k act (by omega)
  | succ rounds ih =>
    rcases takeTwo_spec act with ⟨hnone, hlt⟩ | ⟨a, b, others, htwo, hp⟩
    · simp only [mergeRounds, hnone]
      exact .done k act hlt
    · obtain ⟨hleast, hnext⟩ := takeTwo_least h.distinct htwo
      have hlen := hp.length_eq
      have hroom := h.room
      have hround := h.of_perm hp
      simp only [List.length_cons] at hlen
      rw [mergeRounds_round htwo]
      exact .round k act others a b (mergedKey k a b) _ hp hleast hnext hround.merged_weight
        (mergedKey_id (by omega) a b) (ih hround.round (by simp only [List.length_cons]; omega))

/-- The keys `ACT` starts with, in numbers (R132, R133). -/
theorem mem_leafKeys_iff (cnt : Table Word 256) (x : Key) :
    x ∈ leafKeys cnt ↔ ∃ sym : Byte, readCount cnt sym ≠ 0#32 ∧ x.id.toNat = sym.toNat ∧
      x.weight.toNat = (readCount cnt sym).toNat := by
  have hweight (sym : Byte) : (leafWeight cnt sym).toNat = (readCount cnt sym).toNat :=
    BitVec.toNat_setWidth_of_le (by decide)
  have hid (sym : Byte) : (sym.setWidth 9 : NodeId).toNat = sym.toNat := leaf_id_toNat sym
  simp only [leafKeys, List.mem_map, mem_leafSymbols]
  constructor
  · rintro ⟨sym, hs, rfl⟩
    exact ⟨sym, hs, hid sym, hweight sym⟩
  · rintro ⟨sym, hs, hxid, hxw⟩
    refine ⟨sym, hs, ?_⟩
    rw [← hid sym] at hxid
    rw [← hweight sym] at hxw
    exact congrArg₂ Key.mk (BitVec.eq_of_toNat_eq hxw.symm) (BitVec.eq_of_toNat_eq hxid.symm)

end Sys2Proof.Machine
end

section
/-! SUPPORT. The tree of a table with one symbol (spec/43_tree_builder.md R136,
spec/44_code_table.md R150). -/

namespace Sys2Proof.Machine

section OneSymbol

variable {s : State} {sym : Byte} {tree : HTree} (hb : BuiltTree s tree)
  (hone : leafSymbols s.cnt = [sym])
include hb hone

/-- One node, under id 256 (R136). -/
theorem BuiltTree.one_registers : s.nint = 1#9 ∧ s.root = 256#9 ∧ s.degen = true := by
  have hnint := hb.nint
  have hroot := hb.rootNumber
  have hdegen := hb.degen
  rw [hone] at hnint hdegen
  rw [hnint] at hroot
  exact ⟨BitVec.eq_of_toNat_eq hnint, BitVec.eq_of_toNat_eq hroot, hdegen⟩

/-- The node has the counter as weight, the symbol on the left and `NIL` on the right (R136). -/
theorem BuiltTree.one_node : nodeRecord s.nodes 256#9 =
    ⟨(readCount s.cnt sym).setWidth 40, sym.setWidth 9, Config.nil⟩ := by
  obtain rfl := hb.lone sym hone
  obtain ⟨-, -, hrec, -, -⟩ := hb.stored
  rw [hrec]
  simp only [HTree.weight, HTree.id, Nat.add_zero, BitVec.ofNat_toNat]

/-- The one code is a single 0 bit (R136). -/
theorem BuiltTree.one_code : readCode s.code sym = ⟨1#8, 0#256⟩ := by
  obtain rfl := hb.lone sym hone
  obtain ⟨hlen, -, hpat⟩ := hb.code_of_path (sym := sym) (bs := [false]) (by simp [HTree.paths])
  exact congrArg₂ Code.mk (BitVec.eq_of_toNat_eq hlen) hpat

end OneSymbol

end Sys2Proof.Machine
end

section
/-! SUPPORT. What RDNODE finds at a node id, in numbers (spec/43_tree_builder.md R141,
spec/10_state.md R26). -/

namespace Sys2Proof.Machine

/-- Each `sel` up to 2 selects a view (R83, R141). -/
theorem nodeViewOf_some {sel : Byte} (h : sel.toNat ≤ 2) : ∃ v, nodeViewOf sel = some v :=
  Option.ne_none_iff_exists'.mp fun hnone => Nat.not_lt.mpr h (nodeViewOf_none hnone)

theorem exec_rdnode_eq {sel : Byte} {id : NodeId} {v : NodeView} (hid : id ≠ Config.nil)
    (hview : nodeViewOf sel = some v) (s : State) :
    exec (.rdnode sel id) s =
      if s.treeValid then complete 0#8 (nodeView v s id) s else trap .noTree s := by
  rw [exec, execRdnode, if_neg hid, hview]

theorem nodeLive_iff (s : State) (id : NodeId) : nodeLive s id = true ↔
    (id.toNat < 256 ∧ readCount s.cnt (id.setWidth 8) ≠ 0#32) ∨
      (256 ≤ id.toNat ∧ id.toNat < 256 + s.nint.toNat) := by
  unfold nodeLive
  split
  next h => simp only [bne_iff_ne, h, true_and, Nat.not_le.mpr h, false_and, or_false]
  next h => simp only [decide_eq_true_eq, h, false_and, Nat.not_lt.mp h, true_and, false_or]

theorem nodeFound_leaf {s : State} {id : NodeId} (h : id.toNat < 256) :
    nodeFound s id = ⟨leafWeight s.cnt (id.setWidth 8), Config.nil, Config.nil⟩ := if_pos h

theorem nodeFound_inner {s : State} {id : NodeId}
    (h : 256 ≤ id.toNat ∧ id.toNat < 256 + s.nint.toNat) :
    nodeFound s id = nodeRecord s.nodes id :=
  (if_neg (Nat.not_lt.mpr h.1)).trans (if_pos ((nodeLive_iff s id).mpr (.inr h)))

theorem nodeFound_dead {s : State} {id : NodeId} (h : 256 + s.nint.toNat ≤ id.toNat) :
    nodeFound s id = ⟨0#40, Config.nil, Config.nil⟩ :=
  (if_neg (by omega)).trans (if_neg (by rw [nodeLive_iff]; omega))

/-- An id is a leaf's, a live internal node's, or neither (R26). -/
theorem node_kinds (s : State) (id : NodeId) :
    id.toNat < 256 ∨ (256 ≤ id.toNat ∧ id.toNat < 256 + s.nint.toNat) ∨
      256 + s.nint.toNat ≤ id.toNat := by
  omega

/-- Only live internal nodes have children (R141). -/
theorem nodeFound_children (s : State) (id : NodeId) :
    (nodeFound s id).left.toNat =
        (if 256 ≤ id.toNat ∧ id.toNat < 256 + s.nint.toNat then (nodeRecord s.nodes id).left.toNat
        else 511) ∧
      (nodeFound s id).right.toNat =
        (if 256 ≤ id.toNat ∧ id.toNat < 256 + s.nint.toNat then (nodeRecord s.nodes id).right.toNat
        else 511) := by
  rcases node_kinds s id with h | h | h
  · rw [nodeFound_leaf h, if_neg (by omega), if_neg (by omega)]
    exact ⟨rfl, rfl⟩
  · rw [nodeFound_inner h, if_pos h, if_pos h]
    exact ⟨rfl, rfl⟩
  · rw [nodeFound_dead h, if_neg (by omega), if_neg (by omega)]
    exact ⟨rfl, rfl⟩

/-- A leaf weighs its counter, a live internal node its record's weight, other ids nothing
(R141). -/
theorem nodeFound_weight (s : State) (id : NodeId) :
    (nodeFound s id).weight.toNat =
      if id.toNat < 256 then (readCount s.cnt (id.setWidth 8)).toNat
      else if 256 ≤ id.toNat ∧ id.toNat < 256 + s.nint.toNat then
        (nodeRecord s.nodes id).weight.toNat
      else 0 := by
  rcases node_kinds s id with h | h | h
  · rw [nodeFound_leaf h, if_pos h]
    exact BitVec.toNat_setWidth_of_le (by decide)
  · rw [nodeFound_inner h, if_neg (by omega), if_pos h]
  · rw [nodeFound_dead h, if_neg (by omega), if_neg (by omega)]
    rfl

theorem flag_toNat (b : Bool) (n : Nat) :
    (BitVec.ofBool b).toNat * n = if b = true then n else 0 := by
  cases b <;> simp

/-- The fields of the link view: live flag, leaf flag, right and left child (R141). -/
theorem links_toNat (s : State) (id : NodeId) :
    (nodeView .links s id).toNat =
      (if nodeLive s id = true then 2 ^ 19 else 0) + (if id.toNat < 256 then 2 ^ 18 else 0) +
        (nodeFound s id).right.toNat * 2 ^ 9 + (nodeFound s id).left.toNat := by
  have hfields : (nodeView .links s id).toNat =
      (BitVec.ofBool (nodeLive s id)).toNat * 2 ^ 19 +
        (BitVec.ofBool (decide (id.toNat < 256))).toNat * 2 ^ 18 +
        (nodeFound s id).right.toNat * 2 ^ 9 + (nodeFound s id).left.toNat := by
    simp only [nodeView, toNat_append_add, BitVec.toNat_ofNat]
    omega
  simp only [hfields, flag_toNat, decide_eq_true_eq]

theorem weightLow_toNat (s : State) (id : NodeId) :
    (nodeView .weightLow s id).toNat = (nodeFound s id).weight.toNat % 2 ^ 32 := by
  simp only [nodeView, BitVec.extractLsb'_toNat, Nat.shiftRight_zero]

theorem weightHigh_toNat (s : State) (id : NodeId) :
    (nodeView .weightHigh s id).toNat = (nodeFound s id).weight.toNat / 2 ^ 32 := by
  have hlt := (nodeFound s id).weight.isLt
  simp only [nodeView, BitVec.toNat_setWidth, BitVec.extractLsb'_toNat, Nat.shiftRight_eq_div_pow]
  omega

end Sys2Proof.Machine
end

section
/-! PROOFS. The statements of the family 43_tree_builder.md. -/

namespace Sys2Proof.Proofs.BuilderRules

open Sys2Proof Sys2Proof.Machine Sys2Proof.Spec

/-- Settles O25: BUILD installs the tree of the counters, and the numbers are those of a valid
tree. -/
theorem buildCompletes : Obligations.BuildCompletes := by
  intro s hne
  obtain ⟨t, hexec, hbuild⟩ := exec_build_builds ((leafSymbols_ne_nil_iff s.cnt).mpr hne)
  obtain ⟨tree, hb⟩ := treeOk_built hbuild.treeOk hbuild.treeValid
  have hcount : distinctCount t = distinctCount s := by
    rw [distinctCount_eq_distinct, hbuild.counters, distinctCount_eq_distinct]
  obtain ⟨hone, hmax⟩ := hb.nintRange
  exact ⟨t, hexec, hbuild.answered, hbuild.treeValid, hone, hmax,
    hcount ▸ nint_of_valid hbuild.treeOk hbuild.treeValid, hb.rootNumber,
    hcount ▸ degen_of_valid hbuild.treeOk hbuild.treeValid, fun _ => hbuild.nodes_above,
    hbuild.counters, hbuild.packer, hbuild.unpacker, hbuild.record⟩

/-- Settles O27: the order is that of the numbers, and `takeTwo` removes the two least. -/
theorem leastKeysAreTaken : Obligations.LeastKeysAreTaken :=
  ⟨keyLt_iff, fun _ _ => keyLt_asymm, fun _ _ _ => keyLt_trans, fun _ _ => keyLt_total,
    fun _ => takeTwo_two_least⟩

/-- Settles O28: the records are those of the bounded loop over the leaf keys, which is the spec's
loop. -/
theorem buildIsTheGreedyMerge : Obligations.BuildIsTheGreedyMerge := by
  intro s t htwo hexec
  rw [← leafSymbols_length_eq_distinctCount] at htwo
  have hbuild := builds_of_exec (List.ne_nil_of_length_pos (by omega)) hexec
  rw [← leafKeys_length] at htwo
  refine ⟨leafKeys s.cnt, (leafKeys_nodup s.cnt).of_map _, mem_leafKeys_iff s.cnt, ?_⟩
  rw [hbuild.records, treeNodes_many htwo]
  exact greedyMerge_mergeRounds (actOk_leafKeys s.cnt) (Nat.le_succ _)

/-- Settles O29: the tree is one fork with the symbol's leaf on the left. -/
theorem oneSymbolTree : Obligations.OneSymbolTree := by
  intro s sym hsym hothers
  have hone := leafSymbols_eq_singleton hsym hothers
  obtain ⟨t, hexec, hbuild⟩ := exec_build_builds (hone ▸ List.cons_ne_nil sym [])
  obtain ⟨tree, hb⟩ := treeOk_built hbuild.treeOk hbuild.treeValid
  have hans := hbuild.answered
  rw [← hbuild.counters] at hone hothers ⊢
  obtain ⟨hnint, hroot, hdegen⟩ := hb.one_registers hone
  rw [hnint, hroot] at hans
  exact ⟨t, hexec, hans, hroot, hnint, hdegen, hb.one_node hone, hb.one_code hone,
    fun x hx => hb.code_absent (hothers x hx)⟩

/-- Settles O30: each clause is a fact about the tree of the present counters. -/
theorem validTreeStructure : Obligations.ValidTreeStructure := by
  intro s hi hv
  obtain ⟨tree, hb⟩ := treeOk_built hi.tree hv
  obtain ⟨hpos, hmax⟩ := distinctCount_of_valid hi.tree hv
  refine ⟨⟨hpos, hmax, nint_of_valid hi.tree hv⟩, hb.rootNumber,
    fun id h hlt => children_of_valid hi.tree hv h hlt, right_of_degen hi.tree hv,
    fun sym hs => ?_, root_weight_of_valid hi.tree hv⟩
  have hpath := hb.path_exists hs
  obtain ⟨hlen, -, -⟩ := hb.code_of_path hpath
  rw [hlen]
  exact ⟨⟨codeBits s sym, hb.path_unique.mpr ⟨hs, rfl⟩, fun bs hbs => (hb.path_unique.mp hbs).2⟩,
    hb.path_pos hpath⟩

/-- Settles O31: every node is created with the exact sum, and the root's covers all leaves. -/
theorem weightsAreExactSums : Obligations.WeightsAreExactSums := by
  intro s hi hv
  exact ⟨fun id h hlt => weight_of_valid hi.tree hv h hlt, root_weight_of_valid hi.tree hv,
    counterSum_eq_countSum s ▸ countSum_lt s.cnt⟩

/-- Settles O32: both results are valid trees over the same counters. -/
theorem buildDependsOnCountersOnly : Obligations.BuildDependsOnCountersOnly := by
  intro s s' t t' hc hne hexec hexec'
  have hne' := (leafSymbols_ne_nil_iff s.cnt).mpr hne
  have hbuild := builds_of_exec hne' hexec
  have hbuild' := builds_of_exec (hc ▸ hne') hexec'
  exact valid_trees_agree hbuild.treeOk hbuild.treeValid hbuild'.treeOk hbuild'.treeValid
    (hbuild.counters.trans (hc.trans hbuild'.counters.symm))

/-- Settles O33: under the invariant installing the tree again changes nothing. -/
theorem rebuildGivesTheSameTree : Obligations.RebuildGivesTheSameTree := by
  intro s hi hv
  obtain ⟨hne, hsame⟩ := treeOk_of_valid hi.tree hv
  have hexec := exec_build_installs hne
  rw [hsame] at hexec
  exact ⟨_, hexec, answered_self _ _ _ s, sameBlock_respond _ _ _ s⟩

/-- Settles O34: RDNODE answers the view of what is found at the id, whose fields are the
statement's numbers. -/
theorem nodeViewsRead : Obligations.NodeViewsRead := by
  intro s sel id hsel hid
  obtain ⟨v, hview⟩ := nodeViewOf_some hsel
  obtain ⟨hleft, hright⟩ := nodeFound_children s id
  have hweight := nodeFound_weight s id
  have hexec := exec_rdnode_eq hid hview s
  refine ⟨fun hv => ⟨_, hexec.trans (if_neg (ne_true_of_eq_false hv)), raise_leaves .noTree s⟩,
    fun hv => ⟨_, _, hexec.trans (if_pos hv), answered_self _ _ _ s, sameBlock_respond _ _ _ s,
      fun h => ?_, fun h => ?_, fun h => ?_⟩⟩
  · subst h
    obtain rfl : .links = v := Option.some.inj hview
    simp only [links_toNat, nodeLive_iff, hleft, hright]
  · subst h
    obtain rfl : .weightLow = v := Option.some.inj hview
    rw [weightLow_toNat, hweight]
  · subst h
    obtain rfl : .weightHigh = v := Option.some.inj hview
    rw [weightHigh_toNat, hweight]

/-- Settles O26: the empty table faults, and no tree is valid over it. -/
theorem buildOnEmptyTableFaults : Obligations.BuildOnEmptyTableFaults := by
  intro s hzero
  have hnil : leafSymbols s.cnt = [] := by
    rw [← not_ne_iff, leafSymbols_ne_nil_iff]
    exact fun ⟨sym, hs⟩ => hs (hzero sym)
  refine ⟨_, exec_build_empty hnil, raise_leaves .emptyTable s, fun hi => ?_⟩
  rw [raise_treeValid, Bool.eq_false_iff]
  exact fun hv => (treeOk_of_valid hi.tree hv).1 hnil

end Sys2Proof.Proofs.BuilderRules
end

section
/-! SUPPORT. The codes of a valid tree as bit strings (spec/44_code_table.md R150 to R152), and who
writes the code table (R156). -/

namespace Sys2Proof.Machine

@[simp] theorem codeBits_length (s : State) (sym : Byte) :
    (codeBits s sym).length = (readCode s.code sym).len.toNat := lowBits_length _ _

theorem symbolId_inj {x y : Byte} (h : (x.setWidth 9 : NodeId) = y.setWidth 9) : x = y := by
  simpa using congrArg (fun id : NodeId => id.setWidth 8) h

theorem symbolId_ne_nil (sym : Byte) : (sym.setWidth 9 : NodeId) ≠ Config.nil :=
  leaf_ne_nil ((leaf_id_toNat sym).trans_lt sym.isLt)

/-- The paths of the ghost tree are the codes of the coded symbols (R150). -/
theorem BuiltTree.mem_paths_iff {s : State} {tree : HTree} (hb : BuiltTree s tree) {sym : Byte}
    {bs : List Bool} :
    (sym, bs) ∈ tree.paths ↔ readCount s.cnt sym ≠ 0#32 ∧ bs = codeBits s sym := by
  rw [← pathEnd_eq_leaf_iff hb.stored, ← hb.root, hb.path_unique]

/-- Prefix-freedom (R152): the path to a leaf goes on only to `NIL`. -/
theorem BuiltTree.eq_of_codeBits_prefix {s : State} {tree : HTree} (hb : BuiltTree s tree)
    {x y : Byte} (hx : readCount s.cnt x ≠ 0#32) (hy : readCount s.cnt y ≠ 0#32)
    (hpre : codeBits s x <+: codeBits s y) : x = y := by
  obtain ⟨rest, hrest⟩ := hpre
  have hendx : pathEnd s.nodes s.root (codeBits s x) = x.setWidth 9 := hb.path_unique.mpr ⟨hx, rfl⟩
  have hendy : pathEnd s.nodes s.root (codeBits s y) = y.setWidth 9 := hb.path_unique.mpr ⟨hy, rfl⟩
  rw [← hrest, pathEnd_append, hendx] at hendy
  by_cases hnil : rest = []
  · subst hnil
    exact symbolId_inj hendy
  · have hleaf : (x.setWidth 9 : NodeId).toNat < 256 := (leaf_id_toNat x).trans_lt x.isLt
    rw [pathEnd_beyond (.inl hleaf) hnil] at hendy
    exact absurd hendy.symm (symbolId_ne_nil y)

/-- A tree that is not the one-symbol tree has two children at every node (R136, R142). -/
theorem BuiltTree.full_of_not_degen {s : State} {tree : HTree} (hb : BuiltTree s tree)
    (hne : leafSymbols s.cnt ≠ []) (hd : s.degen = false) : tree.Full := by
  have hone : (leafSymbols s.cnt).length ≠ 1 := of_decide_eq_false (hb.degen.symm.trans hd)
  have hpos : 0 < (leafSymbols s.cnt).length := List.length_pos_iff.mpr hne
  exact hb.full (by omega)

/-- Completeness (R152): in a tree of two or more symbols every infinite bit sequence begins with
exactly one code. -/
theorem BuiltTree.code_complete {s : State} {tree : HTree} (hb : BuiltTree s tree)
    (hfull : tree.Full) (f : Nat → Bool) :
    ∃! x : Byte, readCount s.cnt x ≠ 0#32 ∧
      codeBits s x = (List.range (readCode s.code x).len.toNat).map f := by
  obtain ⟨x, bs, hmem, hbegins, hunique⟩ := HTree.full_complete hfull f
  obtain ⟨hx, rfl⟩ := hb.mem_paths_iff.mp hmem
  rw [codeBits_length] at hbegins
  refine ⟨x, ⟨hx, hbegins⟩, fun y ⟨hy, hybegins⟩ => ?_⟩
  exact (hunique y _ (hb.path_exists hy) (by rwa [codeBits_length])).1

/-- The one code of a one-symbol tree begins exactly the sequences that begin with 0 (R152). -/
theorem BuiltTree.one_code_begins_iff {s : State} {sym : Byte} {tree : HTree}
    (hb : BuiltTree s tree) (hone : leafSymbols s.cnt = [sym]) (f : Nat → Bool) :
    (∃ x : Byte, readCount s.cnt x ≠ 0#32 ∧
      codeBits s x = (List.range (readCode s.code x).len.toNat).map f) ↔ f 0 = false := by
  have hcoded (x : Byte) : readCount s.cnt x ≠ 0#32 ↔ x = sym := by
    rw [← mem_leafSymbols, hone, List.mem_singleton]
  simp only [hcoded, exists_eq_left, codeBits, hb.one_code hone]
  show [false] = [f 0] ↔ f 0 = false
  rw [List.singleton_inj, eq_comm]

/-- No act of an agent writes the code table (R156; hardware reset: R212, log entry 6). -/
theorem arrive_code (e : PortEvent) (s : State) : (arrive e s).code = s.code := by
  cases e with
  | issue c => rfl
  | srcPush b => exact pushSource_code b s
  | srcEnd => rfl
  | hwReset => rfl

theorem deliver_code (s : State) : (deliver s).code = s.code := by
  rcases ha : s.agenda with _ | ⟨e, rest⟩
  · rw [deliver_idle ha]
  · rw [deliver_event ha, arrive_code]

/-- The code table after one step: as before, but for a BUILD that completed (R156). -/
theorem step_code {s t : State} (h : step s = .next t) :
    t.code = s.code ∨ ∃ c, AtHead s c ∧ decode c = .ok .build ∧ t.treeValid = true := by
  cases transition_of_step h with
  | agents _ => exact .inl (deliver_code s)
  | locked c _ _ => exact .inl rfl
  | rejected c r _ _ _ => exact .inl (raise_code _ s)
  | faulted c i f _ _ _ _ => exact .inl (raise_code f s)
  | held c i _ _ _ _ _ => exact .inl rfl
  | completed c i aux data s' hc _ hd he =>
    rcases effect_code he with ⟨rfl, hv⟩ | hcode
    · exact .inr ⟨c, hc, hd, hv⟩
    · exact .inl hcode

/-! ### The two reads (R154, R155) -/

theorem exec_rdlen_eq (s : State) (sym : Byte) : exec (.rdlen sym) s =
    if s.treeValid then complete 0#8 ((readCode s.code sym).len.setWidth 32) s
    else trap .noTree s := rfl

theorem exec_rdcode_eq {w : Byte} (hw : w.toNat ≤ 7) (s : State) (sym : Byte) :
    exec (.rdcode sym w) s =
      if s.treeValid then
        complete (readCode s.code sym).len (patternWord (readCode s.code sym).pat w.toNat) s
      else trap .noTree s := by
  simp only [exec, execRdcode, patternWordOf, if_pos hw]

/-- Bits `32w+31` to `32w` of a pattern, as a number (R66). -/
theorem patternWord_toNat (p : Pattern) (w : Nat) :
    (patternWord p w).toNat = p.toNat / 2 ^ (32 * w) % 2 ^ 32 := by
  rw [patternWord, BitVec.extractLsb'_toNat, Nat.shiftRight_eq_div_pow]

end Sys2Proof.Machine
end

section
/-! PROOFS. The statements of the family 44_code_table.md. -/

namespace Sys2Proof.Proofs.CodeTableRules

open Sys2Proof Sys2Proof.Machine Sys2Proof.Spec

/-- Settles O38: the ghost tree under a valid tree is full or the one-symbol tree, and the code of a
symbol is its path. -/
theorem codesArePrefixFree : Obligations.CodesArePrefixFree := by
  intro s hi hv
  obtain ⟨tree, hb⟩ := treeOk_built hi.tree hv
  obtain ⟨hnonempty, -⟩ := treeOk_of_valid hi.tree hv
  refine ⟨fun x y hne hx hy hpre => hne (hb.eq_of_codeBits_prefix hx hy hpre),
    fun f hd => hb.code_complete (hb.full_of_not_degen hnonempty hd) f, fun f hd => ?_,
    hb.len_eq_zero_iff, fun s' hi' hv' hcnt => ?_⟩
  · obtain ⟨sym, hone⟩ := List.length_eq_one_iff.mp ((degen_iff_of_valid hi.tree hv).mp hd)
    exact hb.one_code_begins_iff hone f
  · obtain ⟨-, -, -, hcode, -⟩ := valid_trees_agree hi'.tree hv' hi.tree hv hcnt
    exact hcode

/-- Settles O39: of what a step can do, only a BUILD that completes writes the table. -/
theorem onlyBuildWritesCodes : Obligations.OnlyBuildWritesCodes := by
  intro s t h hne
  exact (step_code h).resolve_left hne

/-- Settles O35: the two cases of the command, with and without a tree. -/
theorem codeLengthRead : Obligations.CodeLengthRead := by
  intro s sym
  have hexec := exec_rdlen_eq s sym
  exact ⟨fun hv => ⟨_, hexec.trans (if_pos hv), answered_self _ _ _ s, sameBlock_respond _ _ _ s⟩,
    fun hv => ⟨_, hexec.trans (if_neg (ne_true_of_eq_false hv)), raise_leaves .noTree s⟩⟩

/-- Settles O36: the two cases of the command, with and without a tree, and the word as a number. -/
theorem codePatternRead : Obligations.CodePatternRead := by
  intro s sym w hw
  have hexec := exec_rdcode_eq hw s sym
  exact ⟨fun hv => ⟨_, _, hexec.trans (if_pos hv), answered_self _ _ _ s, patternWord_toNat _ _,
      sameBlock_respond _ _ _ s⟩,
    fun hv => ⟨_, hexec.trans (if_neg (ne_true_of_eq_false hv)), raise_leaves .noTree s⟩⟩

end Sys2Proof.Proofs.CodeTableRules
end

section
/-! SUPPORT. Encoding and decoding one symbol (spec/45_codec_datapath.md R161 to R165): the faults
of ENC, where a walk of DEC leads, and what DEC does there. -/

namespace Sys2Proof.Machine

/-! ### ENC -/

theorem exec_enc_no_tree {s : State} (hv : s.treeValid = false) (sym : Byte) :
    exec (.enc sym) s = .next (raise .noTree s) :=
  if_neg (ne_true_of_eq_false hv)

theorem exec_enc_not_coded {s : State} {sym : Byte} (hv : s.treeValid = true)
    (hl : (readCode s.code sym).len = 0#8) :
    exec (.enc sym) s = .next (raise .symbolNotCoded s) :=
  (if_pos hv).trans (if_pos hl)

/-! ### DEC -/

theorem exec_dec_no_tree {s : State} (hv : s.treeValid = false) :
    exec .dec s = .next (raise .noTree s) :=
  if_neg (ne_true_of_eq_false hv)

/-- The first `n` unread bits lead from the root over internal nodes to the id (R164). -/
structure LeadsTo (s : State) (n : Nat) (id : NodeId) : Prop where
  pos : 1 ≤ n
  available : n ≤ (unreadBits s).length
  passes : Passes s.nodes s.root (unreadBits s) n
  ends : pathEnd s.nodes s.root ((unreadBits s).take n) = id

/-- One step of the walk. -/
theorem leadsTo_child {s : State} {b : Bool} {rest : List Bool} (h : unreadBits s = b :: rest) :
    LeadsTo s 1 (childOf s.nodes s.root b) where
  pos := Nat.le_refl 1
  available := by simp [h]
  passes := fun _ h1 hlt => absurd h1 (Nat.not_le_of_gt hlt)
  ends := by rw [h]; rfl

/-- Two walks over the same bits that both end at a leaf or at `NIL` are the same walk. -/
theorem LeadsTo.unique {s : State} {m n : Nat} {id id' : NodeId} (h : LeadsTo s m id)
    (h' : LeadsTo s n id') (hid : id.toNat < 256 ∨ id = Config.nil)
    (hid' : id'.toNat < 256 ∨ id' = Config.nil) : id = id' := by
  have not_longer {k l : Nat} {i j : NodeId} (hi : LeadsTo s k i) (hj : LeadsTo s l j)
      (hend : i.toNat < 256 ∨ i = Config.nil) : l ≤ k := by
    by_contra hlt
    obtain ⟨hint, hne⟩ := hj.passes k hi.pos (Nat.lt_of_not_le hlt)
    rw [hi.ends] at hint hne
    exact hend.elim (Nat.not_lt.mpr hint) hne
  obtain rfl : m = n := Nat.le_antisymm (not_longer h' h hid') (not_longer h h' hid)
  exact h.ends.symm.trans h'.ends

/-- The same bits do not lead both to a leaf and to `NIL`. -/
theorem LeadsTo.not_nil_of_leaf {s : State} {m n : Nat} {sym : Byte}
    (h : LeadsTo s m (sym.setWidth 9)) : ¬ LeadsTo s n Config.nil := fun h' =>
  symbolId_ne_nil sym
    (h.unique h' (.inl ((leaf_id_toNat sym).trans_lt sym.isLt)) (.inr rfl))

/-- Unread bits that begin with a path to a leaf decode to its symbol, and DEC takes that path from
them (R164). -/
theorem exec_dec_of_path {s : State} {sym : Byte} {bits rest : List Bool}
    (hv : s.treeValid = true) (hend : pathEnd s.nodes s.root bits = sym.setWidth 9)
    (hne : bits ≠ []) (hu : unreadBits s = bits ++ rest) :
    ∃ t, exec .dec s = .next t ∧
      Answered s t 0#8 (BitVec.ofNat 8 bits.length) (sym.setWidth 32) ∧ Consumes s t bits := by
  obtain ⟨u, hw, rfl, hk⟩ := walkTree_to_leaf hend hne hu (availableBits s.bitSource) 0
    (availableBits_eq _).ge
  rw [Nat.zero_add] at hw
  exact ⟨respond 0#8 (BitVec.ofNat 8 bits.length) (sym.setWidth 32) (s.withBitSource u),
    by simp [exec, execDec, hv, hw, complete], answered_respond rfl rfl rfl _ _ _,
    consumes_respond hu hk _ _ _⟩

/-- A walk that leads to a leaf answers its symbol and the number of bits, and takes them (R164). -/
theorem exec_dec_of_leadsTo_leaf {s : State} {n : Nat} {sym : Byte} (hv : s.treeValid = true)
    (h : LeadsTo s n (sym.setWidth 9)) :
    ∃ t, exec .dec s = .next t ∧ Answered s t 0#8 (BitVec.ofNat 8 n) (sym.setWidth 32) ∧
      Consumes s t ((unreadBits s).take n) := by
  have hlen := List.length_take_of_le h.available
  have hne := List.ne_nil_of_length_pos (h.pos.trans_eq hlen.symm)
  have hdec := exec_dec_of_path hv h.ends hne (List.take_append_drop n _).symm
  rwa [hlen] at hdec

/-- How DEC ends under a valid tree (R164, R165): at a leaf (what it answers there says
`exec_dec_of_leadsTo_leaf`), at `NIL`, or without bits. -/
theorem exec_dec_cases {s : State} (hv : s.treeValid = true) :
    (∃ n, ∃ sym : Byte, LeadsTo s n (sym.setWidth 9)) ∨
      (∃ n, LeadsTo s n Config.nil ∧ exec .dec s = .next (raise .badPath s)) ∨
      (Passes s.nodes s.root (unreadBits s) ((unreadBits s).length + 1) ∧
        exec .dec s = .next (underrun s)) := by
  rcases walkTree_spec s.nodes (availableBits s.bitSource) s.root 0 s.bitSource
    (availableBits_eq _).ge with
    ⟨n, sym, -, -, h1, hn, hp, hend, -⟩ | ⟨n, hw, h1, hn, hp, hend⟩ | ⟨-, hp⟩
  · exact .inl ⟨n, sym, h1, hn, hp, hend⟩
  · exact .inr (.inl ⟨n, ⟨h1, hn, hp, hend⟩, by simp [exec, execDec, hv, hw, trap]⟩)
  · exact .inr (.inr ⟨hp, exec_dec_underrun hv hp⟩)

/-- A walk that leads to `NIL` faults (R165). -/
theorem exec_dec_of_leadsTo_nil {s : State} {n : Nat} (hv : s.treeValid = true)
    (h : LeadsTo s n Config.nil) : exec .dec s = .next (raise .badPath s) := by
  rcases exec_dec_cases hv with ⟨m, sym, hleaf⟩ | ⟨m, -, hexec⟩ | ⟨hp, -⟩
  · exact absurd h hleaf.not_nil_of_leaf
  · exact hexec
  · exact absurd h.ends (hp n h.pos (Nat.lt_succ_of_le h.available)).2

/-- BAD_PATH tells that the walk led to `NIL`: the other outcomes answer another status or
nothing. -/
theorem leadsTo_nil_of_faulted {s t : State} (hv : s.treeValid = true)
    (ht : exec .dec s = .next t) (hf : Faulted s t .badPath) : ∃ n, LeadsTo s n Config.nil := by
  obtain ⟨hans, -⟩ := hf
  rcases exec_dec_cases hv with ⟨n, sym, h⟩ | ⟨n, h, -⟩ | ⟨-, hu⟩
  · obtain ⟨u, hu, hok, -⟩ := exec_dec_of_leadsTo_leaf hv h
    cases hu.symm.trans ht
    exact absurd (answered_status hok hans) (by decide)
  · exact ⟨n, h⟩
  · cases hu.symm.trans ht
    rcases underrun_cases s with ⟨-, he⟩ | ⟨-, he⟩ <;> rw [he] at hans
    · obtain ⟨htrunc, -⟩ := raise_leaves .truncated s
      exact absurd (answered_status htrunc hans) (by decide)
    · obtain ⟨-, -, hheld, -⟩ := hans
      exact absurd hheld.symm Bool.false_ne_true

end Sys2Proof.Machine
end

section
/-! SUPPORT. Decoding under a valid tree (spec/45_codec_datapath.md R164 to R166): codes decode to
their symbols, one after another, and only the one-symbol tree has a `NIL` to walk to. -/

namespace Sys2Proof.Machine

theorem codeBits_congr {s t : State} (h : t.code = s.code) (sym : Byte) :
    codeBits t sym = codeBits s sym := by
  rw [codeBits, codeBits, h]

/-- A code ends at its symbol's leaf and is not empty (R28, R151). -/
theorem code_path_of_valid {s : State} {sym : Byte} (hok : TreeOk s) (hv : s.treeValid = true)
    (hs : readCount s.cnt sym ≠ 0#32) :
    pathEnd s.nodes s.root (codeBits s sym) = sym.setWidth 9 ∧ codeBits s sym ≠ [] := by
  obtain ⟨tree, hb⟩ := treeOk_built hok hv
  obtain ⟨hpos, -⟩ := hb.path_pos (hb.path_exists hs)
  exact ⟨hb.path_unique.mpr ⟨hs, rfl⟩, List.ne_nil_of_length_pos hpos⟩

/-- Unread bits that begin with a symbol's code decode to that symbol (R164). -/
theorem exec_dec_of_code {s : State} {sym : Byte} {rest : List Bool} (hok : TreeOk s)
    (hv : s.treeValid = true) (hs : readCount s.cnt sym ≠ 0#32)
    (hu : unreadBits s = codeBits s sym ++ rest) :
    ∃ t, exec .dec s = .next t ∧
      Answered s t 0#8 (readCode s.code sym).len (sym.setWidth 32) ∧
      Consumes s t (codeBits s sym) := by
  obtain ⟨hend, hne⟩ := code_path_of_valid hok hv hs
  have hdec := exec_dec_of_path hv hend hne hu
  rwa [codeBits_length, BitVec.ofNat_toNat, BitVec.setWidth_eq] at hdec

/-- The codes of a list of symbols decode to the symbols, in order (R166). -/
theorem runAll_dec {s : State} {xs : List Byte} {rest : List Bool} (hok : TreeOk s)
    (hv : s.treeValid = true) (hxs : ∀ x ∈ xs, readCount s.cnt x ≠ 0#32)
    (hu : unreadBits s = xs.flatMap (codeBits s) ++ rest) :
    ∃ t, runAll (List.replicate xs.length .dec) s = some t ∧
      Consumes s t (xs.flatMap (codeBits s)) ∧
      t.rsp = s.rsp ++
        xs.map fun x => responseWord 0#8 (readCode s.code x).len (x.setWidth 32) := by
  induction xs generalizing s with
  | nil => exact ⟨s, rfl, consumes_nil s, (List.append_nil _).symm⟩
  | cons x xs ih =>
    obtain ⟨hx, hrest⟩ := List.forall_mem_cons.mp hxs
    rw [List.flatMap_cons, List.append_assoc] at hu
    obtain ⟨t, hexec, ⟨hrsp, -⟩, hfirst⟩ := exec_dec_of_code hok hv hx hu
    obtain ⟨hvt, -, -, -, -, hcode⟩ := hfirst.tree
    have hcodes : codeBits t = codeBits s := funext (codeBits_congr hcode)
    obtain ⟨u, hrun, hmore, hrsp'⟩ := ih (treeOk_congr hok hfirst.counters hfirst.tree)
      (hvt.trans hv) (by rwa [hfirst.counters]) (by rw [hcodes]; exact hfirst.rest hu)
    rw [hcodes] at hmore
    refine ⟨u, by simpa only [List.length_cons, List.replicate_succ, runAll, hexec] using hrun,
      hfirst.trans hmore, ?_⟩
    rw [hrsp', hrsp, hcode, List.map_cons, List.append_assoc, List.singleton_append]

/-- In the one-symbol tree a 0 bit leads to the leaf and a 1 bit to `NIL` (R136). -/
theorem child_of_root_of_degen {s : State} (hok : TreeOk s) (hv : s.treeValid = true)
    (hd : s.degen = true) : ∃ sym : Byte, ∀ b : Bool,
      childOf s.nodes s.root b = if b then Config.nil else sym.setWidth 9 := by
  obtain ⟨tree, hb⟩ := treeOk_built hok hv
  obtain ⟨sym, hone⟩ := List.length_eq_one_iff.mp ((degen_iff_of_valid hok hv).mp hd)
  obtain ⟨-, hroot, -⟩ := hb.one_registers hone
  exact ⟨sym, fun b => by rw [childOf, hroot, hb.one_node hone]⟩

/-- A walk under a tree with two or more symbols does not lead to `NIL` (R142, R165). -/
theorem not_leadsTo_nil_of_not_degen {s : State} (hok : TreeOk s) (hv : s.treeValid = true)
    (hd : s.degen = false) (n : Nat) : ¬ LeadsTo s n Config.nil := by
  intro h
  obtain ⟨tree, hb⟩ := treeOk_built hok hv
  obtain ⟨hne, -⟩ := treeOk_of_valid hok hv
  have hroot : 256 ≤ s.root.toNat := by
    have := hb.nintRange
    have := hb.rootNumber
    omega
  refine full_no_nil (hb.full_of_not_degen hne hd) hb.stored (unreadBits s) n h.available ?_
    (hb.root ▸ h.ends)
  intro m hm
  rw [← hb.root]
  rcases m with _ | m
  · exact hroot
  · exact (h.passes (m + 1) (Nat.succ_pos m) hm).1

/-- Only a 1 bit at the root of a one-symbol tree leads to `NIL` (R165). -/
theorem leadsTo_nil_iff {s : State} (hok : TreeOk s) (hv : s.treeValid = true) :
    (∃ n, LeadsTo s n Config.nil) ↔ s.degen = true ∧ (unreadBits s).head? = some true := by
  cases hd : s.degen with
  | false => simpa using not_leadsTo_nil_of_not_degen hok hv hd
  | true =>
    obtain ⟨sym, hchild⟩ := child_of_root_of_degen hok hv hd
    rcases hbits : unreadBits s with _ | ⟨b, rest⟩
    · refine iff_of_false (fun ⟨n, h⟩ => ?_) (by simp)
      have hlen := h.pos.trans h.available
      simp [hbits] at hlen
    · have hfirst := leadsTo_child hbits
      rw [hchild] at hfirst
      cases b with
      | true => exact iff_of_true ⟨1, hfirst⟩ ⟨rfl, rfl⟩
      | false => exact iff_of_false (fun ⟨_, h⟩ => hfirst.not_nil_of_leaf h) (by simp)

end Sys2Proof.Machine
end

section
/-! SUPPORT. A run of ENC (spec/45_codec_datapath.md R161, R166) packs the codes of its symbols. -/

namespace Sys2Proof.Spec

open Sys2Proof.Machine

variable {s : State} (hok : TreeOk s) (hv : s.treeValid = true)
include hok hv

/-- Under a valid tree every symbol with a counter has a code to pack (R150). -/
theorem packs_enc {sym : Byte} (hs : readCount s.cnt sym ≠ 0#32) :
    packs s (.enc sym) = some (codeBits s sym) := by
  obtain ⟨tree, hb⟩ := treeOk_built hok hv
  exact if_pos ⟨hv, fun hl => hs ((hb.len_eq_zero_iff sym).mp hl)⟩

theorem packs_codeBits {xs : List Byte} (hxs : ∀ x ∈ xs, readCount s.cnt x ≠ 0#32) :
    ((xs.map Instr.enc).flatMap fun i => (packs s i).getD []) = xs.flatMap (codeBits s) := by
  rw [List.flatMap_map]
  exact List.flatMap_congr fun x hx => by rw [packs_enc hok hv (hxs x hx), Option.getD_some]

end Sys2Proof.Spec
end

section
/-! PROOFS. The statements of the family 45_codec_datapath.md. -/

namespace Sys2Proof.Proofs.DatapathRules

open Sys2Proof Sys2Proof.Machine Sys2Proof.Spec

/-- Settles O49: with a code ENC packs its bits, whose number fixes how many bytes are emitted; the
two faults are the command's other branches. -/
theorem encodePacksTheCode : Obligations.EncodePacksTheCode := by
  intro s sym
  refine ⟨fun hv hl hp => ?_, fun hv => ⟨_, exec_enc_no_tree hv sym, raise_leaves .noTree s⟩,
    fun hv hl => ⟨_, exec_enc_not_coded hv hl, raise_leaves .symbolNotCoded s⟩⟩
  have happ := appends_respond_packBits (codeBits s sym) hp 0#8 (readCode s.code sym).len 0#32
  obtain ⟨hsnk, -⟩ := happ.counts
  rw [codeBits_length] at hsnk
  exact ⟨_, exec_enc_coded hv hl, answered_respond_packBits _ s _ _ _, happ.packed, hsnk,
    happ.snk_prefix, happ.packerOk, happ.counters, happ.tree, happ.unpacker, happ.record⟩

/-- Settles O50: the first `n` bits are a path to the leaf, or a walk that leads to `NIL`. -/
theorem decodeWalksToFirstLeaf : Obligations.DecodeWalksToFirstLeaf := by
  intro s
  refine ⟨fun hv => ⟨_, exec_dec_no_tree hv, raise_leaves .noTree s⟩, fun hv n h1 hn hp =>
    ⟨fun sym hend => ?_, fun hend =>
      ⟨_, exec_dec_of_leadsTo_nil hv ⟨h1, hn, hp, hend⟩, raise_leaves .badPath s⟩⟩⟩
  obtain ⟨t, hexec, hans, hread⟩ := exec_dec_of_leadsTo_leaf hv ⟨h1, hn, hp, hend⟩
  exact ⟨t, hexec, hans, hread.rest (List.take_append_drop n _).symm, hread.srcEos,
    hread.unpackerOk, hread.counters, hread.tree, hread.packer, hread.record⟩

/-- Settles O51: the code of a symbol is the path to its leaf. -/
theorem decodeReturnsCodedSymbol : Obligations.DecodeReturnsCodedSymbol := by
  intro s sym rest hi hv hs hu
  obtain ⟨t, hexec, hans, hread⟩ := exec_dec_of_code hi.tree hv hs hu
  exact ⟨t, hexec, hans, hread.rest hu, hread.counters, hread.tree, hread.packer, hread.record⟩

/-- Settles O52: BAD_PATH is raised exactly when the walk leads to `NIL`. -/
theorem badPathOnlyInOneSymbolTree : Obligations.BadPathOnlyInOneSymbolTree := by
  intro s t hi hv ht
  rw [← leadsTo_nil_iff hi.tree hv]
  refine ⟨leadsTo_nil_of_faulted hv ht, fun ⟨n, h⟩ => ?_⟩
  cases (exec_dec_of_leadsTo_nil hv h).symm.trans ht
  exact raise_leaves .badPath s

/-- Settles O53: the bytes hold the codes of the symbols and the pad, the DECs take the former, and
what is left is fewer than eight zeros, which UALIGN discards. -/
theorem segmentRoundTrip : Obligations.SegmentRoundTrip := by
  intro e d xs hie hve h0 hxs hid hvd hcnt hd0
  obtain ⟨e', bytes, hrun, hsnk, hlen, hbits, -⟩ :=
    PackerRules.packingRunFillsBytes e (xs.map .enc) hie.packer h0
      (List.forall_mem_map.mpr fun x hx => by
        rw [packs_enc hie.tree hve (hxs x hx), Option.isSome_some])
  refine ⟨e', bytes, hrun, hsnk, fun hsrc => ?_⟩
  obtain ⟨-, -, -, hcode, -⟩ := valid_trees_agree hie.tree hve hid.tree hvd hcnt.symm
  have hcodes : codeBits e = codeBits d := funext (codeBits_congr hcode)
  rw [packs_codeBits hie.tree hve hxs, hcodes] at hlen hbits
  rw [← hsrc, ← unreadBits_of_urem_eq_zero hd0] at hbits
  obtain ⟨d', hrun', hread, hrsp⟩ := runAll_dec hid.tree hvd (by rwa [hcnt]) hbits
  have hpad := hread.rest hbits
  obtain ⟨hsrcq, -, huacc⟩ := unpacker_of_zeros (hread.unpackerOk hid.unpacker)
    (by rw [hsrc]; omega) hpad
  obtain ⟨d'', halign, ⟨hrsp', -⟩, -, hurem, hqueue, -, -, -, -, hrec⟩ :=
    UnpackerRules.alignDiscardsPartialByte d'
  rw [hrsp, huacc] at hrsp'
  exact ⟨d'', d'.urem.setWidth 8, by simp [runAll_append, hrun', runAll, halign], hrsp', hurem,
    hqueue.trans hsrcq, hrec.1.trans hread.record.1, hrec.2.trans hread.record.2⟩

end Sys2Proof.Proofs.DatapathRules
end

section
/-! SUPPORT. The twelve status registers in numbers (spec/10_state.md R36, R38 to R44), and how the
system commands end (spec/46_system.md R172 to R174). -/

namespace Sys2Proof.Machine

open Sys2Proof.Spec

/-! ### The registers -/

/-- The number a status register is read by (R36). -/
def StatusReg.index : StatusReg → Nat
  | .id => 0
  | .status => 1
  | .err => 2
  | .errcmdLo => 3
  | .errcmdHi => 4
  | .totalLo => 5
  | .totalHi => 6
  | .ndist => 7
  | .root => 8
  | .nint => 9
  | .pack => 10
  | .unpk => 11

/-- The operand that selects a register is its number (R36). -/
theorem index_of_statusRegOf {idx : Byte} {r : StatusReg} (h : statusRegOf idx = some r) :
    idx.toNat = r.index := by
  unfold statusRegOf at h
  split at h <;> cases h <;> rfl

/-- Each operand up to 11 selects a register (R36). -/
theorem statusRegOf_of_le {idx : Byte} (h : idx.toNat ≤ 11) : ∃ r, statusRegOf idx = some r :=
  Option.ne_none_iff_exists'.mp fun hnone => Nat.not_lt.mpr h (statusRegOf_none hnone)

/-- The other operands select none (R36). -/
theorem statusRegOf_of_gt {idx : Byte} (h : 11 < idx.toNat) : statusRegOf idx = none :=
  Option.eq_none_iff_forall_ne_some.mpr fun _ hsome => Nat.not_le.mpr h (statusRegOf_some hsome)

/-- The statements' flags are the model's (R35, R39). -/
theorem statusBits_eq (s : State) : statusBits s =
    [s.treeValid, faultLine s, s.degen, pkPending s, upPending s, srcEmpty s, s.srcEos] := by
  simp only [statusBits, faultLine, pkPending, upPending, srcEmpty, ← bne_iff_ne,
    ← List.isEmpty_iff, Bool.decide_eq_true]

/-- `STATUS` as its flags, each at its place value (R39). -/
theorem statusWord_toNat (s : State) :
    (statusWord s).toNat = ((statusBits s).mapIdx fun i b => b.toNat * 2 ^ i).sum := by
  simp only [statusBits_eq, List.mapIdx_cons, List.mapIdx_nil, List.sum_cons, List.sum_nil,
    statusWord, toNat_append_add, BitVec.toNat_ofBool, BitVec.toNat_ofNat]
  omega

theorem counterSum_lt (s : State) : counterSum s < 2 ^ 40 :=
  counterSum_eq_countSum s ▸ countSum_lt s.cnt

/-- `TOTAL` does not overflow its 40 bits (R42). -/
theorem total_toNat (s : State) : (total s).toNat = counterSum s := by
  rw [total, BitVec.toNat_ofNat, Nat.mod_eq_of_lt (countSum_lt s.cnt), counterSum_eq_countSum]

/-- A bit count above a byte of bits, as `PACK` and `UNPK` show them (R44). -/
theorem countedByte_toNat (n : BitVec 3) (b : Byte) :
    (0#21 ++ n ++ b).toNat = b.toNat + n.toNat * 2 ^ 8 := by
  simp only [toNat_append_add, BitVec.toNat_ofNat]
  omega

/-- Each register as the spec's number (R36). -/
theorem readStatusReg_toNat (r : StatusReg) (s : State) :
    (readStatusReg r s).toNat = registerValue s r.index := by
  cases r with
  | id => rfl
  | status => exact statusWord_toNat s
  | err => exact BitVec.toNat_setWidth_of_le (by decide)
  | errcmdLo => exact dataField_toNat s.errcmd
  | errcmdHi =>
    have hlt := s.errcmd.isLt
    simp only [readStatusReg, BitVec.extractLsb'_toNat, Nat.shiftRight_eq_div_pow,
      StatusReg.index, registerValue]
    omega
  | totalLo =>
    simp only [readStatusReg, BitVec.extractLsb'_toNat, Nat.shiftRight_zero, total_toNat,
      StatusReg.index, registerValue]
  | totalHi =>
    have hlt := counterSum_lt s
    simp only [readStatusReg, BitVec.toNat_setWidth, BitVec.extractLsb'_toNat,
      Nat.shiftRight_eq_div_pow, total_toNat, StatusReg.index, registerValue]
    omega
  | ndist =>
    have hle := distinct_le s.cnt
    simp only [readStatusReg, BitVec.toNat_ofNat, StatusReg.index, registerValue,
      distinctCount_eq_distinct]
    omega
  | root => exact BitVec.toNat_setWidth_of_le (by decide)
  | nint => exact BitVec.toNat_setWidth_of_le (by decide)
  | pack => exact countedByte_toNat s.pcnt s.pacc
  | unpk => exact countedByte_toNat s.urem s.uacc

/-! ### The commands, case by case -/

theorem exec_nop (s : State) : exec .nop s = .next (respond 0#8 0#8 0#32 s) := rfl

theorem exec_srst (s : State) :
    exec .srst s = .next (respond 0#8 0#8 0#32 (resetElements s)) := rfl

theorem exec_rdreg_of_some {idx : Byte} {r : StatusReg} (h : statusRegOf idx = some r)
    (s : State) : exec (.rdreg idx) s = .next (respond 0#8 0#8 (readStatusReg r s) s) := by
  rw [exec, execRdreg, h]
  rfl

theorem exec_rdreg_of_none {idx : Byte} (h : statusRegOf idx = none) (s : State) :
    exec (.rdreg idx) s = .next (raise .illegalOperand s) := by
  rw [exec, execRdreg, h, trap]

end Sys2Proof.Machine
end

section
/-! PROOFS. The statements of the family 46_system.md. -/

namespace Sys2Proof.Proofs.SystemRules

open Sys2Proof Sys2Proof.Machine Sys2Proof.Spec

/-- Settles O18: an operand up to 11 selects the register with that number, which a response answers
and leaves as it was; any other selects none. -/
theorem statusRegistersRead : Obligations.StatusRegistersRead := by
  intro s idx
  refine ⟨fun hle => ?_, fun hgt => ?_, counterSum_lt s⟩
  · obtain ⟨r, hr⟩ := statusRegOf_of_le hle
    have hvalue : (readStatusReg r s).toNat = registerValue s idx.toNat := by
      rw [readStatusReg_toNat, index_of_statusRegOf hr]
    exact ⟨_, _, exec_rdreg_of_some hr s, answered_self _ _ _ s, hvalue, sameBlock_respond _ _ _ s⟩
  · exact ⟨_, exec_rdreg_of_none (statusRegOf_of_gt hgt) s, raise_leaves .illegalOperand s⟩

/-- Settles O16: NOP answers from the state it found, and a response changes nothing of the
block. -/
theorem nopOnlyAnswers : Obligations.NopOnlyAnswers := by
  intro s
  exact ⟨_, exec_nop s, answered_self _ _ _ s, sameBlock_respond _ _ _ s⟩

/-- Settles O17: SRST answers from the reset elements, whose counters are a table filled with 0. -/
theorem softResetClearsAllButSink : Obligations.SoftResetClearsAllButSink := by
  intro s
  exact ⟨_, exec_srst s, answered_respond rfl rfl rfl _ _ _, readCount_fill 0#32, rfl, rfl, rfl,
    rfl, rfl, rfl, rfl, rfl, rfl, rfl, rfl, rfl, rfl, rfl, rfl⟩

end Sys2Proof.Proofs.SystemRules
end

section
/-! SUPPORT. The outcomes of a step and of a command (spec/60_exceptions.md R181 to R188): the step
always goes on, what the lock turns away, how a command answers. -/

namespace Sys2Proof.Machine

/-- Every command has a next state (R181). -/
theorem exec_next (i : Instr) (s : State) : ∃ t, exec i s = .next t := by
  rcases exec_cases i s with ⟨f, hx, -⟩ | ⟨hx, -, -⟩ | ⟨aux, data, s', hx, -⟩
  · exact ⟨_, hx⟩
  · exact ⟨_, hx⟩
  · exact ⟨_, hx⟩

theorem step_next (s : State) : ∃ t, step s = .next t := by
  rcases step_cases s with ⟨-, hs⟩ | ⟨c, -, ⟨-, hs⟩ | ⟨-, ⟨r, -, hs⟩ | ⟨i, -, hs⟩⟩⟩
  · exact ⟨_, hs⟩
  · exact ⟨_, hs⟩
  · exact ⟨_, hs⟩
  · rw [hs]
    exact exec_next i s

/-- A command that completes answers OK: its effect leaves the ports to the response (R11). -/
theorem effect_answered {i : Instr} {s s' : State} (h : Effect i s s') (aux : Byte) (data : Word) :
    Answered s (respond 0#8 aux data s') 0#8 aux data := by
  obtain ⟨hcmdq, hrsp, hagenda⟩ := effect_ports h
  exact answered_respond hrsp hcmdq hagenda 0#8 aux data

/-- A held command has no answer (R11). -/
theorem not_answered_hold (s : State) (st aux : Byte) (data : Word) :
    ¬ Answered s (hold s) st aux data := by
  rintro ⟨-, -, hheld, -⟩
  cases hheld

theorem raise_err_of_locked {s : State} (h : s.err ≠ 0#8) (f : Cause) :
    (raise f s).err = s.err := by
  rw [(raise_record f s).1, if_neg h]

/-- A fault raised while one is recorded changes nothing of the block (R184). -/
theorem Faulted.sameBlock {s t : State} {f : Cause} (h : Faulted s t f) (he : s.err ≠ 0#8) :
    SameBlock s t := by
  obtain ⟨-, hrec, hcnt, htree, hpack, hunpack⟩ := h
  rw [Recorded, if_neg he] at hrec
  exact ⟨hcnt, htree, hpack, hunpack, hrec⟩

/-- A fault is answered with its own code, and no other outcome with a fault's code (R180, R183). -/
theorem fault_of_answered {i : Instr} {s t : State} {f : Cause} (hw : i.wellFormed = true)
    (hx : exec i s = .next t) (ha : Answered s t (causeCode f) 0#8 0#32) : f ∈ ownFaults i := by
  rcases exec_cases i s with ⟨g, hg, hown | ⟨-, hill⟩⟩ | ⟨hh, -, -⟩ | ⟨aux, data, s', hc, he⟩
  · cases hg.symm.trans hx
    obtain ⟨hans, -⟩ := raise_leaves g s
    rwa [causeCode_inj (answered_status ha hans)]
  · rw [hw] at hill
    cases hill
  · cases hh.symm.trans hx
    exact absurd ha (not_answered_hold s _ _ _)
  · cases hc.symm.trans hx
    exact absurd (answered_status ha (effect_answered he aux data)) (causeCode_ne_zero f)

/-- Only a command that waits for the source is left held, with nothing else changed (R112). -/
theorem hold_of_held {i : Instr} {s t : State} (hx : exec i s = .next t) (hh : t.held = true) :
    readsSource i = true ∧ s.srcEos = false ∧ t = hold s := by
  rcases exec_cases i s with ⟨g, hg, -⟩ | ⟨hhold, hr, he⟩ | ⟨aux, data, s', hc, -⟩
  · cases hg.symm.trans hx
    rw [raise_held] at hh
    cases hh
  · cases hhold.symm.trans hx
    exact ⟨hr, he, rfl⟩
  · cases hc.symm.trans hx
    cases hh

/-- The agents leave the fault record alone, but for hardware reset (R188). -/
theorem deliver_err (s : State) :
    (deliver s).err = s.err ∨ s.agenda.head? = some .hwReset := by
  rcases ha : s.agenda with _ | ⟨e, rest⟩
  · exact .inl (by rw [deliver_idle ha])
  · rw [deliver_event ha]
    cases e with
    | issue c => exact .inl rfl
    | srcPush b => exact .inl (pushSource_err b _)
    | srcEnd => exact .inl rfl
    | hwReset => exact .inr rfl

/-- `ERR` after one step from a locked block: as before, but for SRST and hardware reset (R184,
R188). -/
theorem step_err_of_locked {s t : State} (he : s.err ≠ 0#8) (h : step s = .next t) :
    t.err = s.err ∨ (∃ c, AtHead s c ∧ decode c = .ok .srst) ∨
      (Waiting s ∧ s.agenda.head? = some .hwReset) := by
  cases transition_of_step h with
  | agents hw => exact (deliver_err s).imp_right fun ha => .inr ⟨hw, ha⟩
  | locked c _ _ => exact .inl rfl
  | rejected c r _ _ _ => exact .inl (raise_err_of_locked he _)
  | faulted c i f _ _ _ _ => exact .inl (raise_err_of_locked he f)
  | held c i _ _ _ _ _ => exact .inl rfl
  | completed c i aux data s' hc _ hd heff =>
    rcases effect_record heff with rfl | ⟨herr, -⟩
    · exact .inr (.inl ⟨c, hc, hd⟩)
    · exact .inl herr

end Sys2Proof.Machine
end

section
/-! SUPPORT. The statements' own readings of the faults, the lock and the hold
(spec/60_exceptions.md R184 to R187). -/

namespace Sys2Proof.Spec

open Sys2Proof.Machine

theorem faultsOf_eq_ownFaults (i : Instr) : faultsOf i = ownFaults i := by
  cases i <;> rfl

theorem canHold_of_readsSource {i : Instr} (h : readsSource i = true) : canHold i := by
  cases i
  case rbit | rbits | dec => exact trivial
  all_goals cases h

/-- The opcodes of the commands that can hold (R86, R112). -/
theorem opc_of_readsSource {c : CmdWord} {i : Instr} (hd : decode c = .ok i)
    (h : readsSource i = true) : opc c = 0x40 ∨ opc c = 0x41 ∨ opc c = 0x43 := by
  have ho := opc_of_decode hd
  cases i
  case rbit => exact .inl ho
  case rbits => exact .inr (.inl ho)
  case dec => exact .inr (.inr ho)
  all_goals cases h

/-- The lock refuses every word but the system words, and only while a fault is recorded (R87
step 1). -/
theorem lockRefuses_iff {s : State} {c : CmdWord} :
    lockRefuses c s = true ↔ s.err ≠ 0#8 ∧ ¬ systemWord c := by
  rw [lockRefuses, ← systemOpcode_iff]
  simp

/-- A word the lock turns away is answered LOCKED (R185). -/
theorem step_of_lock {s : State} {c : CmdWord} (hc : AtHead s c) (he : s.err ≠ 0#8)
    (hsys : ¬ systemWord c) : step s = .next (respondLocked s) := by
  rw [step_of_atHead hc, runWord, judge, if_pos (lockRefuses_iff.mpr ⟨he, hsys⟩)]

theorem not_illegalOpc_of_systemWord {c : CmdWord} (h : systemWord c) : ¬ illegalOpc (opc c) := by
  simp only [systemWord, illegalOpc] at h ⊢
  omega

/-- The system words other than SRST's decode to NOP or RDREG (R86, R170). -/
theorem nop_or_rdreg_of_decode {c : CmdWord} {i : Instr} (hd : decode c = .ok i)
    (hsys : systemWord c) (hne : opc c ≠ 0x01) : i = .nop ∨ ∃ idx, i = .rdreg idx := by
  rw [systemWord, opc_of_decode hd] at hsys
  rw [opc_of_decode hd] at hne
  cases i
  case nop => exact .inl rfl
  case rdreg idx => exact .inr ⟨idx, rfl⟩
  case srst => exact absurd rfl hne
  all_goals simp [Instr.opcode] at hsys

/-- A well-formed NOP or RDREG answers from the state it found (R172, R174). -/
theorem exec_nop_or_rdreg {i : Instr} (h : i = .nop ∨ ∃ idx, i = .rdreg idx)
    (hw : i.wellFormed = true) (s : State) :
    ∃ aux data, exec i s = .next (respond 0#8 aux data s) := by
  rcases h with rfl | ⟨idx, rfl⟩
  · exact ⟨_, _, exec_nop s⟩
  · obtain ⟨r, hr⟩ := statusRegOf_of_le (idx := idx) (by simpa [Instr.wellFormed] using hw)
    exact ⟨_, _, exec_rdreg_of_some hr s⟩

end Sys2Proof.Spec
end

section
/-! PROOFS. The statements of the family 60_exceptions.md. -/

namespace Sys2Proof.Proofs.ExceptionRules

open Sys2Proof Sys2Proof.Machine Sys2Proof.Spec

/-- Settles O10: the lock answers for the words it turns away; a malformed system word raises a
fault that finds the record taken; NOP and RDREG answer from the state they found. -/
theorem firstFaultIsKept : Obligations.FirstFaultIsKept := by
  intro s c hc he
  refine ⟨fun hsys => ?_, fun hsys hbad => ?_, fun hsys hlegal hne => ?_⟩
  · obtain ⟨-, -, -, -, hrec⟩ := sameBlock_respond Config.lockedStatus 0#8 0#32 s
    exact ⟨_, step_of_lock hc he hsys, answered_self _ _ _ s, hrec⟩
  · have hd := (decode_illegalOperand_iff (not_illegalOpc_of_systemWord hsys)).mpr hbad
    obtain ⟨hans, -⟩ := raise_leaves .illegalOperand s
    exact ⟨_, step_of_decode_error hc (.inr hsys) hd, hans,
      (raise_leaves .illegalOperand s).sameBlock he⟩
  · obtain ⟨i, hd⟩ := (exists_decode_iff (not_illegalOpc_of_systemWord hsys)).mpr hlegal
    obtain ⟨aux, data, hx⟩ :=
      exec_nop_or_rdreg (nop_or_rdreg_of_decode hd hsys hne) (wellFormed_of_decode hd) s
    exact ⟨_, aux, data, (step_of_decode_ok hc (.inr hsys) hd).trans hx, answered_self _ _ _ s,
      sameBlock_respond _ _ _ s⟩

/-- Settles O11: a word is at the head, so the step is none of the agents'; each other kind of
transition is one of the four outcomes. -/
theorem everyCommandHasAnOutcome : Obligations.EveryCommandHasAnOutcome := by
  intro s c hc
  obtain ⟨t, ht⟩ := step_next s
  refine ⟨t, ht, ?_⟩
  cases transition_of_step ht with
  | agents hw => exact absurd hw (not_waiting_of_atHead hc)
  | locked c' hc' hl =>
    cases atHead_unique hc hc'
    obtain ⟨he, hsys⟩ := lockRefuses_iff.mp hl
    exact .inr (.inr (.inl ⟨he, hsys, answered_self _ _ _ s, sameBlock_respond _ _ _ s⟩))
  | rejected c' r _ _ _ => exact .inr (.inl ⟨_, raise_leaves _ s⟩)
  | faulted c' i f _ _ _ _ => exact .inr (.inl ⟨f, raise_leaves f s⟩)
  | held c' i hc' _ hd hr he =>
    cases atHead_unique hc hc'
    exact .inr (.inr (.inr ⟨opc_of_readsSource hd hr, he, rfl⟩))
  | completed c' i aux data s' _ _ _ he => exact .inl ⟨aux, data, effect_answered he aux data⟩

/-- Settles O13: an answer with a fault's code is that fault, one of the command's own; a command
left held waits for the source. -/
theorem faultsOfEachCommand : Obligations.FaultsOfEachCommand := by
  intro i s t hw hx
  refine ⟨fun f ha => faultsOf_eq_ownFaults i ▸ fault_of_answered hw hx ha, fun hh => ?_⟩
  obtain ⟨hr, he, rfl⟩ := hold_of_held hx hh
  exact ⟨canHold_of_readsSource hr, he, rfl⟩

/-- Settles O15: of what a step can do in a locked block, only SRST and hardware reset write
`ERR`. -/
theorem faultEndsOnlyByReset : Obligations.FaultEndsOnlyByReset := by
  intro s t he h hne
  exact (step_err_of_locked he h).resolve_left hne

/-- Settles O8: the lock's answer changes nothing of the block; a system word passes the lock. -/
theorem lockTurnsCommandsAway : Obligations.LockTurnsCommandsAway := by
  intro s c hc he
  exact ⟨fun hsys =>
      ⟨_, step_of_lock hc he hsys, answered_self _ _ _ s, sameBlock_respond _ _ _ s⟩,
    fun hsys _ hd => step_of_decode_ok hc (.inr hsys) hd⟩

/-- Settles O9: what a fault leaves, with the record written or kept; the codes are the table of
R180. -/
theorem raiseRecordsAndResponds : Obligations.RaiseRecordsAndResponds := by
  intro s f
  obtain ⟨hans, hrec, hcnt, htree, hpack, hunpack⟩ := raise_leaves f s
  refine ⟨_, rfl, hans, fun he => ?_, fun he => ?_, hcnt, htree, hpack, hunpack, ?_⟩
  · rwa [Recorded, if_pos he] at hrec
  · rwa [Recorded, if_neg he] at hrec
  · cases f <;> rfl

/-- Settles O12: an agent acts, or the word at the head has an outcome. -/
theorem everyStepGoesOn : Obligations.EveryStepGoesOn := step_next

end Sys2Proof.Proofs.ExceptionRules
end

section
/-! PROOFS. The statement of the family 70_reset_and_hazards.md. -/

namespace Sys2Proof.Proofs.ResetAndHazards

open Sys2Proof Sys2Proof.Machine Sys2Proof.Spec

/-- Hardware reset acts when no command can run, a held one included (R20, R210). -/
theorem step_hwReset {s : State} {rest : List PortEvent} (hw : Waiting s)
    (ha : s.agenda = .hwReset :: rest) :
    step s = .next (hardReset { s with agenda := rest }) :=
  step_event hw ha

/-- Settles O57: the step is `hardReset` on the state with the reset taken off the agenda; the
counters are a table filled with 0, and every other element is its own reset value. -/
theorem hardwareResetValues : Obligations.HardwareResetValues := by
  intro s rest hw ha
  have hcnt (sym : Byte) : readCount (hardReset { s with agenda := rest }).cnt sym = 0#32 := by
    rw [hardReset_cnt, readCount_fill]
  refine ⟨_, step_hwReset hw ha, hardReset_agenda _, hcnt, ?_⟩
  simp [Config.nil]

end Sys2Proof.Proofs.ResetAndHazards
end
